-- ==== Sys2Proof/Word.lean ====
section
/-! DEFINITION. The machine's word types and the size of its address space (00_scope.md R7, R8). -/

namespace Sys2Proof

/-- A byte (R8). -/
abbrev Byte := BitVec 8

/-- A host register: `REG_W` = 32 bits (R7). -/
abbrev Word := BitVec 32

/-- The number of byte addresses: `2^ADDR_W` with `ADDR_W` = 32 (R7, R45). -/
abbrev addrSpace : Nat := 4294967296

end Sys2Proof
end

