-- ==== Sys2Proof/Config.lean ====
section
/-! DEFINITION. What this hardware fixes (00_scope.md R7) and what the spec leaves open, as bodiless constants:
the key bytes 4..255, the places of the register blocks, and the draws of every value the spec calls unspecified. -/

namespace Sys2Proof

/-- The reasons of `InvalidArgument` (60_exceptions.md R181). -/
inductive InvalidReason where
  | badCommand
  | regionWrap
  | offsetGtLen
  | srcTooShort
  | dstTooSmall
  | overlap
deriving DecidableEq, Repr, Inhabited

/-- The reasons of `CorruptData` (60_exceptions.md R181). -/
inductive CorruptReason where
  | zeroDistance
  | distanceBeyondOutput
  | truncatedToken
deriving DecidableEq, Repr, Inhabited

/-- The two fault kinds, each with its reason (60_exceptions.md R180). -/
inductive Cause where
  | invalidArgument (r : InvalidReason)
  | corruptData (r : CorruptReason)
deriving DecidableEq, Repr, Inhabited

/-- The ways a command ends (60_exceptions.md, opening paragraph). -/
inductive Ending where
  | done
  | fault (c : Cause)
deriving DecidableEq, Repr, Inhabited

/-- `HEADER_LEN` (R7). -/
abbrev Config.headerLen : Nat := 8

/-- `FLAG_GROUP`, tokens per flag byte (R7). -/
abbrev Config.flagGroup : Nat := 8

/-- `LEN_MIN` (R7). -/
abbrev Config.lenMin : Nat := 2

/-- `LEN_MAX` (R7). -/
abbrev Config.lenMax : Nat := 17

/-- `DIST_MAX` (R7; 90_conflicts.md C1: the 12-bit field's largest value). -/
abbrev Config.distMax : Nat := 4095

/-- `MASK_KEY[4..255]` (R7, R41, D27): in no source, so nothing may be assumed of it (assumption 6). Only indices
4 to 255 are ever asked for. -/
opaque Config.maskKey : BitVec 8 → Byte

/-- `CORE_BASE` of each core of a platform (R7, R66, D2): the host's bus address of its register block
(assumption 18). -/
opaque Config.coreBase : Nat → Nat

/-- A FREE VALUE: the byte that draw number `n` of a core's stream puts at an address (R211, R220, D22; assumptions
7 to 9 and 29). -/
opaque Config.drawByte : (stream n : Nat) → (addr : Nat) → Byte

/-- A FREE VALUE: the `i`th word of draw number `n` of a core's stream (R26, R220; assumptions 7, 8 and 29). -/
opaque Config.drawWord : (stream n : Nat) → (i : Nat) → Word

/-- A FREE VALUE: the outcome draw number `n` of a core's stream gives a command whose buffers were not left alone
(R220: "the STATUS outcome is also unspecified"; assumptions 23 and 29). -/
opaque Config.drawEnding : (stream n : Nat) → Ending

end Sys2Proof
end

