-- ==== Sys2Proof/Syntax.lean ====
section
/-! DEFINITION. The instructions: one constructor per row of opcode_table.json. The first three are the decoder's
token "instructions" (41_decoder.md R122 to R124), the last three the commands (30_encoding.md R95). -/

namespace Sys2Proof

/-- The rows of opcode_table.json. -/
inductive Instr where
  /-- FLAGS: fetch the next flag byte (R122); `f` is that byte (R82). -/
  | flags (f : Byte)
  /-- LIT: the literal token with output byte `b` (R123, R83). -/
  | lit (b : Byte)
  /-- REF: the reference token, copy `length` bytes from `distance` bytes back (R124, R84, R85). -/
  | ref (distance length : Nat)
  /-- MASK: command code 0x01 (R110). -/
  | mask
  /-- DECOMPRESS: command code 0x02 (R120). -/
  | decompress
  /-- COMPRESS: command code 0x03 (R155). -/
  | compress
deriving DecidableEq, Repr

end Sys2Proof
end

