-- ==== Sys2Proof/WellFormed.lean ====
section
/-! DEFINITION. Which instruction terms have an encoding: a reference's distance fits `d[15:4]` and its length is
`d[3:0] + 2` (30_encoding.md R84, R85). Distance 0 has an encoding; it faults when executed (R89). -/

namespace Sys2Proof

/-- The distance field holds 0 to 4095 (R85, C1). -/
def Instr.distanceFits : Instr → Bool
  | .ref d _ => d ≤ Config.distMax
  | .flags _ | .lit _ | .mask | .decompress | .compress => true

/-- The length field holds 2 to 17 (R85). -/
def Instr.lengthFits : Instr → Bool
  | .ref _ l => Config.lenMin ≤ l && l ≤ Config.lenMax
  | .flags _ | .lit _ | .mask | .decompress | .compress => true

/-- An instruction that has an encoding. -/
def Instr.wf (i : Instr) : Bool := i.distanceFits && i.lengthFits

/-- A token of the compressed stream: a literal or a reference (R12). -/
def Instr.isToken : Instr → Bool
  | .lit _ | .ref _ _ => true
  | .flags _ | .mask | .decompress | .compress => false

end Sys2Proof
end

