-- ==== Sys2Proof/Decode.lean ====
section
/-! DEFINITION. The decoder and, after it, the encoder (30_encoding.md). What a byte means is decided by where it
stands, never by its bits (R87): the decoder is told which of the four places it reads from. -/

namespace Sys2Proof

/-- Where the bytes stand (R87, R88, R95): in a CMD write, at a flag byte's place, or at a token whose selector
bit is set or clear (R82). -/
inductive DecodeContext where
  | command
  | flagByte
  | literal
  | reference
deriving DecidableEq, Repr

/-- Why bytes are no instruction. -/
inductive DecodeError where
  /-- Fewer bytes than the place asks for (R89). -/
  | truncated
  /-- A command code that is not 0x01, 0x02 or 0x03 (R95). -/
  | badCommand (op : Byte)
deriving DecidableEq, Repr

/-- How many bytes an instruction has: the place decides it (R87); a CMD write is one 32-bit word (R20). -/
def DecodeContext.size : DecodeContext → Nat
  | .command => 4
  | .flagByte => 1
  | .literal => 1
  | .reference => 2

/-- `d = zext_16(low) OR (zext_16(high) << 8)` (R85, R61). -/
def descriptor (low high : Byte) : BitVec 16 :=
  low.setWidth 16 ||| (high.setWidth 16 <<< 8)

/-- `distance = d[15:4]` (R85). -/
def descriptorDistance (d : BitVec 16) : Nat := (d.extractLsb' 4 12).toNat

/-- `length = d[3:0] + 2` (R85). -/
def descriptorLength (d : BitVec 16) : Nat := (d.extractLsb' 0 4).toNat + Config.lenMin

/-- The instruction a command code names (R95). -/
def decodeOp (op : Byte) : Except DecodeError Instr :=
  if op = 0x01 then .ok .mask
  else if op = 0x02 then .ok .decompress
  else if op = 0x03 then .ok .compress
  else .error (.badCommand op)

/-- The decoder: one instruction from the front of `bytes`, and the rest. CMD bits 31:8 are discarded (R21). -/
def decode : DecodeContext → List Byte → Except DecodeError (Instr × List Byte)
  | .command, op :: _ :: _ :: _ :: rest =>
    match decodeOp op with
    | .ok i => .ok (i, rest)
    | .error e => .error e
  | .flagByte, f :: rest => .ok (.flags f, rest)
  | .literal, b :: rest => .ok (.lit b, rest)
  | .reference, low :: high :: rest =>
    .ok (.ref (descriptorDistance (descriptor low high)) (descriptorLength (descriptor low high)), rest)
  | .command, _ => .error .truncated
  | .flagByte, _ => .error .truncated
  | .literal, _ => .error .truncated
  | .reference, _ => .error .truncated

/-- The first `n` bytes of a number, least significant first (R61). -/
def littleEndian : (n : Nat) → (w : Nat) → List Byte
  | 0, _ => []
  | n + 1, w => BitVec.ofNat 8 w :: littleEndian n (w / 256)

/-- A host register word as bytes: a little-endian word (R20). -/
def wordBytes (w : Word) : List Byte := littleEndian 4 w.toNat

/-! ## The encoder -/

/-- Where an instruction's bytes stand. -/
def Instr.context : Instr → DecodeContext
  | .flags _ => .flagByte
  | .lit _ => .literal
  | .ref _ _ => .reference
  | .mask | .decompress | .compress => .command

/-- `d = (D << 4) OR (L - 2)` (R86). -/
def encodeDescriptor (distance length : Nat) : Nat := (distance <<< 4) ||| (length - Config.lenMin)

/-- The bytes of an instruction (R82, R83, R86, R95); a command is the 32-bit CMD word with bits 31:8 zero. -/
def encode : Instr → List Byte
  | .flags f => [f]
  | .lit b => [b]
  | .ref distance length => littleEndian 2 (encodeDescriptor distance length)
  | .mask => littleEndian 4 0x01
  | .decompress => littleEndian 4 0x02
  | .compress => littleEndian 4 0x03

/-- A token's selector: 1 = literal, 0 = reference (R82). -/
def selector : Instr → Nat
  | .lit _ => 1
  | .ref _ _ | .flags _ | .mask | .decompress | .compress => 0

/-- The flag byte of a group of at most eight tokens: bit `k` selects token `k`, unused bits are 0 (R82, R97). -/
def groupFlag : List Instr → Nat
  | [] => 0
  | t :: ts => selector t + 2 * groupFlag ts

/-- The tokens of a stream with a flag byte before the 1st, 9th, 17th, ... (R97); `fuel` bounds the groups. -/
def assembleGroups : (fuel : Nat) → List Instr → List Byte
  | 0, _ => []
  | _ + 1, [] => []
  | fuel + 1, t :: ts =>
    BitVec.ofNat 8 (groupFlag ((t :: ts).take Config.flagGroup)) ::
      (((t :: ts).take Config.flagGroup).flatMap encode ++
        assembleGroups fuel ((t :: ts).drop Config.flagGroup))

/-- The compressed stream of a header and its tokens (R80, R88, R97); with no token it still has one flag byte. -/
def assemble (header : List Byte) (tokens : List Instr) : List Byte :=
  header ++ if tokens.isEmpty then [0x00] else assembleGroups tokens.length tokens

/-- The pseudo-instruction `RUN b, n`: `n` copies of `b`, for `3 <= n <= 18` (R97). -/
def runOf (b : Byte) (n : Nat) : List Instr := [.lit b, .ref 1 (n - 1)]

/-! ## The opcode table's words -/

/-- Which place a word of opcode_table.json stands in. The table tells FLAGS and LIT apart by place alone, so its
8-bit words are read as a flag byte, except the three the table fixes as command codes; two bytes are a reference;
four are a CMD word (assumption 14). -/
def tableContext (nbits w : Nat) : DecodeContext :=
  if nbits ≤ 8 then
    if w = 1 || w = 2 || w = 3 then .command else .flagByte
  else if nbits ≤ 16 then .reference
  else .command

/-- The instruction the decoder reads from a word of opcode_table.json (assumption 14). -/
def decodeTableWord (nbits w : Nat) : Option Instr :=
  match decode (tableContext nbits w) (littleEndian (tableContext nbits w).size w) with
  | .ok (i, _) => some i
  | .error _ => none

end Sys2Proof
end

