-- ==== Sys2Proof/Machine/State.lean ====
section
/-! DEFINITION. The machine's state as plain data (10_state.md), why a step can stop, and the state after reset. -/

namespace Sys2Proof.Machine

/-- `phase`, the control state (R30). -/
inductive Phase where
  | idle
  | check
  | maskRun
  | decRun
  | decCopy
  | encRun
  | done
  | fault
deriving DecidableEq, Repr

/-- STATUS.STATE (R22). -/
inductive CommandState where
  | idle
  | busy
  | done
  | fault
deriving DecidableEq, Repr

/-- STATUS (R22): STATE; CODE and REASON as one optional cause (none = CODE NONE, REASON 0); LAST_OP. The host reads
it as a word, `Status.word`; it cannot write it (assumption 16). -/
structure Status where
  state  : CommandState
  cause  : Option Cause
  lastOp : Byte
deriving DecidableEq, Repr

/-- The memory behind the port, as address and byte pairs in the canonical form of `Memory.wf`. -/
abbrev Memory := List Host.Cell

/-- The byte region `[base, base + len)` (R45, R65), on unbounded integers. -/
structure Region where
  base : Nat
  len  : Nat
deriving DecidableEq, Repr

/-- What the host has lent to a command from its CMD write until it reads STATUS as DONE or FAULT (R220). -/
structure Claim where
  /-- Bytes the host must not write: SRC, and DST where the command has one (R220). -/
  guarded : List Region
  /-- Bytes the command can read or write, whatever its data (R64); DECOMPRESS never reads the header (R120). -/
  touched : List Region
  /-- Bytes the host must not read: DST, for MASK the SRC (R220). -/
  hidden  : Region
  /-- The command's write region (R211). -/
  writes  : Region
deriving DecidableEq, Repr

/-- The width of a host access to the register block (R20). -/
inductive Width where
  | byte
  | half
  | word
deriving DecidableEq, Repr

/-- One action on CORE from outside, or CORE's own turn (assumption 2). -/
inductive Input where
  /-- CORE takes its next step. -/
  | turn
  /-- The host writes the register block at a byte offset (R20). -/
  | regWrite (offset : BitVec 6) (width : Width) (value : Word)
  /-- The host reads the register block at a byte offset (R20). -/
  | regRead (offset : BitVec 6) (width : Width)
  /-- The host stores one byte to the memory it owns (R69, R213). -/
  | memWrite (addr : Word) (value : Byte)
  /-- The host loads one byte of the memory it owns (R69, R213). -/
  | memRead (addr : Word)
  /-- The platform asserts reset (R210). -/
  | reset
deriving DecidableEq, Repr

/-- What the model records as having happened (R190; assumption 22). -/
inductive Event where
  /-- A command ended: its OP byte, how, and SRC_POS and DST_POS. -/
  | ended (op : Byte) (how : Ending) (srcPos dstPos : Word)
  /-- The host stored to a lent byte after a command's end and before it read that end: the outcome last recorded,
  of this OP byte, is now a free value (the model's choice, assumptions 8 and 22). -/
  | disturbed (op : Byte) (how : Ending) (srcPos dstPos : Word)
  /-- A register read gave the host this word. -/
  | regRead (offset : BitVec 6) (value : Word)
  /-- A memory load gave the host this byte. -/
  | memRead (addr : Word) (value : Byte)
  /-- Reset was asserted. -/
  | reset
deriving DecidableEq, Repr

/-- The state of one CORE, the memory it reaches, and the model's own bookkeeping. -/
structure State where
  /-- STATUS (R22). -/
  status : Status
  /-- SRC_BASE (R23). -/
  srcBase : Word
  /-- SRC_LEN (R23). -/
  srcLen : Word
  /-- DST_BASE (R23). -/
  dstBase : Word
  /-- DST_LEN (R23). -/
  dstLen : Word
  /-- OFFSET (R24). -/
  offset : Word
  /-- HDR_LO (R25). -/
  hdrLo : Word
  /-- HDR_HI (R25). -/
  hdrHi : Word
  /-- SRC_POS, the result register (R26). -/
  srcPosReg : Word
  /-- DST_POS, the result register (R26). -/
  dstPosReg : Word
  /-- `phase` (R30). -/
  phase : Phase
  /-- `src_pos` (R31). -/
  srcPos : Word
  /-- `dst_pos` (R32). -/
  dstPos : Word
  /-- `flag` (R33). -/
  flag : Byte
  /-- `bit`, the one-hot bit cursor (R34). -/
  bit : BitVec 9
  /-- `key_idx` (R35). -/
  keyIdx : BitVec 8
  /-- `copy_from` (R36). -/
  copyFrom : Word
  /-- `copy_left` (R36). -/
  copyLeft : BitVec 5
  /-- `tok_start` (R36). -/
  tokStart : Word
  /-- `flag_pos` (R36). -/
  flagPos : Word
  /-- The memory behind the port (R45, R60). -/
  mem : Memory
  /-- MODEL: what comes next from outside, and CORE's turns (assumption 2). -/
  inputs : List Input
  /-- MODEL: what has happened, newest first (R190; assumption 22). -/
  history : List Event
  /-- MODEL: how many free values have been used (assumption 24). -/
  draws : Nat
  /-- MODEL: whose free values these are: the core's number on a platform (R197; assumption 29). -/
  stream : Nat
  /-- MODEL: what the host has lent to the last command (R220; assumption 8). -/
  claim : Option Claim
  /-- MODEL: the ownership rule was broken during this command (R220, R221; assumption 8). -/
  tainted : Bool
  /-- MODEL: address ranges with no ordinary memory behind them (R74; assumption 10). -/
  devices : List Region
deriving DecidableEq, Repr

/-- Why the machine stops. The spec's own faults are not here: they are next states (R182, R185). -/
inductive Fault where
  /-- An access primitive of R10 was asked for a buffer offset outside its range. Raised by `srcRead`, `dstRead`,
  `dstWrite` and a flag-byte fetch, only in states that no run reaches (`Inv`). Safe: the spec gives no meaning. -/
  | outsideBuffer (offset : Nat)
  /-- An address beyond the 2^32 bytes of R45. Raised by the same primitives, only in states that no run reaches
  (R65). Safe: there is no such byte. -/
  | noSuchAddress (addr : Nat)
deriving DecidableEq, Repr

/-- Why the model gives a step no meaning. -/
inductive Refusal where
  /-- An instruction with no meaning yet; raised only by `exec`'s own arms. Safe. -/
  | notModelled (mnemonic : String)
  /-- A host access to the register block that is no aligned 32-bit word (R20: "A model refuses such an access").
  Raised by `hostStep`. Safe. -/
  | hostAccess (offset : BitVec 6) (width : Width)
  /-- A command's region, or a host access, on an address with no ordinary memory behind it (R74: "A model refuses
  such a launch"). Raised by `checkStep` and `hostStep`. Safe. -/
  | nonOrdinaryMemory
deriving DecidableEq, Repr

/-- The machine right after reset (R48, R210). The working registers' values and the model's own fields are choices
(assumptions 2, 4, 5, 8, 10, 22, 24, 29). -/
def State.reset : State where
  status := { state := .idle, cause := none, lastOp := 0 }
  srcBase := 0
  srcLen := 0
  dstBase := 0
  dstLen := 0
  offset := 0
  hdrLo := 0
  hdrHi := 0
  srcPosReg := 0
  dstPosReg := 0
  phase := .idle
  srcPos := 0
  dstPos := 0
  flag := 0
  bit := 1
  keyIdx := 0
  copyFrom := 0
  copyLeft := 0
  tokStart := 0
  flagPos := 0
  mem := []
  inputs := []
  history := []
  draws := 0
  stream := 0
  claim := none
  tainted := false
  devices := []

end Sys2Proof.Machine
end

