-- ==== Sys2Proof/Machine/Ops.lean ====
section
/-! DEFINITION. The named operations over memory, regions and the command's life: starting a command, ending it,
raising a fault, buffer ownership and reset. -/

namespace Sys2Proof.Machine

/-- The outcome of a step. -/
abbrev Result := Host.Outcome State Fault Refusal

/-- Go on from a next state; a stop stays a stop. -/
def andThen (r : Result) (f : State → Result) : Result :=
  match r with
  | .next s => f s
  | .fault e => .fault e
  | .refused e => .refused e

/-- Go on with a value that was read; a fault stays a fault. -/
def withValue {α : Type} (r : Except Fault α) (f : α → Result) : Result :=
  match r with
  | .ok a => f a
  | .error e => .fault e

/-! ## Memory -/

/-- What a byte of memory that nothing has written reads as (assumption 5). -/
def Memory.unlisted : Byte := 0

/-- `MemRead(addr, 1)` (R10, R60). -/
def Memory.read : Memory → Nat → Byte
  | [], _ => Memory.unlisted
  | (a, v) :: m, x => if a = x then v else Memory.read m x

/-- `MemWrite(addr, 1, v)` (R10, R60), keeping the canonical form. -/
def Memory.write : Memory → Nat → Byte → Memory
  | [], x, b => if b = Memory.unlisted then [] else [(x, b)]
  | (a, v) :: m, x, b =>
    if x < a then (if b = Memory.unlisted then (a, v) :: m else (x, b) :: (a, v) :: m)
    else if x = a then (if b = Memory.unlisted then m else (x, b) :: m)
    else (a, v) :: Memory.write m x b

/-- Addresses rise from `lo`, stay inside the address space, and no entry equals what an unlisted byte reads as. -/
def Memory.canonicalFrom (lo : Nat) : Memory → Bool
  | [] => true
  | (a, v) :: m => lo ≤ a && a < addrSpace && v != Memory.unlisted && Memory.canonicalFrom (a + 1) m

/-- The canonical form of memory. -/
def Memory.wf (m : Memory) : Bool := Memory.canonicalFrom 0 m

/-- Writes `f a` to each address `a` of `[base, base + n)` that exists. -/
def Memory.fill (f : Nat → Byte) (m : Memory) (base : Nat) : (n : Nat) → Memory
  | 0 => m
  | n + 1 =>
    if base + n < addrSpace then (Memory.fill f m base n).write (base + n) (f (base + n))
    else Memory.fill f m base n

/-! ## Regions -/

/-- `BASE + LEN > 2^32`, without truncation (R65). -/
def Region.wraps (r : Region) : Bool := r.base + r.len > addrSpace

/-- The region holds the address. -/
def Region.contains (r : Region) (a : Nat) : Bool := r.base ≤ a && a < r.base + r.len

/-- `Overlap(A, B)` (R120). -/
def Region.overlaps (a b : Region) : Bool :=
  a.len != 0 && b.len != 0 && a.base < b.base + b.len && b.base < a.base + a.len

/-- `SRC` (R45). -/
def State.srcRegion (s : State) : Region := ⟨s.srcBase.toNat, s.srcLen.toNat⟩

/-- `DST` (R45). -/
def State.dstRegion (s : State) : Region := ⟨s.dstBase.toNat, s.dstLen.toNat⟩

/-- The bytes of SRC that DECOMPRESS can read: all but the header (R120, R64). -/
def State.streamRegion (s : State) : Region :=
  ⟨s.srcBase.toNat + Config.headerLen, s.srcLen.toNat - Config.headerLen⟩

/-- The bytes MASK reads and writes (R64, R211). -/
def State.maskedRegion (s : State) : Region :=
  ⟨s.srcBase.toNat + s.offset.toNat, s.srcLen.toNat - s.offset.toNat⟩

/-! ## Phases -/

/-- The phases in which STATE is BUSY (R30). -/
def Phase.isBusy : Phase → Bool
  | .check | .maskRun | .decRun | .decCopy | .encRun => true
  | .idle | .done | .fault => false

/-- STATE as `phase` gives it (R30, R228). -/
def Phase.commandState : Phase → CommandState
  | .idle => .idle
  | .check | .maskRun | .decRun | .decCopy | .encRun => .busy
  | .done => .done
  | .fault => .fault

/-- `STATUS.STATE == BUSY` (R27). -/
def State.busy (s : State) : Bool := s.status.state == .busy

/-- STATUS.STATE is DONE or FAULT: the last command's outcome stands in STATUS (R188, R182, R185). -/
def State.ended (s : State) : Bool := s.status.state == .done || s.status.state == .fault

/-! ## Command codes -/

/-- OP of MASK (R95). -/
def opMask : Byte := 0x01
/-- OP of DECOMPRESS (R95). -/
def opDecompress : Byte := 0x02
/-- OP of COMPRESS (R95). -/
def opCompress : Byte := 0x03

/-! ## The end of a command -/

/-- The phase an ending leads to (R182, R185, R188). -/
def Ending.phase : Ending → Phase
  | .done => .done
  | .fault _ => .fault

/-- STATUS.STATE after an ending (R182, R185, R188). -/
def Ending.commandState : Ending → CommandState
  | .done => .done
  | .fault _ => .fault

/-- CODE and REASON after an ending: 0 and 0 when DONE (R188), else the fault's (R182, R185). -/
def Ending.cause : Ending → Option Cause
  | .done => none
  | .fault c => some c

/-- A command ends: STATUS, SRC_POS, DST_POS and `phase` as one step (R182, R185, R188, R26), and the outcome goes
into the history (R190). The working registers, which the spec leaves unspecified between commands (R36), keep their
last values: the model's choice (assumption 31). -/
def endCommand (how : Ending) (srcPos dstPos : Word) (s : State) : State :=
  { s with
    status := { state := Ending.commandState how, cause := Ending.cause how, lastOp := s.status.lastOp }
    phase := Ending.phase how
    srcPosReg := srcPos
    dstPosReg := dstPos
    history := .ended s.status.lastOp how srcPos dstPos :: s.history }

/-- Every byte of the claim's write region becomes a free value of draw number `n` of a core's stream (R211, R220). -/
def drawWriteRegion (stream n : Nat) (c : Option Claim) (m : Memory) : Memory :=
  match c with
  | none => m
  | some c => m.fill (Config.drawByte stream n) c.writes.base c.writes.len

/-- The end of a command whose buffers were not left alone: the write region, both result registers and the outcome
are free values (R220, R221; assumptions 8 and 23). -/
def spoil (s : State) : State :=
  endCommand (Config.drawEnding s.stream s.draws) (Config.drawWord s.stream s.draws 0)
    (Config.drawWord s.stream s.draws 1)
    { s with
      mem := drawWriteRegion s.stream s.draws s.claim s.mem
      draws := s.draws + 1
      tainted := false }

/-- The end of a command: as its rule says, or with free values when the ownership rule was broken. -/
def conclude (how : Ending) (srcPos dstPos : Word) (s : State) : State :=
  if s.tainted then spoil s else endCommand how srcPos dstPos s

/-- `finish` (R188), with the positions the body writes just before it (R26). -/
def finish (srcPos dstPos : Word) (s : State) : State := conclude .done srcPos dstPos s

/-- TAKING AN EXCEPTION, for both fault kinds: CORE saves no pc and jumps to no handler (R189); the whole record is
STATUS, SRC_POS and DST_POS. InvalidArgument clears both positions (R182); CorruptData reports the token's first
source offset and the output position (R185). The only return is the next CMD write, `startCommand` (R189). -/
def raiseFault (c : Cause) (s : State) : State :=
  match c with
  | .invalidArgument _ => conclude (.fault c) 0 0 s
  | .corruptData _ => conclude (.fault c) s.tokStart s.dstPos s

/-- `raise InvalidArgument(reason)` (R182). -/
def raiseInvalid (r : InvalidReason) (s : State) : State := raiseFault (.invalidArgument r) s

/-- `raise CorruptData(reason)` (R185). -/
def raiseCorrupt (r : CorruptReason) (s : State) : State := raiseFault (.corruptData r) s

/-! ## The start of a command -/

/-- What the host lends to a command with this code (R220, R211), and the most its accesses can reach (R64). Which of
those bytes count when two cores conflict is `State.footprint`'s choice (assumption 30). A code that is no command
reaches no byte. -/
def claimFor (op : Byte) (s : State) : Claim :=
  if op = opMask then
    { guarded := [s.srcRegion], touched := [s.maskedRegion], hidden := s.srcRegion, writes := s.maskedRegion }
  else if op = opDecompress || op = opCompress then
    { guarded := [s.srcRegion, s.dstRegion]
      touched := [if op = opDecompress then s.streamRegion else s.srcRegion, s.dstRegion]
      hidden := s.dstRegion, writes := s.dstRegion }
  else { guarded := [], touched := [], hidden := ⟨0, 0⟩, writes := ⟨0, 0⟩ }

/-- A CMD write with OP = `op` (R28): ignored while BUSY (R27); otherwise LAST_OP is kept, CODE and REASON are
cleared, STATE is BUSY and the argument checks come next (`Phase.check`). The working registers stay as they are until
the body writes them: the model's choice (assumption 31). -/
def startCommand (op : Byte) (s : State) : State :=
  if s.busy then s
  else
    { s with
      status := { state := .busy, cause := none, lastOp := op }
      phase := .check
      claim := some (claimFor op s)
      tainted := false }

/-! ## Buffer ownership -/

/-- The host may not write this byte now (R220). -/
def State.guards (s : State) (a : Nat) : Bool :=
  match s.claim with
  | none => false
  | some c => c.guarded.any (·.contains a)

/-- The host may not read this byte now (R220). -/
def State.hides (s : State) (a : Nat) : Bool :=
  match s.claim with
  | none => false
  | some c => c.hidden.contains a

/-- A command that has ended gets free values after its end. The spec does not say what a forbidden store does then;
that it acts at once, anew at each such store, and is recorded as a `disturbed` event and not as another command's
end, is the model's choice (assumptions 8 and 22), and so is that it marks no other core's command (assumption 32). -/
def disturb (s : State) : State :=
  { spoil s with
    history := .disturbed s.status.lastOp (Config.drawEnding s.stream s.draws) (Config.drawWord s.stream s.draws 0)
      (Config.drawWord s.stream s.draws 1) :: s.history }

/-- The ownership rule has been broken: the running command will end with free values (R220); a command that has
ended, but whose end the host has not read, gets them at once (the model's choice, assumption 8). -/
def violate (s : State) : State := if s.busy then { s with tainted := true } else disturb s

/-- What a host store to address `a` does to the command that holds a claim (R220). -/
def noteHostWrite (a : Nat) (s : State) : State := if s.guards a then violate s else s

/-! ## Reset -/

/-- The reset event (R210, R211): every register as after reset, memory kept; a BUSY command is abandoned without an
outcome and each byte of its write region becomes a free value (assumption 9). In phase Check of a DECOMPRESS or
COMPRESS whose SRC and DST overlap R211 says of the shared bytes both that they are unchanged, as SRC, and unspecified,
as DST; that they become free values is the model's choice (assumption 9). That no other core's command is marked when
it accesses a byte that becomes a free value here is the model's choice too (assumption 32). -/
def applyReset (s : State) : State :=
  { State.reset with
    mem := if s.busy then drawWriteRegion s.stream s.draws s.claim s.mem else s.mem
    inputs := s.inputs
    history := .reset :: s.history
    draws := if s.busy then s.draws + 1 else s.draws
    stream := s.stream
    devices := s.devices }

end Sys2Proof.Machine
end

