-- ==== Sys2Proof/Machine/Flags.lean ====
section
/-! DEFINITION. The flag byte and its bit cursor (R33, R34, R82), and the STATUS word (R22). CORE has no condition
codes (R33). -/

namespace Sys2Proof.Machine

/-- `(flag AND bit) != 0`: the next token is a literal (R82, R121). -/
def State.selectsLiteral (s : State) : Bool := (s.flag.setWidth 9 &&& s.bit) != 0

/-- `bit <- bit << 1` (R34, R121). -/
def doubleBit (s : State) : State := { s with bit := s.bit <<< 1 }

/-- The legal values of the bit cursor (R34). -/
def oneHot (b : BitVec 9) : Bool := [1, 2, 4, 8, 16, 32, 64, 128, 256].contains b.toNat

/-- The numbers of STATUS.STATE (R22). -/
def CommandState.number : CommandState → Nat
  | .idle => 0
  | .busy => 1
  | .done => 2
  | .fault => 3

/-- The numbers of STATUS.CODE (R22, R180). -/
def causeCode : Option Cause → Nat
  | none => 0
  | some (.invalidArgument _) => 1
  | some (.corruptData _) => 2

/-- The reason numbers (R181). -/
def causeReason : Option Cause → Nat
  | none => 0
  | some (.invalidArgument .badCommand) => 0x01
  | some (.invalidArgument .regionWrap) => 0x02
  | some (.invalidArgument .offsetGtLen) => 0x03
  | some (.invalidArgument .srcTooShort) => 0x04
  | some (.invalidArgument .dstTooSmall) => 0x05
  | some (.invalidArgument .overlap) => 0x06
  | some (.corruptData .zeroDistance) => 0x01
  | some (.corruptData .distanceBeyondOutput) => 0x02
  | some (.corruptData .truncatedToken) => 0x03

/-- The STATUS word: STATE in bits 1:0, CODE in 5:4, REASON in 15:8, LAST_OP in 23:16, the rest 0 (R22). -/
def Status.word (t : Status) : Word :=
  BitVec.ofNat 32 (CommandState.number t.state)
    ||| BitVec.ofNat 32 (causeCode t.cause) <<< 4
    ||| BitVec.ofNat 32 (causeReason t.cause) <<< 8
    ||| t.lastOp.setWidth 32 <<< 16

end Sys2Proof.Machine
end

