-- ==== Sys2Proof/Machine/Operands.lean ====
section
/-! DEFINITION. The operand forms: buffer bytes (R10), the key ROM (R40, R41), the header bytes (R25), and the host's
view of the register block (R20). -/

namespace Sys2Proof.Machine

/-! ## Buffers -/

/-- Byte `i` of a buffer: only offsets below its length (R10) and addresses that exist (R45). -/
def bufferAddr (r : Region) (i : Nat) : Except Fault Nat :=
  if r.len ≤ i then .error (.outsideBuffer i)
  else if addrSpace ≤ r.base + i then .error (.noSuchAddress (r.base + i))
  else .ok (r.base + i)

/-- `SrcRead(i)`, and `BufRead(i)` of MASK (R10). -/
def srcRead (s : State) (i : Nat) : Except Fault Byte :=
  match bufferAddr s.srcRegion i with
  | .ok a => .ok (s.mem.read a)
  | .error e => .error e

/-- `DstRead(j)` (R10). -/
def dstRead (s : State) (j : Nat) : Except Fault Byte :=
  match bufferAddr s.dstRegion j with
  | .ok a => .ok (s.mem.read a)
  | .error e => .error e

/-- A state with one byte of memory written. -/
def storeByte (a : Nat) (v : Byte) (s : State) : State := { s with mem := s.mem.write a v }

/-- `DstWrite(j, v)` (R10). -/
def dstWrite (j : Nat) (v : Byte) (s : State) : Result :=
  withValue (bufferAddr s.dstRegion j) fun a => .next (storeByte a v s)

/-- `BufWrite(i, v)` of MASK (R10). -/
def bufWrite (i : Nat) (v : Byte) (s : State) : Result :=
  withValue (bufferAddr s.srcRegion i) fun a => .next (storeByte a v s)

/-- `SrcRead` of `n` offsets from `i` on, the lower offset first (R62). -/
def srcReads (s : State) (i : Nat) : (n : Nat) → Except Fault (List Byte)
  | 0 => .ok []
  | n + 1 =>
    match srcRead s i with
    | .error e => .error e
    | .ok b =>
      match srcReads s (i + 1) n with
      | .error e => .error e
      | .ok bs => .ok (b :: bs)

/-- `DstWrite` of a list of bytes at rising offsets from `j` on. -/
def dstWrites (j : Nat) : List Byte → State → Result
  | [], s => .next s
  | b :: bs, s => andThen (dstWrite j b s) (dstWrites (j + 1) bs)

/-! ## Key ROM and header -/

/-- `KEY[k]` (R40, R41): four bytes are given, the rest is the open parameter. -/
def keyByte (k : BitVec 8) : Byte :=
  if k = 0 then 0x8B
  else if k = 1 then 0xE5
  else if k = 2 then 0x5D
  else if k = 3 then 0xC3
  else Config.maskKey k

/-- The header bytes `H[0..7]`: HDR_LO then HDR_HI, least significant byte first (R25). -/
def State.headerBytes (s : State) : List Byte :=
  [s.hdrLo.extractLsb' 0 8, s.hdrLo.extractLsb' 8 8, s.hdrLo.extractLsb' 16 8, s.hdrLo.extractLsb' 24 8,
   s.hdrHi.extractLsb' 0 8, s.hdrHi.extractLsb' 8 8, s.hdrHi.extractLsb' 16 8, s.hdrHi.extractLsb' 24 8]

/-! ## The register block -/

/-- The registers of the block (R20). -/
inductive HostReg where
  | cmd
  | status
  | srcBase
  | srcLen
  | dstBase
  | dstLen
  | offset
  | hdrLo
  | hdrHi
  | srcPos
  | dstPos
  | reserved
deriving DecidableEq, Repr

/-- The register at an aligned byte offset (R20). -/
def regAt (off : BitVec 6) : HostReg :=
  match off.toNat / 4 with
  | 0 => .cmd
  | 1 => .status
  | 2 => .srcBase
  | 3 => .srcLen
  | 4 => .dstBase
  | 5 => .dstLen
  | 6 => .offset
  | 7 => .hdrLo
  | 8 => .hdrHi
  | 9 => .srcPos
  | 10 => .dstPos
  | _ => .reserved

/-- An aligned 32-bit access, the only kind there is (R20). The spec does not say whether CORE_BASE is a multiple of 4;
that an access is aligned when its offset from CORE_BASE is, whatever its bus address, is the model's choice (assumption
33). -/
def alignedWord (off : BitVec 6) (w : Width) : Bool := w == .word && off.toNat % 4 == 0

/-- What a register holds; CMD and the reserved offsets read 0 (R20, R21). -/
def readReg (r : HostReg) (s : State) : Word :=
  match r with
  | .cmd => 0
  | .status => s.status.word
  | .srcBase => s.srcBase
  | .srcLen => s.srcLen
  | .dstBase => s.dstBase
  | .dstLen => s.dstLen
  | .offset => s.offset
  | .hdrLo => s.hdrLo
  | .hdrHi => s.hdrHi
  | .srcPos => s.srcPosReg
  | .dstPos => s.dstPosReg
  | .reserved => 0

/-- A host write to a register other than CMD: ignored while BUSY (R27) and by the read-only and reserved offsets
(R20, R22, R26). -/
def writeReg (r : HostReg) (v : Word) (s : State) : State :=
  if s.busy then s
  else
    match r with
    | .srcBase => { s with srcBase := v }
    | .srcLen => { s with srcLen := v }
    | .dstBase => { s with dstBase := v }
    | .dstLen => { s with dstLen := v }
    | .offset => { s with offset := v }
    | .hdrLo => { s with hdrLo := v }
    | .hdrHi => { s with hdrHi := v }
    | .cmd | .status | .srcPos | .dstPos | .reserved => s

end Sys2Proof.Machine
end

