-- ==== Sys2Proof/Machine/Checks.lean ====
section
/-! DEFINITION. The argument checks of phase Check (60_exceptions.md R183), on unbounded integers. -/

namespace Sys2Proof.Machine

/-- The worst-case output size for `n` input bytes: `8 + n + max(1, ceil(n/8))` (R152). -/
abbrev outputBound (n : Nat) : Nat := Config.headerLen + n + max 1 ((n + 7) / 8)

/-- The command is one of MASK, DECOMPRESS, COMPRESS (R95). -/
def State.opKnown (s : State) : Bool :=
  s.status.lastOp == opMask || s.status.lastOp == opDecompress || s.status.lastOp == opCompress

/-- The running command is MASK. -/
def State.isMask (s : State) : Bool := s.status.lastOp == opMask
/-- The running command is DECOMPRESS. -/
def State.isDecompress (s : State) : Bool := s.status.lastOp == opDecompress
/-- The running command is COMPRESS. -/
def State.isCompress (s : State) : Bool := s.status.lastOp == opCompress

/-- The seven checks, each with the reason it raises, in order (R183). -/
def argumentChecks (s : State) : List (Bool × InvalidReason) :=
  [ (!s.opKnown, .badCommand),
    (s.srcRegion.wraps, .regionWrap),
    ((s.isDecompress || s.isCompress) && s.dstRegion.wraps, .regionWrap),
    (s.isMask && s.offset.toNat > s.srcLen.toNat, .offsetGtLen),
    (s.isDecompress && s.srcLen.toNat < 9, .srcTooShort),
    (s.isCompress && s.dstLen.toNat < outputBound s.srcLen.toNat, .dstTooSmall),
    ((s.isDecompress || s.isCompress) && s.srcRegion.overlaps s.dstRegion, .overlap) ]

/-- The reason of the first failing entry. -/
def firstFailing : List (Bool × InvalidReason) → Option InvalidReason
  | [] => none
  | (failed, r) :: rest => if failed then some r else firstFailing rest

/-- The reason of the first check that fails (R183). -/
def failedCheck (s : State) : Option InvalidReason := firstFailing (argumentChecks s)

/-- A region of the command lies over addresses with no ordinary memory (R74; assumption 10). -/
def State.overDevice (s : State) : Bool :=
  (claimFor s.status.lastOp s).guarded.any fun r => s.devices.any fun d => r.overlaps d

/-- A single address with no ordinary memory (R74; assumption 10). -/
def State.deviceAt (s : State) (a : Nat) : Bool := s.devices.any (·.contains a)

end Sys2Proof.Machine
end

