-- ==== Sys2Proof/Machine/Decoder.lean ====
section
/-! DEFINITION. The LZSS Decoder (41_decoder.md): DECOMPRESS, its three token instructions and the copy. -/

namespace Sys2Proof.Machine

/-- DECOMPRESS (R120): the CMD write that starts it (R28). -/
def execDecompress (s : State) : Result := .next (startCommand opDecompress s)

/-- The start of DECOMPRESS's body (R120 steps 1 and 2): the header is skipped unread and the output is empty; the
fetch of `F0` at offset 8 is the next step (`decodeStep`). -/
def decompressBegin (s : State) : Result := .next { s with srcPos := 8, dstPos := 0, phase := .decRun }

/-- FLAGS (R122): `bit <- 1`, `flag <- f`, one byte consumed. -/
def execFlags (f : Byte) (s : State) : Result :=
  .next { s with bit := 1, flag := f, srcPos := s.srcPos + 1 }

/-- One byte consumed and one byte produced (R123). -/
def literalAdvance (s : State) : State := { s with srcPos := s.srcPos + 1, dstPos := s.dstPos + 1 }

/-- LIT (R123): the byte goes to DST, unless no SRC byte is left. -/
def execLit (b : Byte) (s : State) : Result :=
  if s.srcLen.toNat ≤ s.srcPos.toNat then .next (raiseCorrupt .truncatedToken s)
  else andThen (dstWrite s.dstPos.toNat b s) fun t => .next (literalAdvance t)

/-- `copy_from`, `copy_left` and `phase` at the start of a copy (R124). -/
def beginCopy (distance length : Nat) (s : State) : State :=
  { s with
    copyFrom := BitVec.ofNat 32 (s.dstPos.toNat - distance)
    copyLeft := BitVec.ofNat 5 length
    phase := .decCopy }

/-- The descriptor's two bytes are consumed (R124). -/
def consumeDescriptor (s : State) : State := { s with srcPos := s.srcPos + 2 }

/-- REF (R124, R125): the checks in R184's order, then the copy of R127 begins. -/
def execRef (distance length : Nat) (s : State) : Result :=
  if s.srcLen.toNat < s.srcPos.toNat + 2 then .next (raiseCorrupt .truncatedToken s)
  else if distance = 0 then .next (raiseCorrupt .zeroDistance (consumeDescriptor s))
  else if s.dstPos.toNat < distance then .next (raiseCorrupt .distanceBeyondOutput (consumeDescriptor s))
  else .next (beginCopy distance length (consumeDescriptor s))

/-- `copy_from`, `dst_pos` and `copy_left` after one copied byte (R127). -/
def copyAdvance (s : State) : State :=
  { s with copyFrom := s.copyFrom + 1, dstPos := s.dstPos + 1, copyLeft := s.copyLeft - 1 }

/-- The end of a copy: what is left over is discarded and the token loop goes on (R127, R121 step 3). -/
def copyEnd (s : State) : State := doubleBit { s with copyLeft := 0, phase := .decRun }

/-- One round of the copy (R127), one byte at a time (R68, R222). -/
def copyStep (s : State) : Result :=
  if 0 < s.copyLeft.toNat && s.dstPos.toNat < s.dstLen.toNat then
    withValue (dstRead s s.copyFrom.toNat) fun b =>
      andThen (dstWrite s.dstPos.toNat b s) fun t => .next (copyAdvance t)
  else .next (copyEnd s)

/-- DECOMPRESS ends (R120 step 4, R129). -/
def decompressFinish (s : State) : State := finish s.srcPos s.dstPos s

end Sys2Proof.Machine
end

