-- ==== Sys2Proof/Machine/Encoder.lean ====
section
/-! DEFINITION. The LZSS Encoder (42_encoder.md), with the hardware's match policy GREEDY_NEAREST (R7, R156). -/

namespace Sys2Proof.Machine

/-- COMPRESS (R155): the CMD write that starts it (R28). -/
def execCompress (s : State) : Result := .next (startCommand opCompress s)

/-- The start of COMPRESS's body (R155, R160): the eight header bytes, and a first group is opened. -/
def compressBegin (s : State) : Result :=
  andThen (dstWrites 0 s.headerBytes s) fun t =>
    .next { t with flagPos := 8, flag := 0, bit := 1, dstPos := 9, srcPos := 0, phase := .encRun }

/-! ## The match search (R156) -/

/-- How many bytes from `p` on equal those from `q` on, at most `limit` (R156's inner loop). -/
def matchLength (src : Nat → Byte) (p q : Nat) : (limit : Nat) → Nat
  | 0 => 0
  | limit + 1 => if src p = src q then matchLength src (p + 1) (q + 1) limit + 1 else 0

/-- R156's outer loop from distance `d` on, `fuel` distances: a strictly longer match replaces the best. -/
def searchFrom (src : Nat → Byte) (p lmax : Nat) : (fuel d : Nat) → (best : Nat × Nat) → Nat × Nat
  | 0, _, best => best
  | fuel + 1, d, best =>
    searchFrom src p lmax fuel (d + 1)
      (if best.1 < matchLength src p (p - d) lmax then (matchLength src p (p - d) lmax, d) else best)

/-- `BestMatch(p)` as length and distance: the longest match, the nearest of the longest (R156). -/
def bestMatch (src : Nat → Byte) (n p : Nat) : Nat × Nat :=
  searchFrom src p (min Config.lenMax (n - p)) (min p Config.distMax) 1 (0, 0)

/-- The SRC bytes as a function of the offset, for a region that does not wrap. -/
def State.srcByte (s : State) (i : Nat) : Byte := s.mem.read (s.srcBase.toNat + i)

/-! ## The output (R155, R160) -/

/-- A new group is opened: its flag byte's place is reserved (R155). -/
def openGroup (s : State) : State :=
  { s with flagPos := s.dstPos, flag := 0, bit := 1, dstPos := s.dstPos + 1 }

/-- When the group is full, its flag byte is stored and a new group is opened (R155). -/
def nextGroup (s : State) : Result :=
  if s.bit = 256 then
    andThen (dstWrite s.flagPos.toNat s.flag s) fun t => .next (openGroup t)
  else .next s

/-- The token for the best match: a reference when its length is at least 2, else a literal (R157). -/
def chooseToken (best : Nat × Nat) (b : Byte) : Instr :=
  if Config.lenMin ≤ best.1 then .ref best.2 best.1 else .lit b

/-- How many input bytes a token stands for (R155). -/
def tokenInput : Instr → Nat
  | .ref _ length => length
  | .lit _ | .flags _ | .mask | .decompress | .compress => 1

/-- `flag <- flag OR bit` for a literal (R155). -/
def noteSelector (t : Instr) (s : State) : State :=
  if selector t = 1 then { s with flag := s.flag ||| s.bit.setWidth 8 } else s

/-- The positions after a token, and `bit <- bit << 1` (R155). -/
def tokenAdvance (t : Instr) (s : State) : State :=
  doubleBit
    { s with
      srcPos := s.srcPos + BitVec.ofNat 32 (tokenInput t)
      dstPos := s.dstPos + BitVec.ofNat 32 (encode t).length }

/-- A token's bytes go to the output (R155, R86). -/
def emitToken (t : Instr) (s : State) : Result :=
  andThen (dstWrites s.dstPos.toNat (encode t) s) fun u => .next (tokenAdvance t (noteSelector t u))

/-- The token at `src_pos` (R155 to R157). -/
def tokenAt (s : State) : Instr :=
  chooseToken (bestMatch s.srcByte s.srcLen.toNat s.srcPos.toNat) (s.srcByte s.srcPos.toNat)

/-- One round of COMPRESS's loop (R155): a token, or the last group is closed and the command ends. -/
def encodeStep (s : State) : Result :=
  if s.srcRegion.wraps then .fault (.noSuchAddress (s.srcBase.toNat + s.srcLen.toNat))
  else if s.srcPos.toNat < s.srcLen.toNat then
    andThen (nextGroup s) fun t => emitToken (tokenAt t) t
  else
    andThen (dstWrite s.flagPos.toNat s.flag s) fun t => .next (finish t.srcLen t.dstPos t)

end Sys2Proof.Machine
end

