-- ==== Sys2Proof/Machine/Masker.lean ====
section
/-! DEFINITION. The Keystream Masker (40_masker.md). -/

namespace Sys2Proof.Machine

/-- MASK (R110): the CMD write that starts it (R28); `maskBegin` and `maskStep` are its body. -/
def execMask (s : State) : Result := .next (startCommand opMask s)

/-- The start of MASK's body: `key_idx <- 0 ; src_pos <- OFFSET` (R110). -/
def maskBegin (s : State) : Result :=
  .next { s with keyIdx := 0, srcPos := s.offset, phase := .maskRun }

/-- `key_idx` and `src_pos` move on, `key_idx` modulo 256 (R111, R35). -/
def maskAdvance (s : State) : State := { s with keyIdx := s.keyIdx + 1, srcPos := s.srcPos + 1 }

/-- One round of MASK's loop (R110): a byte step (R111), or the end of the command. -/
def maskStep (s : State) : Result :=
  if s.srcPos.toNat < s.srcLen.toNat then
    withValue (srcRead s s.srcPos.toNat) fun b =>
      andThen (bufWrite s.srcPos.toNat (b ^^^ keyByte s.keyIdx) s) fun t => .next (maskAdvance t)
  else .next (finish s.srcLen 0 s)

end Sys2Proof.Machine
end

