-- ==== Sys2Proof/Machine/Dispatch.lean ====
section
/-! DEFINITION. One arm per instruction, each one call of its meaning. -/

namespace Sys2Proof.Machine

def exec (i : Instr) (s : State) : Host.Outcome State Fault Refusal :=
  match i with
  | .flags f => Sys2Proof.Machine.execFlags f s
  | .lit b => Sys2Proof.Machine.execLit b s
  | .ref distance length => Sys2Proof.Machine.execRef distance length s
  | .mask => Sys2Proof.Machine.execMask s
  | .decompress => Sys2Proof.Machine.execDecompress s
  | .compress => Sys2Proof.Machine.execCompress s

end Sys2Proof.Machine
end

