-- ==== Sys2Proof/Machine/Sequencer.lean ====
section
/-! DEFINITION. What one step does: CORE's own step in each phase (R30), the fetch of the decoder's tokens, and the
host's actions on the register block, the memory and reset. -/

namespace Sys2Proof.Machine

/-! ## Fetching a token (R87, R88, R121) -/

/-- The instruction at `src_pos` for a place: truncated when its bytes extend past SRC_LEN (R89), and then no byte is
read. -/
def fetch (c : DecodeContext) (s : State) : Except Fault (Except DecodeError Instr) :=
  if s.srcLen.toNat < s.srcPos.toNat + c.size then .ok (.error .truncated)
  else
    match srcReads s s.srcPos.toNat c.size with
    | .error e => .error e
    | .ok bytes =>
      match decode c bytes with
      | .error e => .ok (.error e)
      | .ok (i, _) => .ok (.ok i)

/-- The token's place: the flag bit selects LIT or REF (R82, R121). -/
def tokenContext (s : State) : DecodeContext := if s.selectsLiteral then .literal else .reference

/-- `tok_start <- src_pos` (R120). -/
def beginToken (s : State) : State := { s with tokStart := s.srcPos }

/-- R121 step 3, once the token is complete: a reference's copy is still to run (R127), and a fault has ended the
command (R128). -/
def endToken (s : State) : State := if s.phase = .decRun then doubleBit s else s

/-- A flag byte's fetch and execution (R122). -/
def flagsStep (s : State) : Result :=
  withValue (fetch .flagByte s) fun r =>
    match r with
    | .error _ => .fault (.outsideBuffer s.srcPos.toNat)
    | .ok i => exec i s

/-- A token's fetch and execution, with the loop's own lines around it (R120, R121). -/
def tokenStep (s : State) : Result :=
  withValue (fetch (tokenContext s) s) fun r =>
    match r with
    | .error _ => .next (raiseCorrupt .truncatedToken (beginToken s))
    | .ok i => andThen (exec i (beginToken s)) fun t => .next (endToken t)

/-- `src_pos < SRC_LEN and dst_pos < DST_LEN`, the loop's guard (R121). -/
def State.loopGuard (s : State) : Bool :=
  s.srcPos.toNat < s.srcLen.toNat && s.dstPos.toNat < s.dstLen.toNat

/-- The iteration's flag byte has been fetched and its token comes next, with no guard in between (R121): the cursor
is 1 only after a flag byte, and `F0` leaves `src_pos` at 9 (assumption 3). -/
def State.tokenDue (s : State) : Bool := s.bit == 1 && s.srcPos != 9

/-- One step of phase DecRun (R120, R121, R131): `F0` at offset 8; a flag byte when the cursor is 256; a token; or
the end. -/
def decodeStep (s : State) : Result :=
  if s.srcPos = 8 then flagsStep s
  else if s.tokenDue then tokenStep s
  else if s.loopGuard then (if s.bit = 256 then flagsStep s else tokenStep s)
  else .next (decompressFinish s)

/-! ## CORE's own step -/

/-- The command's body begins (R183, last paragraph). -/
def beginBody (s : State) : Result :=
  if s.overDevice then .refused .nonOrdinaryMemory
  else if s.isMask then maskBegin s
  else if s.isDecompress then decompressBegin s
  else compressBegin s

/-- Phase Check (R183): the first failing check is raised, or the body begins. -/
def checkStep (s : State) : Result :=
  match failedCheck s with
  | some r => .next (raiseInvalid r s)
  | none => beginBody s

/-- CORE's next step, by phase (R30); at rest it does nothing (R60, R199). -/
def coreStep (s : State) : Result :=
  match s.phase with
  | .idle | .done | .fault => .next s
  | .check => checkStep s
  | .maskRun => maskStep s
  | .decRun => decodeStep s
  | .decCopy => copyStep s
  | .encRun => encodeStep s

/-! ## The host's actions -/

/-- A host write of CMD (R21, R28): the decoded command runs; a code that is none starts a command that will fail its
first check (R95, R183). -/
def commandWrite (v : Word) (s : State) : Result :=
  match decode .command (wordBytes v) with
  | .ok (i, _) => exec i s
  | .error _ => .next (startCommand (v.setWidth 8) s)

/-- A host write to the register block (R20 to R27). -/
def hostRegWrite (off : BitVec 6) (v : Word) (s : State) : Result :=
  match regAt off with
  | .cmd => commandWrite v s
  | r => .next (writeReg r v s)

/-- Something the host saw goes into the history. -/
def record (e : Event) (s : State) : State := { s with history := e :: s.history }

/-- A free value has been used. -/
def useDraw (s : State) : State := { s with draws := s.draws + 1 }

/-- The host has read STATUS as DONE or FAULT: the buffers are its own again (R220, R69). -/
def releaseClaim (s : State) : State := { s with claim := none }

/-- The read of a register whose value is unspecified now: SRC_POS or DST_POS while BUSY (R26, R27). -/
def State.unspecifiedNow (s : State) (r : HostReg) : Bool := s.busy && (r == .srcPos || r == .dstPos)

/-- A host read of the register block (R20 to R27). -/
def hostRegRead (off : BitVec 6) (s : State) : State :=
  if s.unspecifiedNow (regAt off) then
    useDraw (record (.regRead off (Config.drawWord s.stream s.draws 0)) s)
  else if regAt off = .status && s.ended then
    releaseClaim (record (.regRead off (readReg (regAt off) s)) s)
  else record (.regRead off (readReg (regAt off) s)) s

/-- A host store of one byte (R69, R220). -/
def hostMemWrite (a : Word) (v : Byte) (s : State) : Result :=
  if s.deviceAt a.toNat then .refused .nonOrdinaryMemory
  else .next (noteHostWrite a.toNat (storeByte a.toNat v s))

/-- A host load of one byte; `hidden` says that its value is unspecified now (R69, R220). -/
def hostMemRead (hidden : Bool) (a : Word) (s : State) : Result :=
  if s.deviceAt a.toNat then .refused .nonOrdinaryMemory
  else if hidden then .next (useDraw (record (.memRead a (Config.drawByte s.stream s.draws a.toNat)) s))
  else .next (record (.memRead a (s.mem.read a.toNat)) s)

/-- What one input does. -/
def hostStep (i : Input) (s : State) : Result :=
  match i with
  | .turn => coreStep s
  | .regWrite off w v => if alignedWord off w then hostRegWrite off v s else .refused (.hostAccess off w)
  | .regRead off w => if alignedWord off w then .next (hostRegRead off s) else .refused (.hostAccess off w)
  | .memWrite a v => hostMemWrite a v s
  | .memRead a => hostMemRead (s.hides a.toNat) a s
  | .reset => .next (applyReset s)

/-- The first input is taken off the list. -/
def State.withInputs (s : State) (rest : List Input) : State := { s with inputs := rest }

/-- One step of the machine: the next input, or CORE's own step when there is none (assumption 2). -/
def advance (s : State) : Result :=
  match s.inputs with
  | [] => coreStep s
  | i :: rest => hostStep i (s.withInputs rest)

/-! ## Placing one instruction to run next -/

/-- The state in which the decoder fetches the given stream bytes next: DECOMPRESS runs over a SRC at address 0 whose
bytes from `pos` on they are, with room in a DST above it; `flag` is the current flag byte (assumption 14). -/
def placeStream (pos : Nat) (flag : Byte) (bytes : List Byte) (s : State) : State :=
  { s with
    inputs := .turn :: s.inputs
    status := { state := .busy, cause := none, lastOp := opDecompress }
    phase := .decRun
    srcBase := 0
    srcLen := 11
    dstBase := 16
    dstLen := 18
    srcPos := BitVec.ofNat 32 pos
    dstPos := 0
    flag := flag
    bit := 1
    mem := (s.mem.write pos (bytes.getD 0 0)).write (pos + 1) (bytes.getD 1 0) }

/-- The state in which the given CMD word is the host's next write (assumption 14). -/
def placeCommand (w : Nat) (s : State) : State :=
  { s with inputs := .regWrite 0 .word (BitVec.ofNat 32 w) :: s.inputs }

/-- The state whose next step runs a word of opcode_table.json (assumption 14). -/
def placeTableWord (nbits w : Nat) (s : State) : State :=
  match tableContext nbits w with
  | .command => placeCommand w s
  | .flagByte => placeStream 8 0 (littleEndian 1 w) s
  | .literal => placeStream 9 1 (littleEndian 1 w) s
  | .reference => placeStream 9 0 (littleEndian 2 w) s

end Sys2Proof.Machine
end

