-- ==== Sys2Proof/Machine/Step.lean ====
section
/-! DEFINITION. One step of the machine, and the state whose next step runs a given instruction. -/

namespace Sys2Proof.Machine

/-- One step: the host's next action, or CORE's (R13, R131). -/
def step (s : State) : Host.Outcome State Fault Refusal := advance s

/-- `s` with the instruction placed where the next step takes it from (assumptions 14 and 15). -/
def State.withFetchWord (s : State) (nbits w : Nat) : State := placeTableWord nbits w s

end Sys2Proof.Machine
end

