-- ==== Sys2Proof/Machine/Platform.lean ====
section
/-! DEFINITION. Several cores over one memory (60_exceptions.md R197, 20_memory.md R73, 70_reset_and_hazards.md R221),
and the bus addresses of their register blocks (R7 `CORE_BASE`, R66). Each core is a whole `State` whose own memory
field is replaced by the shared memory when it moves, and whose free values are a stream of its own, by its number
(assumptions 18 and 29). -/

namespace Sys2Proof.Machine

/-- `N_CORE` cores, as many as the list holds (R7, R197), the one memory they share, and whose turn it is. -/
structure Platform where
  cores : List State
  mem   : Memory
  turns : List Nat
deriving DecidableEq, Repr

/-- The core as number `k` of a platform with this memory: it sees the shared memory (R73), and its free values are
its own (R197). -/
def State.onPlatform (m : Memory) (k : Nat) (s : State) : State := { s with mem := m, stream := k }

/-- Core `k` as it sees the shared memory (R73). -/
def Platform.coreAt (p : Platform) (k : Nat) : Option State :=
  match p.cores[k]? with
  | none => none
  | some s => some (s.onPlatform p.mem k)

/-! ## Which bytes a command reads and writes -/

/-- The bytes a command reads or writes, and those of them it writes (R64, R73). -/
structure Footprint where
  touched : List Region
  writes  : Region
deriving DecidableEq, Repr

/-- One command writes a byte the other reads or writes (R73, R221). -/
def Footprint.conflicts (c d : Footprint) : Bool :=
  d.touched.any (c.writes.overlaps ·) || c.touched.any (d.writes.overlaps ·)

/-- The most that the last command of this core can read and write, whatever its data. -/
def State.reach (s : State) : Footprint :=
  ⟨(claimFor s.status.lastOp s).touched, (claimFor s.status.lastOp s).writes⟩

/-- The core after its next `fuel` steps with the memory to itself, or at its command's end; where it would stop, as
it is there. -/
def State.runAlone : (fuel : Nat) → State → State
  | 0, s => s
  | fuel + 1, s =>
    if s.busy then
      match coreStep s with
      | .next t => runAlone fuel t
      | .fault _ => s
      | .refused _ => s
    else s

/-- More steps than the running command has left (R227): each consumes a source byte, copies a byte, ends a copy, or
begins or ends the command. -/
def State.stepBound (s : State) : Nat := 2 * s.srcLen.toNat + s.dstLen.toNat + 4

/-- The bytes a command has read and written when it has ended, from the positions it stopped at (R64): MASK its
masked range, DECOMPRESS the stream up to `src_pos` and DST up to `dst_pos`, COMPRESS all of SRC and DST up to
`dst_pos`. Of a command that has not ended, the most it can. -/
def State.accessed (s : State) : Footprint :=
  if s.busy then s.reach
  else if s.isMask then ⟨[s.maskedRegion], s.maskedRegion⟩
  else if s.isDecompress then
    ⟨[⟨s.srcBase.toNat + Config.headerLen, s.srcPos.toNat - Config.headerLen⟩, ⟨s.dstBase.toNat, s.dstPos.toNat⟩],
      ⟨s.dstBase.toNat, s.dstPos.toNat⟩⟩
  else if s.isCompress then ⟨[s.srcRegion, ⟨s.dstBase.toNat, s.dstPos.toNat⟩], ⟨s.dstBase.toNat, s.dstPos.toNat⟩⟩
  else s.reach

/-- The bytes a BUSY core's command reads and writes from its start to its end, when it is left alone. The spec does
not say whether R73's and R221's bytes are a command's whole regions or those it accesses, and that they are those it
accesses is the model's choice (assumption 30); a command that will end with free values counts as writing its whole
write region (R220). -/
def State.footprint (s : State) : Footprint :=
  if s.tainted then s.reach else (s.runAlone s.stepBound).accessed

/-- The core is BUSY with a command that makes accesses: one that fails its argument checks touches no byte (R182).
That this holds also of such a command when it is marked, though its write region becomes free values at its end (R220), is
the model's choice (assumption 32). -/
def State.accesses (s : State) : Bool := s.busy && (failedCheck s).isNone

/-- Two cores over the first one's memory are BUSY with commands of which one writes a byte that the other reads or
writes (R73, R221). -/
def State.conflictsWith (s t : State) : Bool :=
  s.accesses && t.accesses && s.footprint.conflicts (t.onPlatform s.mem s.stream).footprint

/-- The command of this core will end with free values (R221, R220's write case). -/
def taint (s : State) : State := { s with tainted := true }

/-- `f` on every core but number `k`, one after another over the shared memory; `i` is the number of the first. -/
def sweepOthers (f : State → State) (k : Nat) : (i : Nat) → List State → Memory → List State × Memory
  | _, [], m => ([], m)
  | i, s :: rest, m =>
    if i = k then (s :: (sweepOthers f k (i + 1) rest m).1, (sweepOthers f k (i + 1) rest m).2)
    else
      (f (s.onPlatform m i) :: (sweepOthers f k (i + 1) rest (f (s.onPlatform m i)).mem).1,
        (sweepOthers f k (i + 1) rest (f (s.onPlatform m i)).mem).2)

/-- Some core but number `k` satisfies `q`; `i` is the number of the first. -/
def anyOther (q : State → Bool) (k : Nat) : (i : Nat) → List State → Bool
  | _, [] => false
  | i, s :: rest => (i != k && q s) || anyOther q k (i + 1) rest

/-- A host store through core `k` reaches every other core's claim (R220, R221). -/
def Platform.noteWrite (k : Nat) (i : Option Input) (p : Platform) : Platform :=
  match i with
  | some (.memWrite a _) =>
    { p with
      cores := (sweepOthers (noteHostWrite a.toNat) k 0 p.cores p.mem).1
      mem := (sweepOthers (noteHostWrite a.toNat) k 0 p.cores p.mem).2 }
  | _ => p

/-- Conflicting BUSY cores spoil each other (R221); `t` is core `k` after its move. A core that is not BUSY after its
move marks no other, also when that move turned its write region into free values (reset, the end of a marked command, a
store after an unread end): the spec does not say what becomes of a command that accesses those bytes, and that it
goes on unmarked over them is the model's choice (assumption 32). -/
def Platform.noteConflicts (k : Nat) (t : State) (p : Platform) : Platform :=
  if anyOther (t.onPlatform p.mem k).conflictsWith k 0 p.cores then
    { p with
      cores := (sweepOthers (fun s => if (t.onPlatform p.mem k).conflictsWith s then taint s else s) k 0
        (p.cores.set k (taint t)) p.mem).1 }
  else p

/-- Core `k`'s own move; a host load of a byte that another core's claim hides gives a free value (R220). -/
def Platform.move (k : Nat) (s : State) (p : Platform) : Result :=
  match s.inputs with
  | .memRead a :: rest =>
    if anyOther (·.hides a.toNat) k 0 p.cores then hostMemRead true a (s.withInputs rest) else step s
  | _ => step s

/-- One step of the platform: the core whose turn it is moves, and the ownership rules are applied (R73, R221). -/
def Platform.step (p : Platform) : Host.Outcome Platform Fault Refusal :=
  match p.turns with
  | [] => .next p
  | k :: rest =>
    match p.coreAt k with
    | none => .next { p with turns := rest }
    | some s =>
      match p.move k s with
      | .fault e => .fault e
      | .refused e => .refused e
      | .next t =>
        .next (Platform.noteConflicts k t (Platform.noteWrite k s.inputs.head?
          { cores := p.cores.set k t, mem := t.mem, turns := rest }))

/-- The core, of the first `n`, whose register block holds a bus address, and the byte offset in it (R20, R66). Where
blocks overlap the highest-numbered of them answers: the spec leaves it open, and this is the model's choice
(assumption 18). -/
def blockAt (addr : Nat) : (n : Nat) → Option (Nat × BitVec 6)
  | 0 => none
  | n + 1 =>
    if Config.coreBase n ≤ addr ∧ addr < Config.coreBase n + 64 then
      some (n, BitVec.ofNat 6 (addr - Config.coreBase n))
    else blockAt addr n

/-- A host access to a bus address becomes the addressed core's next input; an address in no block is none of
CORE's (R20, R66). The address is that of the access's lowest byte: that a wider access which begins below a block and
reaches into it is none of that block's, and is not refused, is the model's choice (assumption 33). -/
def Platform.access (addr : Nat) (act : BitVec 6 → Input) (p : Platform) : Platform :=
  match blockAt addr p.cores.length with
  | none => p
  | some (k, off) =>
    { p with
      cores := p.cores.modify k fun s => s.withInputs (s.inputs ++ [act off])
      turns := p.turns ++ [k] }

end Sys2Proof.Machine
end

