-- ==== Sys2Proof/Safety.lean ====
section
/-! DEFINITION. The terms the statements use: the invariant of the machine, runs, and the encoder's contract. -/

namespace Sys2Proof.Machine

/-- The command's body is running: its argument checks have passed (R183). -/
def State.inBody (s : State) : Bool :=
  s.phase == .maskRun || s.phase == .decRun || s.phase == .decCopy || s.phase == .encRun

/-- COMPRESS's output so far leaves room for the rest (R152): `g` groups have been opened and the current one has `k`
tokens (between steps only the first can have none); every token so far has consumed at least one input byte and
produced no more bytes than it consumed. -/
def EncoderRoom (s : State) : Prop :=
  ∃ g k : Nat, s.bit.toNat = 2 ^ k ∧ k ≤ 8 ∧ 1 ≤ g ∧ (k = 0 → g = 1) ∧ 8 * (g - 1) + k ≤ s.srcPos.toNat ∧
    s.dstPos.toNat ≤ 8 + g + s.srcPos.toNat

/-- The working registers' ranges in each phase (R31 to R36). -/
def WorkingRanges (s : State) : Prop :=
  match s.phase with
  | .idle | .check | .done | .fault => True
  | .maskRun =>
    s.isMask = true ∧ s.offset.toNat ≤ s.srcPos.toNat ∧ s.srcPos.toNat ≤ s.srcLen.toNat ∧
      s.keyIdx.toNat = (s.srcPos.toNat - s.offset.toNat) % 256
  | .decRun =>
    s.isDecompress = true ∧ 8 ≤ s.srcPos.toNat ∧ s.srcPos.toNat ≤ s.srcLen.toNat ∧
      s.dstPos.toNat ≤ s.dstLen.toNat ∧
      (s.srcPos.toNat ≠ 8 → s.tokenDue = true → s.dstPos.toNat < s.dstLen.toNat)
  | .decCopy =>
    s.isDecompress = true ∧ 11 ≤ s.srcPos.toNat ∧ s.srcPos.toNat ≤ s.srcLen.toNat ∧
      s.dstPos.toNat ≤ s.dstLen.toNat ∧ s.copyFrom.toNat < s.dstPos.toNat ∧ s.bit.toNat ≤ 128
  | .encRun =>
    s.isCompress = true ∧ s.srcPos.toNat ≤ s.srcLen.toNat ∧ 8 ≤ s.flagPos.toNat ∧
      s.flagPos.toNat < s.dstPos.toNat ∧ EncoderRoom s

/-- The invariant of the machine. -/
structure Inv (s : State) : Prop where
  /-- Memory is in its canonical form. -/
  memory : s.mem.wf = true
  /-- STATUS.STATE is BUSY exactly in the BUSY phases, and IDLE, DONE, FAULT in theirs (R30, R228). -/
  statusFollowsPhase : s.status.state = s.phase.commandState
  /-- CODE and REASON are 0 unless STATE is FAULT, and not 0 then (R22, R182, R185). -/
  causeOnlyOnFault : s.status.cause.isSome = (s.phase == .fault)
  /-- The bit cursor is one-hot (R34). -/
  cursorOneHot : oneHot s.bit = true
  /-- `copy_left` is 0 to 17 (R36). -/
  copyLeftSmall : s.copyLeft.toNat ≤ 17
  /-- While BUSY the host has lent the command's own regions to it (R220). -/
  claimHeld : s.busy = true → s.claim = some (claimFor s.status.lastOp s)
  /-- Only a BUSY command can be tainted. -/
  taintedBusy : s.tainted = true → s.busy = true
  /-- In the body the argument checks hold (R183). -/
  checksHold : s.inBody = true → failedCheck s = none
  /-- The working registers are in range. -/
  ranges : WorkingRanges s

/-- `t` is reached from `s` by steps of the machine. -/
def Reaches (s t : State) : Prop := ∃ n, Host.Core.run Sys2Proof.core n s = .next t

/-- CORE is left alone: no host action is coming, and the buffer rule has been kept. -/
def State.alone (s : State) : Prop := s.inputs = [] ∧ s.tainted = false

/-- A command may be launched on ordinary memory (R74): no device range touches its regions. -/
def State.ordinary (s : State) (op : Byte) : Prop :=
  (claimFor op s).guarded.all (fun r => s.devices.all fun d => !r.overlaps d) = true

/-- The bytes of memory from `a` on are `bytes`. -/
def Memory.holds (m : Memory) (a : Nat) (bytes : List Byte) : Prop :=
  ∀ i, i < bytes.length → m.read (a + i) = bytes.getD i 0

/-- What a token list produces from the output so far, one byte at a time (R123, R127): the pure reading of the
tokens; `none` when a reference is out of bounds (R125). -/
def copyBytes (distance : Nat) : (length : Nat) → List Byte → List Byte
  | 0, out => out
  | n + 1, out => copyBytes distance n (out ++ [out.getD (out.length - distance) 0])

/-- The output of a token list after the output `out` (R123 to R127). -/
def expand : List Instr → List Byte → Option (List Byte)
  | [], out => some out
  | .lit b :: ts, out => expand ts (out ++ [b])
  | .ref d l :: ts, out =>
    if 1 ≤ d ∧ d ≤ out.length then expand ts (copyBytes d l out) else none
  | .flags _ :: _, _ => none
  | .mask :: _, _ => none
  | .decompress :: _, _ => none
  | .compress :: _, _ => none

/-- Every reference of the token list stays inside the window and inside the input of `n` bytes (R150 item 4);
`q` bytes have been produced before it. -/
def refsBounded (n : Nat) : (q : Nat) → List Instr → Prop
  | _, [] => True
  | q, .ref d l :: ts =>
    1 ≤ d ∧ d ≤ min q Config.distMax ∧ Config.lenMin ≤ l ∧ l ≤ min Config.lenMax (n - q) ∧ refsBounded n (q + l) ts
  | q, .lit _ :: ts => refsBounded n (q + 1) ts
  | _, .flags _ :: _ => False
  | _, .mask :: _ => False
  | _, .decompress :: _ => False
  | _, .compress :: _ => False

/-- `O` is a conforming output for the input `input` and the header bytes `header` (R150): the header (item 1), a
flag-byte and token sequence of literals and references with no trailing byte (items 2 and 3), references in bounds
(item 4), and tokens that stand for exactly the input (item 5's data). -/
def Conforming (header input output : List Byte) : Prop :=
  ∃ tokens : List Instr, (∀ t ∈ tokens, t.isToken = true) ∧ output = assemble header tokens ∧
    refsBounded input.length 0 tokens ∧ expand tokens [] = some input

end Sys2Proof.Machine
end

