-- ==== Sys2Proof/Certificates/Slice0/Obligations.lean ====
section
/-! DEFINITION. The statements for the provers. Each docstring names the rule it formalises, or says what of it is the
model's own choice. -/

open Sys2Proof Sys2Proof.Machine

/-! ## Encoding -/

/-- R84 to R86, R82, R83, R95: decoding an encoded well-formed instruction at its own place gives it back, and
leaves what follows it. -/
def Obligations.DecodeOfEncode : Prop :=
  ∀ (i : Instr) (rest : List Byte), i.wf = true → decode i.context (encode i ++ rest) = .ok (i, rest)

/-- R84 to R86: every two bytes are a reference with an encoding, and encoding it gives the same two bytes. -/
def Obligations.ReferenceBytesComeBack : Prop :=
  ∀ low high : Byte, ∃ d l : Nat,
    decode .reference [low, high] = .ok (.ref d l, []) ∧ (Instr.ref d l).wf = true ∧ encode (.ref d l) = [low, high]

/-- R84: where each field of a descriptor stands in its two bytes. -/
def Obligations.DescriptorFieldPlaces : Prop :=
  ∀ (low high : Byte) (rest : List Byte),
    decode .reference (low :: high :: rest) =
      .ok (.ref (16 * high.toNat + low.toNat / 16) (low.toNat % 16 + 2), rest)

/-- A few words written out from the spec's encodings (95_test_vectors.md V60, V61, V64, V65, V68; R82, R83, R95). -/
def Obligations.WordsWrittenOut : Prop :=
  decode .reference [0x12, 0x00] = .ok (.ref 1 4, []) ∧
  decode .reference [0x1F, 0x00] = .ok (.ref 1 17, []) ∧
  decode .reference [0xF0, 0xFF] = .ok (.ref 4095 2, []) ∧
  decode .reference [0xFF, 0xFF] = .ok (.ref 4095 17, []) ∧
  decode .reference [0x34, 0x12] = .ok (.ref 291 6, []) ∧
  decode .flagByte [0x17] = .ok (.flags 0x17, []) ∧
  decode .literal [0x41] = .ok (.lit 0x41, []) ∧
  decode .command (wordBytes 0x00000001) = .ok (.mask, []) ∧
  decode .command (wordBytes 0xABCDEF02) = .ok (.decompress, []) ∧
  decode .command (wordBytes 0x00000003) = .ok (.compress, [])

/-- R95: bits 7:0 of a CMD word select the command, bits 31:8 are ignored, and any other code, from a core that is
not BUSY, starts a command that faults with BAD_COMMAND. That the fault is the very next step, after a BUSY state, is the
model's reading (log entry 25) of R28, R182 and R183. -/
def Obligations.CommandCodeSelects : Prop :=
  (∀ w : Word, decode .command (wordBytes w) =
    if w.toNat % 256 = 1 then .ok (.mask, [])
    else if w.toNat % 256 = 2 then .ok (.decompress, [])
    else if w.toNat % 256 = 3 then .ok (.compress, [])
    else .error (.badCommand (BitVec.ofNat 8 w.toNat))) ∧
  (∀ (s : State) (w : Word), s.inputs = [.regWrite 0 .word w] → s.busy = false →
    w.toNat % 256 ≠ 1 → w.toNat % 256 ≠ 2 → w.toNat % 256 ≠ 3 →
    ∃ t u : State, step s = .next t ∧ t.busy = true ∧ step t = .next u ∧
      u.status = { state := .fault, cause := some (.invalidArgument .badCommand), lastOp := BitVec.ofNat 8 w.toNat } ∧
      u.srcPosReg = 0 ∧ u.dstPosReg = 0 ∧ u.mem = s.mem)

/-- R93: the size of a stream with `r` references among `t` tokens, the bound by what it decodes to, and that the
all-literal stream meets the bound. -/
def Obligations.StreamSize : Prop :=
  ∀ (header : List Byte) (ts : List Instr) (out : List Byte), header.length = 8 →
    (∀ t ∈ ts, t.isToken = true ∧ t.wf = true) → expand ts [] = some out →
    (assemble header ts).length =
        8 + max 1 ((ts.length + 7) / 8) + (ts.length + (ts.filter fun t => selector t = 0).length) ∧
      ts.length ≤ out.length ∧
      (assemble header ts).length ≤ 8 + out.length + max 1 ((out.length + 7) / 8) ∧
      ((∀ t ∈ ts, selector t = 1) →
        (assemble header ts).length = 8 + out.length + max 1 ((out.length + 7) / 8))

/-! ## Reset -/

/-- R48: the registers after reset, in `State.reset` and after the reset event; memory is kept when no command is
running (R211 says what a running one leaves). -/
def Obligations.ResetValues : Prop :=
  (State.reset.status = { state := .idle, cause := none, lastOp := 0 } ∧ State.reset.phase = .idle ∧
    (∀ r, readReg r State.reset = 0)) ∧
  ∀ (s : State) (rest : List Input), s.inputs = .reset :: rest →
    ∃ t : State, step s = .next t ∧ t.status = { state := .idle, cause := none, lastOp := 0 } ∧ t.phase = .idle ∧
      (∀ r, readReg r t = 0) ∧ (s.busy = false → t.mem = s.mem)

/-- R211: reset while BUSY abandons the command; outside its write region memory is unchanged, inside it each byte
is a free value (whatever the draw number is). The model's own choices: that in phase Check the bytes of both SRC and
DST, which R211 calls both unchanged and unspecified, are free values, that of a region that wraps only addresses below
2^32 become free values, and that a code that is no command has no write region (log entry 9); reset as an input (log
entries 2 and 9); and its entry in the history (log entry 22). -/
def Obligations.ResetAbandonsCommand : Prop :=
  ∀ (s : State) (rest : List Input), s.inputs = .reset :: rest → s.busy = true → s.mem.wf = true →
    s.claim = some (claimFor s.status.lastOp s) →
    ∃ (t : State) (n : Nat), step s = .next t ∧ t.status.state = .idle ∧ t.history = .reset :: s.history ∧
      (s.status.lastOp = 0x01 → ∀ a : Nat,
        t.mem.read a =
          if s.srcBase.toNat + s.offset.toNat ≤ a ∧
              a < s.srcBase.toNat + s.offset.toNat + (s.srcLen.toNat - s.offset.toNat) ∧ a < 4294967296
          then Config.drawByte s.stream n a else s.mem.read a) ∧
      (s.status.lastOp = 0x02 ∨ s.status.lastOp = 0x03 → ∀ a : Nat,
        t.mem.read a =
          if s.dstBase.toNat ≤ a ∧ a < s.dstBase.toNat + s.dstLen.toNat ∧ a < 4294967296
          then Config.drawByte s.stream n a else s.mem.read a) ∧
      (s.status.lastOp ≠ 0x01 → s.status.lastOp ≠ 0x02 → s.status.lastOp ≠ 0x03 →
        ∀ a : Nat, t.mem.read a = s.mem.read a)

/-! ## The register block -/

/-- R23 to R25: a host write sets a plain register to the written word and changes nothing else. That the working
registers stay as well, while no command runs, is the model's choice (log entry 31). -/
def Obligations.PlainRegistersAreWritten : Prop :=
  ∀ (s : State) (v : Word) (rest : List Input), s.busy = false →
    (s.inputs = .regWrite 0x08 .word v :: rest → step s = .next { s with inputs := rest, srcBase := v }) ∧
    (s.inputs = .regWrite 0x0C .word v :: rest → step s = .next { s with inputs := rest, srcLen := v }) ∧
    (s.inputs = .regWrite 0x10 .word v :: rest → step s = .next { s with inputs := rest, dstBase := v }) ∧
    (s.inputs = .regWrite 0x14 .word v :: rest → step s = .next { s with inputs := rest, dstLen := v }) ∧
    (s.inputs = .regWrite 0x18 .word v :: rest → step s = .next { s with inputs := rest, offset := v }) ∧
    (s.inputs = .regWrite 0x1C .word v :: rest → step s = .next { s with inputs := rest, hdrLo := v }) ∧
    (s.inputs = .regWrite 0x20 .word v :: rest → step s = .next { s with inputs := rest, hdrHi := v })

/-- R20, R22, R26: writes to STATUS, SRC_POS, DST_POS and the reserved offsets change nothing. For the working registers
of a core at rest that is the model's choice (log entry 31). -/
def Obligations.ReadOnlyIgnoresWrites : Prop :=
  ∀ (s : State) (off : BitVec 6) (v : Word) (rest : List Input), s.inputs = .regWrite off .word v :: rest →
    off.toNat % 4 = 0 → (off.toNat = 0x04 ∨ 0x24 ≤ off.toNat) → step s = .next { s with inputs := rest }

/-- R224: a register write while BUSY is dropped, CMD included. -/
def Obligations.WritesWhileBusyAreLost : Prop :=
  ∀ (s : State) (off : BitVec 6) (v : Word) (rest : List Input), s.inputs = .regWrite off .word v :: rest →
    off.toNat % 4 = 0 → s.busy = true → step s = .next { s with inputs := rest }

/-- R20 to R27: what a host read of each register gives, and that it changes no register and no byte of memory. -/
def Obligations.HostReadsRegisters : Prop :=
  ∀ (s : State) (off : BitVec 6) (rest : List Input), s.inputs = .regRead off .word :: rest →
    off.toNat % 4 = 0 → ¬ (s.busy = true ∧ (off.toNat = 0x24 ∨ off.toNat = 0x28)) →
    ∃ (t : State) (v : Word), step s = .next t ∧ t.history = .regRead off v :: s.history ∧
      v = (if off.toNat = 0x04 then s.status.word
        else if off.toNat = 0x08 then s.srcBase
        else if off.toNat = 0x0C then s.srcLen
        else if off.toNat = 0x10 then s.dstBase
        else if off.toNat = 0x14 then s.dstLen
        else if off.toNat = 0x18 then s.offset
        else if off.toNat = 0x1C then s.hdrLo
        else if off.toNat = 0x20 then s.hdrHi
        else if off.toNat = 0x24 then s.srcPosReg
        else if off.toNat = 0x28 then s.dstPosReg
        else 0) ∧
      (∀ r, readReg r t = readReg r s) ∧ t.phase = s.phase ∧ t.mem = s.mem ∧ t.draws = s.draws

/-- R26, R27: SRC_POS and DST_POS read while BUSY give a free value, and the read changes no register and no byte. -/
def Obligations.PositionsAreFreeWhileBusy : Prop :=
  ∀ (s : State) (off : BitVec 6) (rest : List Input), s.inputs = .regRead off .word :: rest → s.busy = true →
    (off.toNat = 0x24 ∨ off.toNat = 0x28) →
    step s = .next { s with
      inputs := rest
      history := .regRead off (Config.drawWord s.stream s.draws 0) :: s.history
      draws := s.draws + 1 }

/-- R20: an access to the register block that is no aligned 32-bit word is refused. That aligned is a matter of the offset
from CORE_BASE is the model's choice (log entry 33). -/
def Obligations.OtherAccessesAreRefused : Prop :=
  ∀ (s : State) (off : BitVec 6) (w : Width) (v : Word) (rest : List Input), (w ≠ .word ∨ off.toNat % 4 ≠ 0) →
    (s.inputs = .regWrite off w v :: rest ∨ s.inputs = .regRead off w :: rest) →
    step s = .refused (.hostAccess off w)

/-- R22: the fields of the STATUS word. -/
def Obligations.StatusWordFields : Prop :=
  ∀ t : Status,
    (t.word.extractLsb' 0 2).toNat =
        (match t.state with | .idle => 0 | .busy => 1 | .done => 2 | .fault => 3) ∧
      t.word.extractLsb' 2 2 = 0 ∧
      (t.word.extractLsb' 4 2).toNat =
        (match t.cause with | none => 0 | some (.invalidArgument _) => 1 | some (.corruptData _) => 2) ∧
      t.word.extractLsb' 6 2 = 0 ∧
      (t.word.extractLsb' 8 8).toNat = causeReason t.cause ∧
      t.word.extractLsb' 16 8 = t.lastOp ∧
      t.word.extractLsb' 24 8 = 0

/-- R181: the reason numbers, as the STATUS words of 95_test_vectors.md section 0. -/
def Obligations.StatusWordsOfOutcomes : Prop :=
  Status.word ⟨.done, none, 1⟩ = 0x00010002 ∧
  Status.word ⟨.done, none, 2⟩ = 0x00020002 ∧
  Status.word ⟨.done, none, 3⟩ = 0x00030002 ∧
  Status.word ⟨.fault, some (.invalidArgument .badCommand), 0⟩ = 0x00000113 ∧
  Status.word ⟨.fault, some (.invalidArgument .badCommand), 4⟩ = 0x00040113 ∧
  Status.word ⟨.fault, some (.invalidArgument .regionWrap), 1⟩ = 0x00010213 ∧
  Status.word ⟨.fault, some (.invalidArgument .offsetGtLen), 1⟩ = 0x00010313 ∧
  Status.word ⟨.fault, some (.invalidArgument .srcTooShort), 2⟩ = 0x00020413 ∧
  Status.word ⟨.fault, some (.invalidArgument .dstTooSmall), 3⟩ = 0x00030513 ∧
  Status.word ⟨.fault, some (.invalidArgument .overlap), 2⟩ = 0x00020613 ∧
  Status.word ⟨.fault, some (.corruptData .zeroDistance), 2⟩ = 0x00020123 ∧
  Status.word ⟨.fault, some (.corruptData .distanceBeyondOutput), 2⟩ = 0x00020223 ∧
  Status.word ⟨.fault, some (.corruptData .truncatedToken), 2⟩ = 0x00020323

/-- R189: the fault record (STATUS, SRC_POS, DST_POS) stays until the next CMD write, reset, or a broken ownership
rule (R220): every other host action, and CORE at rest, leaves it. -/
def Obligations.FaultRecordStays : Prop :=
  ∀ s t : State, Inv s → s.busy = false → step s = .next t →
    (∀ off v rest, s.inputs = .regWrite off .word v :: rest → off.toNat ≠ 0) →
    (∀ rest, s.inputs ≠ .reset :: rest) →
    (∀ a v rest, s.inputs = .memWrite a v :: rest → s.guards a.toNat = false) →
    t.status = s.status ∧ t.srcPosReg = s.srcPosReg ∧ t.dstPosReg = s.dstPosReg ∧ t.phase = s.phase

/-! ## Starting a command and its argument checks -/

/-- R28: a command write to a core that is not BUSY. MASK, DECOMPRESS and COMPRESS differ in LAST_OP and in what the
host lends to them (R220); the argument checks are the next step (log entries 25 and 8). That the working registers
keep the last command's values is the model's choice (log entry 31). -/
def Obligations.CommandsStart : Prop :=
  ∀ s : State, s.busy = false →
    exec .mask s = .next { s with
      status := { state := .busy, cause := none, lastOp := 0x01 }
      phase := .check, claim := some (claimFor 0x01 s), tainted := false } ∧
    exec .decompress s = .next { s with
      status := { state := .busy, cause := none, lastOp := 0x02 }
      phase := .check, claim := some (claimFor 0x02 s), tainted := false } ∧
    exec .compress s = .next { s with
      status := { state := .busy, cause := none, lastOp := 0x03 }
      phase := .check, claim := some (claimFor 0x03 s), tainted := false }

/-- R28, R27: what a command's start leaves unchanged: every register but STATUS, every working register but
`phase`, and every byte of memory. That it leaves the working registers is the model's choice: the spec leaves them
unspecified between commands (log entry 31). -/
def Obligations.CommandStartFrame : Prop :=
  ∀ (i : Instr) (s t : State), (i = .mask ∨ i = .decompress ∨ i = .compress) → exec i s = .next t →
    (∀ r, r ≠ .status → readReg r t = readReg r s) ∧
      t.srcPos = s.srcPos ∧ t.dstPos = s.dstPos ∧ t.flag = s.flag ∧ t.bit = s.bit ∧ t.keyIdx = s.keyIdx ∧
      t.copyFrom = s.copyFrom ∧ t.copyLeft = s.copyLeft ∧ t.tokStart = s.tokStart ∧ t.flagPos = s.flagPos ∧
      (∀ a : Nat, t.mem.read a = s.mem.read a) ∧ t.inputs = s.inputs ∧ t.history = s.history ∧
      t.draws = s.draws ∧ t.stream = s.stream ∧ t.devices = s.devices

/-- R183: the argument checks in their order, on unbounded integers. -/
def Obligations.ArgumentChecksInOrder : Prop :=
  ∀ s : State, s.phase = .check → s.inputs = [] →
    step s =
      if s.status.lastOp ≠ 0x01 ∧ s.status.lastOp ≠ 0x02 ∧ s.status.lastOp ≠ 0x03 then
        .next (raiseInvalid .badCommand s)
      else if 4294967296 < s.srcBase.toNat + s.srcLen.toNat then .next (raiseInvalid .regionWrap s)
      else if (s.status.lastOp = 0x02 ∨ s.status.lastOp = 0x03) ∧ 4294967296 < s.dstBase.toNat + s.dstLen.toNat then
        .next (raiseInvalid .regionWrap s)
      else if s.status.lastOp = 0x01 ∧ s.srcLen.toNat < s.offset.toNat then .next (raiseInvalid .offsetGtLen s)
      else if s.status.lastOp = 0x02 ∧ s.srcLen.toNat < 9 then .next (raiseInvalid .srcTooShort s)
      else if s.status.lastOp = 0x03 ∧
          s.dstLen.toNat < 8 + s.srcLen.toNat + max 1 ((s.srcLen.toNat + 7) / 8) then
        .next (raiseInvalid .dstTooSmall s)
      else if (s.status.lastOp = 0x02 ∨ s.status.lastOp = 0x03) ∧ s.srcLen.toNat ≠ 0 ∧ s.dstLen.toNat ≠ 0 ∧
          s.srcBase.toNat < s.dstBase.toNat + s.dstLen.toNat ∧ s.dstBase.toNat < s.srcBase.toNat + s.srcLen.toNat then
        .next (raiseInvalid .overlap s)
      else beginBody s

/-- R182: what raising InvalidArgument does: STATUS, both positions cleared, phase Fault, memory and every other
register unchanged. For the working registers that is the model's choice (log entry 31). -/
def Obligations.InvalidArgumentEffect : Prop :=
  ∀ (s : State) (r : InvalidReason), s.phase = .check → s.inputs = [] → s.tainted = false → failedCheck s = some r →
    step s = .next { s with
      status := { state := .fault, cause := some (.invalidArgument r), lastOp := s.status.lastOp }
      srcPosReg := 0
      dstPosReg := 0
      phase := .fault
      history := .ended s.status.lastOp (.fault (.invalidArgument r)) 0 0 :: s.history }

/-- R74: a command whose checks hold but whose region lies over addresses with no ordinary memory is refused, and
one on ordinary memory is not. -/
def Obligations.NonOrdinaryLaunchIsRefused : Prop :=
  ∀ s : State, s.phase = .check → s.inputs = [] → failedCheck s = none →
    (step s = .refused .nonOrdinaryMemory ↔ ¬ s.ordinary s.status.lastOp)

/-! ## The token instructions -/

/-- R122: FLAGS. -/
def Obligations.FlagsEffect : Prop :=
  ∀ (f : Byte) (s : State), exec (.flags f) s = .next { s with bit := 1, flag := f, srcPos := s.srcPos + 1 }

/-- R123: LIT, with a source byte left and room in a DST that does not wrap: the byte is written at `dst_pos`, both
positions move on, and nothing else changes. -/
def Obligations.LiteralEffect : Prop :=
  ∀ (b : Byte) (s : State), s.srcPos.toNat < s.srcLen.toNat → s.dstPos.toNat < s.dstLen.toNat →
    s.dstBase.toNat + s.dstLen.toNat ≤ 4294967296 →
    exec (.lit b) s = .next { s with
      mem := s.mem.write (s.dstBase.toNat + s.dstPos.toNat) b
      srcPos := s.srcPos + 1
      dstPos := s.dstPos + 1 }

/-- R123, R128, R185: LIT with no source byte left faults and writes nothing. That the working registers stay as they
are at the fault is the model's choice (log entry 31). -/
def Obligations.LiteralTruncated : Prop :=
  ∀ (b : Byte) (s : State), s.srcLen.toNat ≤ s.srcPos.toNat → s.tainted = false →
    exec (.lit b) s = .next { s with
      status := { state := .fault, cause := some (.corruptData .truncatedToken), lastOp := s.status.lastOp }
      srcPosReg := s.tokStart
      dstPosReg := s.dstPos
      phase := .fault
      history := .ended s.status.lastOp (.fault (.corruptData .truncatedToken)) s.tokStart s.dstPos :: s.history }

/-- R124: a valid reference consumes its descriptor and starts the copy at `dst_pos - distance`. -/
def Obligations.ReferenceEffect : Prop :=
  ∀ (d l : Nat) (s : State), (Instr.ref d l).wf = true → s.srcPos.toNat + 2 ≤ s.srcLen.toNat →
    1 ≤ d → d ≤ s.dstPos.toNat →
    ∃ t : State, exec (.ref d l) s = .next t ∧
      t = { s with srcPos := s.srcPos + 2, copyFrom := t.copyFrom, copyLeft := t.copyLeft, phase := .decCopy } ∧
      t.copyFrom.toNat = s.dstPos.toNat - d ∧ t.copyLeft.toNat = l

/-- R125, R184, R128: the three faults of a reference, in their order, for the result registers and memory. -/
def Obligations.ReferenceFaults : Prop :=
  ∀ (d l : Nat) (s : State), s.tainted = false →
    (s.srcLen.toNat < s.srcPos.toNat + 2 ∨ d = 0 ∨ s.dstPos.toNat < d) →
    ∃ (t : State) (r : CorruptReason), exec (.ref d l) s = .next t ∧
      r = (if s.srcLen.toNat < s.srcPos.toNat + 2 then .truncatedToken
        else if d = 0 then .zeroDistance else .distanceBeyondOutput) ∧
      t.status = { state := .fault, cause := some (.corruptData r), lastOp := s.status.lastOp } ∧ t.phase = .fault ∧
      t.srcPosReg = s.tokStart ∧ t.dstPosReg = s.dstPos ∧ t.mem = s.mem

/-- R122 to R124, R128: what the token instructions leave unchanged. LIT stores to the one address that
`bufferAddr` gives for DST offset `dst_pos`; FLAGS and REF store nothing. Where the token faults, that the working
registers stay as they are is the model's choice (log entry 31). -/
def Obligations.TokenFrame : Prop :=
  ∀ (i : Instr) (s t : State), i.context ≠ .command → s.tainted = false → exec i s = .next t →
    (t.srcBase = s.srcBase ∧ t.srcLen = s.srcLen ∧ t.dstBase = s.dstBase ∧ t.dstLen = s.dstLen ∧
      t.offset = s.offset ∧ t.hdrLo = s.hdrLo ∧ t.hdrHi = s.hdrHi ∧ t.status.lastOp = s.status.lastOp) ∧
    (t.keyIdx = s.keyIdx ∧ t.tokStart = s.tokStart ∧ t.flagPos = s.flagPos ∧ t.inputs = s.inputs ∧
      t.draws = s.draws ∧ t.stream = s.stream ∧ t.claim = s.claim ∧ t.devices = s.devices ∧ t.tainted = false) ∧
    (i.isToken = true → t.flag = s.flag ∧ t.bit = s.bit) ∧
    ((∀ d l, i ≠ .ref d l) → t.copyFrom = s.copyFrom ∧ t.copyLeft = s.copyLeft) ∧
    ((∀ b, i ≠ .lit b) → t.dstPos = s.dstPos) ∧
    (t.phase ≠ .fault → t.status = s.status ∧ t.srcPosReg = s.srcPosReg ∧ t.dstPosReg = s.dstPosReg ∧
      t.history = s.history) ∧
    (∀ a : Nat, ((∃ b, i = .lit b) → bufferAddr s.dstRegion s.dstPos.toNat ≠ .ok a) →
      t.mem.read a = s.mem.read a)

/-! ## One step -/

/-- A host write of CMD runs the decoded command (R21, R28, R95). -/
def Obligations.StepRunsCommandWord : Prop :=
  ∀ (s : State) (w : Word) (rest : List Input) (i : Instr), s.inputs = .regWrite 0 .word w :: rest →
    decode .command (wordBytes w) = .ok (i, []) → step s = exec i { s with inputs := rest }

/-- R121, R122: in phase DecRun, at offset 8, or at the top of an iteration with the cursor at 256, the source byte
at `src_pos` is decoded as a flag byte and run. -/
def Obligations.StepRunsFlagByte : Prop :=
  ∀ (s : State) (i : Instr), s.inputs = [] → s.phase = .decRun →
    (s.srcPos = 8 ∨ (s.bit = 256 ∧ s.dstPos.toNat < s.dstLen.toNat)) →
    s.srcPos.toNat < s.srcLen.toNat → s.srcBase.toNat + s.srcLen.toNat ≤ 4294967296 →
    decode .flagByte [s.mem.read (s.srcBase.toNat + s.srcPos.toNat)] = .ok (i, []) →
    step s = exec i s

/-- R120, R121: a token's step runs the instruction decoded at the place its selector bit gives, after
`tok_start <- src_pos`; afterwards the cursor is doubled, for a reference only once its copy is over (R127). The
iteration's guard holds, or its flag byte was just fetched. -/
def Obligations.StepRunsToken : Prop :=
  ∀ (s : State) (i : Instr) (c : DecodeContext), s.inputs = [] → s.phase = .decRun → s.srcPos ≠ 8 → s.bit ≠ 256 →
    ((s.srcPos.toNat < s.srcLen.toNat ∧ s.dstPos.toNat < s.dstLen.toNat) ∨ (s.bit = 1 ∧ s.srcPos ≠ 9)) →
    c = (if s.flag.setWidth 9 &&& s.bit = 0 then .reference else .literal) →
    s.srcPos.toNat + c.size ≤ s.srcLen.toNat → s.srcBase.toNat + s.srcLen.toNat ≤ 4294967296 →
    decode c ((List.range c.size).map fun k => s.mem.read (s.srcBase.toNat + s.srcPos.toNat + k)) = .ok (i, []) →
    step s = andThen (exec i { s with tokStart := s.srcPos })
      (fun t => .next (if t.phase = .decRun then { t with bit := t.bit <<< 1 } else t))

/-- R123, R124, R128: a token whose bytes extend past SRC_LEN faults at its first byte, before any DST access. -/
def Obligations.TruncatedTokenStep : Prop :=
  ∀ (s : State) (c : DecodeContext), s.inputs = [] → s.tainted = false → s.phase = .decRun → s.srcPos ≠ 8 →
    s.bit ≠ 256 →
    ((s.srcPos.toNat < s.srcLen.toNat ∧ s.dstPos.toNat < s.dstLen.toNat) ∨ (s.bit = 1 ∧ s.srcPos ≠ 9)) →
    c = (if s.flag.setWidth 9 &&& s.bit = 0 then .reference else .literal) →
    s.srcLen.toNat < s.srcPos.toNat + c.size →
    ∃ t : State, step s = .next t ∧
      t.status = { state := .fault, cause := some (.corruptData .truncatedToken), lastOp := s.status.lastOp } ∧
      t.phase = .fault ∧ t.srcPosReg = s.srcPos ∧ t.dstPosReg = s.dstPos ∧ t.mem = s.mem

/-- R129: the token loop's guard fails at the top of an iteration: the command ends DONE, whatever the cursor is, and
reports both positions. That the working registers keep their values is the model's choice (log entry 31). -/
def Obligations.DecompressEndsDone : Prop :=
  ∀ s : State, s.inputs = [] → s.tainted = false → s.phase = .decRun → s.srcPos ≠ 8 →
    ¬ (s.bit = 1 ∧ s.srcPos ≠ 9) → (s.srcLen.toNat ≤ s.srcPos.toNat ∨ s.dstLen.toNat ≤ s.dstPos.toNat) →
    step s = .next { s with
      status := { state := .done, cause := none, lastOp := s.status.lastOp }
      phase := .done
      srcPosReg := s.srcPos
      dstPosReg := s.dstPos
      history := .ended s.status.lastOp .done s.srcPos s.dstPos :: s.history }

/-- R111: MASK's byte step, and where `src_pos` and `key_idx` stand after `k` of them. -/
def Obligations.MaskByteStep : Prop :=
  ∀ s : State, s.inputs = [] → s.phase = .maskRun → s.srcBase.toNat + s.srcLen.toNat ≤ 4294967296 →
    (s.srcPos.toNat < s.srcLen.toNat →
      step s = .next { s with
        mem := s.mem.write (s.srcBase.toNat + s.srcPos.toNat)
          (s.mem.read (s.srcBase.toNat + s.srcPos.toNat) ^^^ keyByte s.keyIdx)
        keyIdx := BitVec.ofNat 8 (s.keyIdx.toNat + 1)
        srcPos := BitVec.ofNat 32 (s.srcPos.toNat + 1) }) ∧
    (∀ k : Nat, s.srcPos = s.offset → s.keyIdx = 0 → s.offset.toNat + k ≤ s.srcLen.toNat →
      ∃ t : State, Host.Core.run Sys2Proof.core k s = .next t ∧ t.srcPos.toNat = s.offset.toNat + k ∧
        t.keyIdx.toNat = k % 256)

/-- R41: the four key bytes the source fixes. -/
def Obligations.KeyBytesGiven : Prop :=
  keyByte 0 = 0x8B ∧ keyByte 1 = 0xE5 ∧ keyByte 2 = 0x5D ∧ keyByte 3 = 0xC3

/-- R127: one byte of a copy, read after every earlier byte of it was written; and the copy's end, when nothing is
left or DST is full: what is left is discarded and the cursor is doubled. -/
def Obligations.CopyByteStep : Prop :=
  ∀ s : State, s.inputs = [] → s.phase = .decCopy → s.dstBase.toNat + s.dstLen.toNat ≤ 4294967296 →
    s.copyFrom.toNat < s.dstPos.toNat →
    (s.copyLeft.toNat ≠ 0 → s.dstPos.toNat < s.dstLen.toNat →
      step s = .next { s with
        mem := s.mem.write (s.dstBase.toNat + s.dstPos.toNat) (s.mem.read (s.dstBase.toNat + s.copyFrom.toNat))
        copyFrom := s.copyFrom + 1
        dstPos := s.dstPos + 1
        copyLeft := s.copyLeft - 1 }) ∧
    ((s.copyLeft.toNat = 0 ∨ s.dstLen.toNat ≤ s.dstPos.toNat) →
      step s = .next { s with copyLeft := 0, phase := .decRun, bit := s.bit <<< 1 })

/-- R155, R157: COMPRESS's token step: a reference for a best match of length at least 2, else a literal with its
selector bit set; when the group is full, its flag byte is stored and a new group is opened before that. -/
def Obligations.EncodeTokenStep : Prop :=
  ∀ (s : State) (l d : Nat), s.inputs = [] → s.phase = .encRun → s.srcPos.toNat < s.srcLen.toNat →
    s.srcBase.toNat + s.srcLen.toNat ≤ 4294967296 → s.dstBase.toNat + s.dstLen.toNat ≤ 4294967296 →
    s.dstPos.toNat + 2 ≤ s.dstLen.toNat → s.flagPos.toNat < s.dstPos.toNat →
    (l, d) = bestMatch s.srcByte s.srcLen.toNat s.srcPos.toNat →
    (s.bit = 256 → step s = step { s with
      mem := s.mem.write (s.dstBase.toNat + s.flagPos.toNat) s.flag
      flagPos := s.dstPos
      flag := 0
      bit := 1
      dstPos := s.dstPos + 1 }) ∧
    (s.bit ≠ 256 → 2 ≤ l → step s = .next { s with
      mem := (s.mem.write (s.dstBase.toNat + s.dstPos.toNat) (BitVec.ofNat 8 (16 * d + (l - 2)))).write
        (s.dstBase.toNat + s.dstPos.toNat + 1) (BitVec.ofNat 8 (d / 16))
      dstPos := s.dstPos + 2
      srcPos := BitVec.ofNat 32 (s.srcPos.toNat + l)
      bit := s.bit <<< 1 }) ∧
    (s.bit ≠ 256 → l < 2 → step s = .next { s with
      mem := s.mem.write (s.dstBase.toNat + s.dstPos.toNat) (s.mem.read (s.srcBase.toNat + s.srcPos.toNat))
      flag := s.flag ||| s.bit.setWidth 8
      dstPos := s.dstPos + 1
      srcPos := s.srcPos + 1
      bit := s.bit <<< 1 })

/-- R156: `BestMatch` returns a match (or length and distance 0), no allowed match is longer, and of those as long
none is nearer. -/
def Obligations.BestMatchIsLongestThenNearest : Prop :=
  ∀ (src : Nat → Byte) (n p l d : Nat), (l, d) = bestMatch src n p →
    (l ≠ 0 → 1 ≤ d ∧ d ≤ min p 4095) ∧ (l = 0 → d = 0) ∧ l ≤ min 17 (n - p) ∧ (∀ j < l, src (p + j) = src (p - d + j)) ∧
    (∀ d' l', 1 ≤ d' → d' ≤ min p 4095 → l' ≤ min 17 (n - p) → (∀ j < l', src (p + j) = src (p - d' + j)) →
      l' ≤ l ∧ (l' = l → l ≠ 0 → d ≤ d'))

/-- R60, R199: a core that is not BUSY makes no move of its own. That the working registers hold still with it is the
model's choice (log entry 31). -/
def Obligations.RestIsStill : Prop :=
  ∀ s : State, Inv s → s.inputs = [] → s.busy = false → step s = .next s

/-! ## Buffer ownership -/

/-- R220: a host store into a guarded buffer while BUSY lands, and the command will end with free values. -/
def Obligations.HostStoreTaints : Prop :=
  ∀ (s : State) (a : Word) (v : Byte) (rest : List Input), s.inputs = .memWrite a v :: rest → s.busy = true →
    s.guards a.toNat = true → s.deviceAt a.toNat = false →
    step s = .next { s with inputs := rest, mem := s.mem.write a.toNat v, tainted := true }

/-- R220: when a tainted command ends, each byte of its write region, both result registers and the outcome are free
values (whatever the draw number is); every other byte and register is as it was. That LAST_OP and the other bytes are
kept, and that the outcome is one of the ways a command can end, is the model's choice (log entries 8 and 23). -/
def Obligations.TaintedEndIsFree : Prop :=
  ∀ (s : State) (how : Ending) (p q : Word) (c : Claim), s.tainted = true → s.claim = some c → s.mem.wf = true →
    ∃ n : Nat,
      (conclude how p q s).srcPosReg = Config.drawWord s.stream n 0 ∧
      (conclude how p q s).dstPosReg = Config.drawWord s.stream n 1 ∧
      (conclude how p q s).status =
        { state := Ending.commandState (Config.drawEnding s.stream n),
          cause := Ending.cause (Config.drawEnding s.stream n), lastOp := s.status.lastOp } ∧
      (∀ a : Nat, (conclude how p q s).mem.read a =
        if c.writes.base ≤ a ∧ a < c.writes.base + c.writes.len ∧ a < 4294967296 then Config.drawByte s.stream n a
        else s.mem.read a) ∧
      (∀ r, r ≠ .status → r ≠ .srcPos → r ≠ .dstPos → readReg r (conclude how p q s) = readReg r s)

/-- R220: a host load of a hidden byte gives a free value, and the command is unaffected. That the working registers of
a core at rest stay is the model's choice (log entry 31). -/
def Obligations.HiddenLoadIsFree : Prop :=
  ∀ (s : State) (a : Word) (rest : List Input), s.inputs = .memRead a :: rest → s.deviceAt a.toNat = false →
    step s = .next (if s.hides a.toNat then
      { s with
        inputs := rest
        history := .memRead a (Config.drawByte s.stream s.draws a.toNat) :: s.history
        draws := s.draws + 1 }
    else { s with inputs := rest, history := .memRead a (s.mem.read a.toNat) :: s.history })

/-- R220, R69: the buffers are the host's again once it has read STATUS as DONE or FAULT, and not while BUSY. That the
working registers of a core at rest stay is the model's choice (log entry 31). -/
def Obligations.StatusReadReleases : Prop :=
  ∀ (s : State) (rest : List Input), s.inputs = .regRead 0x04 .word :: rest →
    ∃ t : State, step s = .next t ∧
      t.claim = (if s.status.state = .done ∨ s.status.state = .fault then none else s.claim) ∧
      t = { s with inputs := rest, claim := t.claim, history := .regRead 0x04 s.status.word :: s.history }

/-! ## Several cores -/

/-- R73, R197: a core's move leaves every other core's registers and working state alone, and what it leaves in the
shared memory is what its own step left, when neither its command nor another BUSY core's writes a byte the other
accesses (which bytes count is the model's choice, log entry 30) and the host's store breaks no claim. A core's free
values are a stream of its own, by its number (log entry 29). The model's choices are also that a core which is not BUSY
after its move marks no other (log entry 32), and that the working registers of cores at rest stay (log entry 31). -/
def Obligations.CoresDoNotInterfere : Prop :=
  ∀ (p q : Platform) (k : Nat) (rest : List Nat) (s t : State), p.turns = k :: rest → p.coreAt k = some s →
    step s = .next t →
    (∀ a ys, s.inputs = .memRead a :: ys →
      ∀ (j : Nat) (u : State), p.cores[j]? = some u → j ≠ k → u.hides a.toNat = false) →
    (∀ a v ys, s.inputs = .memWrite a v :: ys →
      ∀ (j : Nat) (u : State), p.cores[j]? = some u → j ≠ k → u.guards a.toNat = false) →
    (∀ (j : Nat) (u : State), p.cores[j]? = some u → j ≠ k → t.conflictsWith u = false) →
    p.step = .next q →
    q.mem = t.mem ∧ q.turns = rest ∧ q.coreAt k = some t ∧
      ∀ j : Nat, j ≠ k → q.coreAt j = (p.cores[j]?).map fun u => { u with mem := t.mem, stream := j }

/-- R221: when a core's move leaves it BUSY with a command that writes a byte another BUSY core's accesses, or the
other way round, and neither command fails its argument checks, both will end with free values, each from its own
core's stream. Which bytes count is the model's choice (log entry 30), as the moment and the streams are (log entries
8, 18 and 29). -/
def Obligations.ConflictingCoresTaint : Prop :=
  ∀ (p : Platform) (k j : Nat) (rest : List Nat) (s t u : State), p.turns = k :: rest → p.coreAt k = some s →
    s.inputs = [] → step s = .next t → p.cores[j]? = some u → j ≠ k → t.conflictsWith u = true →
    ∃ (q : Platform) (t' u' : State), p.step = .next q ∧ q.cores[k]? = some t' ∧ q.cores[j]? = some u' ∧
      t'.tainted = true ∧ u'.tainted = true ∧ t'.stream = k ∧ u'.stream = j

/-! ## Invariants of every step -/

/-- The invariant holds after reset; the ranges of the cursor and `copy_left` hold by the values the model gives the
working registers then (log entry 4). -/
def Obligations.ResetMeetsInv : Prop := Inv State.reset

/-- Every step keeps the invariant: memory's canonical form, STATUS and `phase` agree (R30), CODE and REASON only on
a fault (R22), the one-hot cursor (R34), and the ranges of the working registers (R31 to R36); with no command's body
running, the cursor and `copy_left` stay in range by the model's choices (log entries 4 and 31), and a marked command
ends in one of the ways a command can end by another (log entry 23). -/
def Obligations.StepKeepsInv : Prop :=
  ∀ s t : State, Inv s → step s = .next t → Inv t

/-- From a state that meets the invariant no step stops with one of the model's faults. Those stand for an access
primitive of R10 used outside its buffer or the address space (R45, R65); COMPRESS's match search reads SRC without
that check (log entry 12). -/
def Obligations.StepNeverFaults : Prop :=
  ∀ (s : State) (f : Fault), Inv s → step s ≠ .fault f

/-- R64, R113, R152: CORE's own step changes no byte outside its command's write region: the masked range for MASK,
DST for DECOMPRESS and COMPRESS; a core at rest changes none. For a marked command that is the model's choice (log
entry 8). -/
def Obligations.WritesStayInRegion : Prop :=
  ∀ (s t : State) (a : Nat), Inv s → s.inputs = [] → step s = .next t →
    t.mem.read a ≠ s.mem.read a → s.busy = true ∧ (claimFor s.status.lastOp s).writes.contains a = true

/-- R190: when a step ends a command, its outcome is the newest entry of the history, with the SRC_POS and DST_POS
that stand in the registers, and LAST_OP is the command's. The history is the model's (log entry 22). For a marked
command the model's choices are that it ends by its own steps (log entry 8), that its outcome is one of the ways a
command can end, and that LAST_OP is kept (log entry 23). -/
def Obligations.OutcomeIsRecorded : Prop :=
  ∀ s t : State, Inv s → s.busy = true → (∀ rest, s.inputs ≠ .reset :: rest) → step s = .next t → t.busy = false →
    ∃ how : Ending, t.history = .ended s.status.lastOp how t.srcPosReg t.dstPosReg :: s.history ∧
      t.status = { state := Ending.commandState how, cause := Ending.cause how, lastOp := s.status.lastOp }

/-! ## Whole commands -/

/-- R114: MASK, from its CMD write to its end, on ordinary memory: the closed form when the arguments are legal, and
memory unchanged when it ends with InvalidArgument. -/
def Obligations.MaskClosedForm : Prop :=
  ∀ s : State, s.inputs = [] → s.busy = false → s.mem.wf = true → s.ordinary 0x01 →
    ∃ t u : State, exec .mask s = .next t ∧ Reaches t u ∧
      (s.srcBase.toNat + s.srcLen.toNat ≤ 4294967296 ∧ s.offset.toNat ≤ s.srcLen.toNat →
        u.status = { state := .done, cause := none, lastOp := 0x01 } ∧ u.srcPosReg = s.srcLen ∧ u.dstPosReg = 0 ∧
        (∀ i < s.srcLen.toNat, u.mem.read (s.srcBase.toNat + i) =
          if i < s.offset.toNat then s.mem.read (s.srcBase.toNat + i)
          else s.mem.read (s.srcBase.toNat + i) ^^^ keyByte (BitVec.ofNat 8 ((i - s.offset.toNat) % 256))) ∧
        (∀ a : Nat, ¬ (s.srcBase.toNat ≤ a ∧ a < s.srcBase.toNat + s.srcLen.toNat) →
          u.mem.read a = s.mem.read a)) ∧
      (4294967296 < s.srcBase.toNat + s.srcLen.toNat ∨ s.srcLen.toNat < s.offset.toNat →
        u.status.state = .fault ∧ ∀ a : Nat, u.mem.read a = s.mem.read a)

/-- R112: MASK run twice with the same registers gives the memory back, as equal data; and for every byte and every
key byte, XOR is its own inverse. -/
def Obligations.MaskTwiceRestores : Prop :=
  (∀ b k : Byte, (b ^^^ k) ^^^ k = b) ∧
  ∀ s : State, s.inputs = [] → s.busy = false → s.mem.wf = true →
    s.srcBase.toNat + s.srcLen.toNat ≤ 4294967296 → s.offset.toNat ≤ s.srcLen.toNat → s.ordinary 0x01 →
    ∃ t u v w : State, exec .mask s = .next t ∧ Reaches t u ∧ u.status.state = .done ∧
      exec .mask u = .next v ∧ Reaches v w ∧ w.status.state = .done ∧ w.mem = s.mem

/-- R124, R127, R134: a valid reference with its whole copy: each copied byte is the one `k mod distance` after the
copy's start, as it was before the token; a copy that meets the end of DST stops there (R127, decision D8);
every other byte of memory is unchanged, and the cursor is doubled. -/
def Obligations.ReferenceCopies : Prop :=
  ∀ (d l n : Nat) (s : State), (Instr.ref d l).wf = true → s.inputs = [] → s.mem.wf = true →
    s.srcPos.toNat + 2 ≤ s.srcLen.toNat → s.dstBase.toNat + s.dstLen.toNat ≤ 4294967296 →
    1 ≤ d → d ≤ s.dstPos.toNat → s.dstPos.toNat ≤ s.dstLen.toNat →
    n = min l (s.dstLen.toNat - s.dstPos.toNat) →
    ∃ t u : State, exec (.ref d l) s = .next t ∧ Host.Core.run Sys2Proof.core (n + 1) t = .next u ∧
      u.phase = .decRun ∧ u.dstPos.toNat = s.dstPos.toNat + n ∧ u.srcPos = s.srcPos + 2 ∧ u.bit = s.bit <<< 1 ∧
      u.flag = s.flag ∧ u.status = s.status ∧
      (∀ k < n, u.mem.read (s.dstBase.toNat + s.dstPos.toNat + k) =
        s.mem.read (s.dstBase.toNat + (s.dstPos.toNat - d) + k % d)) ∧
      (∀ a : Nat, ¬ (s.dstBase.toNat + s.dstPos.toNat ≤ a ∧ a < s.dstBase.toNat + s.dstPos.toNat + n) →
        u.mem.read a = s.mem.read a)

/-- R120 to R127, R150 item 5: DECOMPRESS of an assembled stream gives what its tokens stand for, consumes it all,
and changes no byte outside DST. -/
def Obligations.DecompressExpandsTokens : Prop :=
  ∀ (s : State) (header : List Byte) (ts : List Instr) (out : List Byte),
    s.inputs = [] → s.busy = false → s.mem.wf = true → s.ordinary 0x02 →
    header.length = 8 → (∀ t ∈ ts, t.isToken = true ∧ t.wf = true) → expand ts [] = some out →
    s.srcLen.toNat = (assemble header ts).length → s.dstLen.toNat = out.length →
    s.srcBase.toNat + s.srcLen.toNat ≤ 4294967296 → s.dstBase.toNat + s.dstLen.toNat ≤ 4294967296 →
    s.srcRegion.overlaps s.dstRegion = false →
    s.mem.holds s.srcBase.toNat (assemble header ts) →
    ∃ t u : State, exec .decompress s = .next t ∧ Reaches t u ∧
      u.status = { state := .done, cause := none, lastOp := 0x02 } ∧ u.srcPosReg = s.srcLen ∧
      u.dstPosReg = s.dstLen ∧ u.mem.holds s.dstBase.toNat out ∧
      (∀ a : Nat, ¬ (s.dstBase.toNat ≤ a ∧ a < s.dstBase.toNat + s.dstLen.toNat) → u.mem.read a = s.mem.read a)

/-- R132: a literal-only stream decodes to its literals. -/
def Obligations.LiteralOnlyStream : Prop :=
  ∀ (s : State) (header lits : List Byte), s.inputs = [] → s.busy = false → s.mem.wf = true → s.ordinary 0x02 →
    header.length = 8 → lits ≠ [] →
    s.srcLen.toNat = (assemble header (lits.map .lit)).length → s.dstLen.toNat = lits.length →
    s.srcBase.toNat + s.srcLen.toNat ≤ 4294967296 → s.dstBase.toNat + s.dstLen.toNat ≤ 4294967296 →
    s.srcRegion.overlaps s.dstRegion = false →
    s.mem.holds s.srcBase.toNat (assemble header (lits.map .lit)) →
    ∃ t u : State, exec .decompress s = .next t ∧ Reaches t u ∧
      u.status = { state := .done, cause := none, lastOp := 0x02 } ∧ u.srcPosReg = s.srcLen ∧
      u.dstPosReg = s.dstLen ∧ u.mem.holds s.dstBase.toNat lits

/-- R155, R150, R152, R160, R161: COMPRESS, from its CMD write to its end, on legal arguments and ordinary memory,
leaves a conforming output at DST, reports its length, and changes no byte beyond it. -/
def Obligations.CompressConforms : Prop :=
  ∀ (s : State) (input : List Byte), s.inputs = [] → s.busy = false → s.mem.wf = true → s.ordinary 0x03 →
    s.srcBase.toNat + s.srcLen.toNat ≤ 4294967296 → s.dstBase.toNat + s.dstLen.toNat ≤ 4294967296 →
    8 + s.srcLen.toNat + max 1 ((s.srcLen.toNat + 7) / 8) ≤ s.dstLen.toNat →
    s.srcRegion.overlaps s.dstRegion = false →
    input.length = s.srcLen.toNat → s.mem.holds s.srcBase.toNat input →
    ∃ (t u : State) (output : List Byte), exec .compress s = .next t ∧ Reaches t u ∧
      u.status = { state := .done, cause := none, lastOp := 0x03 } ∧ u.srcPosReg = s.srcLen ∧
      u.dstPosReg.toNat = output.length ∧
      output.length ≤ 8 + s.srcLen.toNat + max 1 ((s.srcLen.toNat + 7) / 8) ∧
      Conforming s.headerBytes input output ∧ u.mem.holds s.dstBase.toNat output ∧
      (∀ a : Nat, ¬ (s.dstBase.toNat ≤ a ∧ a < s.dstBase.toNat + output.length) → u.mem.read a = s.mem.read a)

/-- R151: COMPRESS's output is conforming, and DECOMPRESS turns it back into the input: `s` compresses, and any state
`v` whose SRC is the output it left, with exactly the input's length to fill, decodes it. -/
def Obligations.RoundTrip : Prop :=
  ∀ (s : State) (input : List Byte), s.inputs = [] → s.busy = false → s.mem.wf = true → s.ordinary 0x03 →
    s.srcBase.toNat + s.srcLen.toNat ≤ 4294967296 → s.dstBase.toNat + s.dstLen.toNat ≤ 4294967296 →
    8 + s.srcLen.toNat + max 1 ((s.srcLen.toNat + 7) / 8) ≤ s.dstLen.toNat →
    s.srcRegion.overlaps s.dstRegion = false →
    input.length = s.srcLen.toNat → s.mem.holds s.srcBase.toNat input →
    ∃ (t u : State) (output : List Byte), exec .compress s = .next t ∧ Reaches t u ∧ u.status.state = .done ∧
      Conforming s.headerBytes input output ∧ u.dstPosReg.toNat = output.length ∧
      u.mem.holds s.dstBase.toNat output ∧
      ∀ v : State, v.inputs = [] → v.busy = false → v.mem = u.mem → v.ordinary 0x02 →
        v.srcBase = s.dstBase → v.srcLen = u.dstPosReg → v.dstLen = s.srcLen →
        v.dstBase.toNat + v.dstLen.toNat ≤ 4294967296 → v.srcRegion.overlaps v.dstRegion = false →
        ∃ x y : State, exec .decompress v = .next x ∧ Reaches x y ∧
          y.status = { state := .done, cause := none, lastOp := 0x02 } ∧ y.srcPosReg = v.srcLen ∧
          y.dstPosReg = v.dstLen ∧ y.mem.holds v.dstBase.toNat input

/-- R227: left alone on ordinary memory, a BUSY core ends its command. That a marked one ends by its own steps, with
DONE or FAULT, is the model's choice (log entries 8 and 23). -/
def Obligations.EveryCommandEnds : Prop :=
  ∀ s : State, Inv s → s.inputs = [] → s.busy = true → s.ordinary s.status.lastOp →
    ∃ t : State, Reaches s t ∧ t.busy = false

/-- R130: the decoder's step does not depend on the header bytes, OFFSET, HDR_LO or HDR_HI: two states that differ
only there take steps whose results differ only there. -/
def Obligations.DecoderIgnoresHeader : Prop :=
  ∀ (s t : State) (m : Memory) (o h h' : Word), Inv s → s.inputs = [] → s.tainted = false →
    (s.phase = .decRun ∨ s.phase = .decCopy) → m.wf = true →
    (∀ a : Nat, ¬ (s.srcBase.toNat ≤ a ∧ a < s.srcBase.toNat + 8) → m.read a = s.mem.read a) →
    step s = .next t →
    ∃ m' : Memory, step { s with offset := o, hdrLo := h, hdrHi := h', mem := m } =
        .next { t with offset := o, hdrLo := h, hdrHi := h', mem := m' } ∧
      ∀ a : Nat, ¬ (s.srcBase.toNat ≤ a ∧ a < s.srcBase.toNat + 8) → m'.read a = t.mem.read a

/-! ## Memory -/

/-- R68, R74: a read sees the last write to its address, a write changes only its byte, and the canonical form is
kept, so that memories that read the same are equal data. -/
def Obligations.MemoryLaws : Prop :=
  ∀ m : Memory, m.wf = true →
    (∀ (a b : Nat) (v : Byte), (m.write a v).read b = if b = a then v else m.read b) ∧
    (∀ (a : Nat) (v : Byte), a < 4294967296 → (m.write a v).wf = true) ∧
    (∀ m' : Memory, m'.wf = true → (∀ a : Nat, m'.read a = m.read a) → m' = m)
end

