-- ==== Sys2Proof/Laws/Decode.lean ====
section
/-! SUPPORT. The descriptor's fields as arithmetic, the bytes of a reference, and a command word's decoding. -/

namespace Sys2Proof

theorem descriptor_toNat (low high : Byte) : (descriptor low high).toNat = 256 * high.toNat + low.toNat := by
  have h1 := low.isLt
  have h2 := high.isLt
  unfold descriptor
  simp only [BitVec.toNat_or, BitVec.toNat_setWidth, BitVec.toNat_shiftLeft]
  rw [Nat.mod_eq_of_lt (show low.toNat < 2 ^ 16 by omega), Nat.mod_eq_of_lt (show high.toNat < 2 ^ 16 by omega),
    Nat.mod_eq_of_lt (show high.toNat <<< 8 < 2 ^ 16 by rw [Nat.shiftLeft_eq]; omega),
    Nat.or_comm, ← Nat.shiftLeft_add_eq_or_of_lt (by omega), Nat.shiftLeft_eq]
  omega

/-- `distance = d[15:4]` as arithmetic on the two bytes (R84). -/
theorem descriptorDistance_descriptor (low high : Byte) :
    descriptorDistance (descriptor low high) = 16 * high.toNat + low.toNat / 16 := by
  have h1 := low.isLt
  have h2 := high.isLt
  unfold descriptorDistance
  rw [BitVec.extractLsb'_toNat, descriptor_toNat, Nat.shiftRight_eq_div_pow]
  omega

/-- `length = d[3:0] + 2` as arithmetic on the two bytes (R84). -/
theorem descriptorLength_descriptor (low high : Byte) :
    descriptorLength (descriptor low high) = low.toNat % 16 + 2 := by
  unfold descriptorLength Config.lenMin
  rw [BitVec.extractLsb'_toNat, descriptor_toNat, Nat.shiftRight_eq_div_pow]
  omega

/-- `d = (D << 4) OR (L - 2)` as arithmetic (R86). -/
theorem encodeDescriptor_eq {d l : Nat} (h : l - 2 < 16) : encodeDescriptor d l = 16 * d + (l - 2) := by
  unfold encodeDescriptor Config.lenMin
  rw [← Nat.shiftLeft_add_eq_or_of_lt (by omega), Nat.shiftLeft_eq]
  omega

/-- The two bytes of a reference (R86). -/
theorem encode_ref {d l : Nat} (h : l - 2 < 16) :
    encode (.ref d l) = [BitVec.ofNat 8 (16 * d + (l - 2)), BitVec.ofNat 8 (d / 16)] := by
  simp only [encode, littleEndian, encodeDescriptor_eq h]
  rw [show (16 * d + (l - 2)) / 256 = d / 16 by omega]

theorem wf_ref {d l : Nat} : (Instr.ref d l).wf = true ↔ d ≤ 4095 ∧ 2 ≤ l ∧ l ≤ 17 := by
  simp [Instr.wf, Instr.distanceFits, Instr.lengthFits]

theorem length_littleEndian (n w : Nat) : (littleEndian n w).length = n := by
  induction n generalizing w with
  | zero => rfl
  | succ n ih => simp [littleEndian, ih]

/-- Reading the two bytes back. -/
theorem decode_reference (low high : Byte) (rest : List Byte) :
    decode .reference (low :: high :: rest) =
      .ok (.ref (16 * high.toNat + low.toNat / 16) (low.toNat % 16 + 2), rest) := by
  simp only [decode, descriptorDistance_descriptor, descriptorLength_descriptor]

/-- The two bytes of a well-formed reference name it. -/
theorem reference_of_bytes {d l : Nat} (h : (Instr.ref d l).wf = true) :
    16 * (BitVec.ofNat 8 (d / 16)).toNat + (BitVec.ofNat 8 (16 * d + (l - 2))).toNat / 16 = d ∧
      (BitVec.ofNat 8 (16 * d + (l - 2))).toNat % 16 + 2 = l := by
  rw [wf_ref] at h
  rw [BitVec.toNat_ofNat, BitVec.toNat_ofNat]
  omega

/-- A decoded reference is well formed. -/
theorem decode_reference_wf {low high : Byte} {rest : List Byte} {d l : Nat} {r : List Byte}
    (h : decode .reference (low :: high :: rest) = .ok (.ref d l, r)) : (Instr.ref d l).wf = true := by
  rw [decode_reference] at h
  injection h with h
  injection h with h _
  injection h with h1 h2
  have := low.isLt
  have := high.isLt
  rw [wf_ref]
  omega

theorem ofNat8_eq_iff (n k : Nat) (hk : k < 256) : BitVec.ofNat 8 n = BitVec.ofNat 8 k ↔ n % 256 = k := by
  rw [← BitVec.toNat_inj, BitVec.toNat_ofNat, BitVec.toNat_ofNat]
  omega

/-- What a CMD word decodes to: one of the three commands, or a bad code (R95). -/
theorem decode_command_cases (w : Word) :
    decode .command (wordBytes w) = .ok (.mask, []) ∨ decode .command (wordBytes w) = .ok (.decompress, []) ∨
      decode .command (wordBytes w) = .ok (.compress, []) ∨
      ∃ op, decode .command (wordBytes w) = .error (.badCommand op) := by
  simp only [wordBytes, littleEndian, decode, decodeOp]
  split_ifs <;> simp

end Sys2Proof
end

