-- ==== Sys2Proof/Laws/Memory.lean ====
section
/-! SUPPORT. The laws of memory: a read after a write, the canonical form, and that canonical memories with the same
reads are equal. -/

namespace Sys2Proof.Machine

theorem Memory.canonicalFrom_mono {m : Memory} {lo lo' : Nat} (h : lo' ≤ lo) :
    m.canonicalFrom lo = true → m.canonicalFrom lo' = true := by
  cases m with
  | nil => simp [Memory.canonicalFrom]
  | cons c m =>
    simp only [Memory.canonicalFrom, Bool.and_eq_true, decide_eq_true_eq]
    rintro ⟨⟨⟨h1, h2⟩, h3⟩, h4⟩
    exact ⟨⟨⟨by omega, h2⟩, h3⟩, h4⟩

/-- Below the first address of a canonical list every byte is unlisted. -/
theorem Memory.read_below {m : Memory} {lo x : Nat} (h : m.canonicalFrom lo = true) (hx : x < lo) :
    m.read x = Memory.unlisted := by
  induction m generalizing lo with
  | nil => rfl
  | cons c m ih =>
    simp only [Memory.canonicalFrom, Bool.and_eq_true, decide_eq_true_eq] at h
    obtain ⟨⟨⟨h1, -⟩, -⟩, h4⟩ := h
    simp only [Memory.read]
    rw [if_neg (by omega)]
    exact ih h4 (by omega)

/-- A read elsewhere than a write sees what was there, whatever the memory. -/
theorem Memory.read_write_ne {m : Memory} {x y : Nat} (hy : y ≠ x) (b : Byte) : (m.write x b).read y = m.read y := by
  have hy' : x ≠ y := fun e => hy e.symm
  induction m with
  | nil => unfold Memory.write; split_ifs <;> simp [Memory.read, hy']
  | cons c m ih =>
    obtain ⟨a, v⟩ := c
    unfold Memory.write
    split_ifs with h1 h2 h3 h4
    · rfl
    · simp [Memory.read, hy']
    · subst h3; simp [Memory.read, hy']
    · subst h3; simp [Memory.read, hy']
    · simp [Memory.read, ih]

theorem Memory.read_write_self_of_canonical {m : Memory} {lo : Nat} (h : m.canonicalFrom lo = true) (x : Nat) (b : Byte) :
    (m.write x b).read x = b := by
  induction m generalizing lo with
  | nil => unfold Memory.write; split_ifs with hb <;> simp [Memory.read, hb]
  | cons c m ih =>
    obtain ⟨a, v⟩ := c
    simp only [Memory.canonicalFrom, Bool.and_eq_true, decide_eq_true_eq] at h
    obtain ⟨⟨⟨h1, -⟩, -⟩, h4⟩ := h
    unfold Memory.write
    split_ifs with hlt hb heq hb
    · simp [Memory.read, show a ≠ x by omega, Memory.read_below h4 (show x < a + 1 by omega), hb]
    · simp [Memory.read]
    · rw [Memory.read_below h4 (show x < a + 1 by omega), hb]
    · simp [Memory.read]
    · simp [Memory.read, show a ≠ x by omega, ih h4]

theorem Memory.canonicalFrom_write {m : Memory} {lo : Nat} (h : m.canonicalFrom lo = true) (x : Nat) (b : Byte)
    (hlo : lo ≤ x) (hx : x < addrSpace) : (m.write x b).canonicalFrom lo = true := by
  induction m generalizing lo with
  | nil =>
    unfold Memory.write
    split_ifs with hb
    · rfl
    · simp [Memory.canonicalFrom, hb, hx, hlo]
  | cons c m ih =>
    obtain ⟨a, v⟩ := c
    have h0 := h
    simp only [Memory.canonicalFrom, Bool.and_eq_true, decide_eq_true_eq] at h
    obtain ⟨⟨⟨h1, h2⟩, h3⟩, h4⟩ := h
    unfold Memory.write
    split_ifs with hlt hb heq hb
    · exact h0
    · simp only [Memory.canonicalFrom, Bool.and_eq_true, decide_eq_true_eq, bne_iff_ne, ne_eq]
      exact ⟨⟨⟨hlo, hx⟩, hb⟩, ⟨⟨by omega, h2⟩, by simpa using h3⟩, h4⟩
    · exact Memory.canonicalFrom_mono (by omega) h4
    · simp only [Memory.canonicalFrom, Bool.and_eq_true, decide_eq_true_eq, bne_iff_ne, ne_eq]
      exact ⟨⟨⟨hlo, hx⟩, hb⟩, heq ▸ h4⟩
    · simp only [Memory.canonicalFrom, Bool.and_eq_true, decide_eq_true_eq]
      exact ⟨⟨⟨h1, h2⟩, h3⟩, ih h4 (by omega)⟩

/-- A read after a write (R68). -/
theorem Memory.read_write {m : Memory} (h : m.wf = true) (x y : Nat) (b : Byte) :
    (m.write x b).read y = if y = x then b else m.read y := by
  by_cases hy : y = x
  · rw [if_pos hy, hy]; exact Memory.read_write_self_of_canonical h x b
  · rw [if_neg hy]; exact Memory.read_write_ne hy b

/-- A write keeps the canonical form. -/
theorem Memory.wf_write {m : Memory} (h : m.wf = true) {x : Nat} (hx : x < addrSpace) (b : Byte) :
    (m.write x b).wf = true :=
  Memory.canonicalFrom_write h x b (Nat.zero_le x) hx

theorem Memory.wf_fill {m : Memory} (h : m.wf = true) (f : Nat → Byte) (base n : Nat) :
    (m.fill f base n).wf = true := by
  induction n with
  | zero => exact h
  | succ n ih =>
    unfold Memory.fill
    split_ifs with hlt
    · exact Memory.wf_write ih hlt _
    · exact ih

/-- What a filled region reads as; every other byte is kept. -/
theorem Memory.read_fill {m : Memory} (h : m.wf = true) (f : Nat → Byte) (base n x : Nat) :
    (m.fill f base n).read x =
      if base ≤ x ∧ x < base + n ∧ x < addrSpace then f x else m.read x := by
  induction n with
  | zero => rw [if_neg (by omega)]; rfl
  | succ n ih =>
    unfold Memory.fill
    by_cases hlt : base + n < addrSpace
    · rw [if_pos hlt, Memory.read_write (Memory.wf_fill h f base n), ih]
      by_cases hx : x = base + n
      · rw [if_pos hx, if_pos ⟨by omega, by omega, by omega⟩, hx]
      · rw [if_neg hx]
        exact if_congr (by omega) rfl rfl
    · rw [if_neg hlt, ih]
      exact if_congr (by omega) rfl rfl

/-- Outside the filled region nothing changes, whatever the memory. -/
theorem Memory.read_fill_outside {m : Memory} (f : Nat → Byte) {base n x : Nat} (hx : ¬ (base ≤ x ∧ x < base + n)) :
    (m.fill f base n).read x = m.read x := by
  induction n with
  | zero => rfl
  | succ n ih =>
    unfold Memory.fill
    split_ifs with hlt
    · rw [Memory.read_write_ne (by omega), ih (by omega)]
    · exact ih (by omega)

/-- Canonical memories that read the same are the same data. -/
theorem Memory.ext_of_canonical {m m' : Memory} {lo : Nat} (h : m.canonicalFrom lo = true)
    (h' : m'.canonicalFrom lo = true) (heq : ∀ x, m.read x = m'.read x) : m = m' := by
  induction m generalizing lo m' with
  | nil =>
    cases m' with
    | nil => rfl
    | cons c m' =>
      obtain ⟨a, v⟩ := c
      simp only [Memory.canonicalFrom, Bool.and_eq_true, bne_iff_ne, ne_eq] at h'
      have := heq a
      simp only [Memory.read, if_pos] at this
      exact absurd this.symm h'.1.2
  | cons c m ih =>
    obtain ⟨a, v⟩ := c
    simp only [Memory.canonicalFrom, Bool.and_eq_true, decide_eq_true_eq, bne_iff_ne, ne_eq] at h
    obtain ⟨⟨⟨h1, h2⟩, h3⟩, h4⟩ := h
    cases m' with
    | nil =>
      have := heq a
      simp only [Memory.read, if_pos] at this
      exact absurd this h3
    | cons c' m' =>
      obtain ⟨a', v'⟩ := c'
      simp only [Memory.canonicalFrom, Bool.and_eq_true, decide_eq_true_eq, bne_iff_ne, ne_eq] at h'
      obtain ⟨⟨⟨h1', h2'⟩, h3'⟩, h4'⟩ := h'
      have haa : a = a' := by
        rcases Nat.lt_trichotomy a a' with hlt | heq' | hgt
        · have := heq a
          simp only [Memory.read, if_pos, show ¬ a' = a by omega, if_false] at this
          rw [Memory.read_below h4' (by omega)] at this
          exact absurd this h3
        · exact heq'
        · have := heq a'
          simp only [Memory.read, if_pos, show ¬ a = a' by omega, if_false] at this
          rw [Memory.read_below h4 (by omega)] at this
          exact absurd this.symm h3'
      subst haa
      have hv : v = v' := by have := heq a; simpa [Memory.read] using this
      subst hv
      have : m = m' := ih h4 h4' fun x => by
        have := heq x
        simp only [Memory.read] at this
        by_cases hx : a = x
        · rw [Memory.read_below h4 (by omega), Memory.read_below h4' (by omega)]
        · simpa [hx] using this
      rw [this]

theorem Memory.ext {m m' : Memory} (h : m.wf = true) (h' : m'.wf = true) (heq : ∀ x, m.read x = m'.read x) : m = m' :=
  Memory.ext_of_canonical h h' heq

end Sys2Proof.Machine
end

