-- ==== Sys2Proof/Laws/State.lean ====
section
/-! SUPPORT. What each state update leaves in each field: one lemma a field, by definition. -/

namespace Sys2Proof.Machine

variable (s : State)

/-! ### storeByte -/
@[simp] theorem storeByte_status (a : Nat) (v : Byte) : (storeByte a v s).status = s.status := rfl
@[simp] theorem storeByte_srcBase (a : Nat) (v : Byte) : (storeByte a v s).srcBase = s.srcBase := rfl
@[simp] theorem storeByte_srcLen (a : Nat) (v : Byte) : (storeByte a v s).srcLen = s.srcLen := rfl
@[simp] theorem storeByte_dstBase (a : Nat) (v : Byte) : (storeByte a v s).dstBase = s.dstBase := rfl
@[simp] theorem storeByte_dstLen (a : Nat) (v : Byte) : (storeByte a v s).dstLen = s.dstLen := rfl
@[simp] theorem storeByte_offset (a : Nat) (v : Byte) : (storeByte a v s).offset = s.offset := rfl
@[simp] theorem storeByte_hdrLo (a : Nat) (v : Byte) : (storeByte a v s).hdrLo = s.hdrLo := rfl
@[simp] theorem storeByte_hdrHi (a : Nat) (v : Byte) : (storeByte a v s).hdrHi = s.hdrHi := rfl
@[simp] theorem storeByte_srcPosReg (a : Nat) (v : Byte) : (storeByte a v s).srcPosReg = s.srcPosReg := rfl
@[simp] theorem storeByte_dstPosReg (a : Nat) (v : Byte) : (storeByte a v s).dstPosReg = s.dstPosReg := rfl
@[simp] theorem storeByte_phase (a : Nat) (v : Byte) : (storeByte a v s).phase = s.phase := rfl
@[simp] theorem storeByte_srcPos (a : Nat) (v : Byte) : (storeByte a v s).srcPos = s.srcPos := rfl
@[simp] theorem storeByte_dstPos (a : Nat) (v : Byte) : (storeByte a v s).dstPos = s.dstPos := rfl
@[simp] theorem storeByte_flag (a : Nat) (v : Byte) : (storeByte a v s).flag = s.flag := rfl
@[simp] theorem storeByte_bit (a : Nat) (v : Byte) : (storeByte a v s).bit = s.bit := rfl
@[simp] theorem storeByte_keyIdx (a : Nat) (v : Byte) : (storeByte a v s).keyIdx = s.keyIdx := rfl
@[simp] theorem storeByte_copyFrom (a : Nat) (v : Byte) : (storeByte a v s).copyFrom = s.copyFrom := rfl
@[simp] theorem storeByte_copyLeft (a : Nat) (v : Byte) : (storeByte a v s).copyLeft = s.copyLeft := rfl
@[simp] theorem storeByte_tokStart (a : Nat) (v : Byte) : (storeByte a v s).tokStart = s.tokStart := rfl
@[simp] theorem storeByte_flagPos (a : Nat) (v : Byte) : (storeByte a v s).flagPos = s.flagPos := rfl
@[simp] theorem storeByte_mem (a : Nat) (v : Byte) : (storeByte a v s).mem = s.mem.write a v := rfl
@[simp] theorem storeByte_inputs (a : Nat) (v : Byte) : (storeByte a v s).inputs = s.inputs := rfl
@[simp] theorem storeByte_history (a : Nat) (v : Byte) : (storeByte a v s).history = s.history := rfl
@[simp] theorem storeByte_draws (a : Nat) (v : Byte) : (storeByte a v s).draws = s.draws := rfl
@[simp] theorem storeByte_stream (a : Nat) (v : Byte) : (storeByte a v s).stream = s.stream := rfl
@[simp] theorem storeByte_claim (a : Nat) (v : Byte) : (storeByte a v s).claim = s.claim := rfl
@[simp] theorem storeByte_tainted (a : Nat) (v : Byte) : (storeByte a v s).tainted = s.tainted := rfl
@[simp] theorem storeByte_devices (a : Nat) (v : Byte) : (storeByte a v s).devices = s.devices := rfl

/-! ### endCommand -/
@[simp] theorem endCommand_status (how : Ending) (p q : Word) : (endCommand how p q s).status = { state := Ending.commandState how, cause := Ending.cause how, lastOp := s.status.lastOp } := rfl
@[simp] theorem endCommand_srcBase (how : Ending) (p q : Word) : (endCommand how p q s).srcBase = s.srcBase := rfl
@[simp] theorem endCommand_srcLen (how : Ending) (p q : Word) : (endCommand how p q s).srcLen = s.srcLen := rfl
@[simp] theorem endCommand_dstBase (how : Ending) (p q : Word) : (endCommand how p q s).dstBase = s.dstBase := rfl
@[simp] theorem endCommand_dstLen (how : Ending) (p q : Word) : (endCommand how p q s).dstLen = s.dstLen := rfl
@[simp] theorem endCommand_offset (how : Ending) (p q : Word) : (endCommand how p q s).offset = s.offset := rfl
@[simp] theorem endCommand_hdrLo (how : Ending) (p q : Word) : (endCommand how p q s).hdrLo = s.hdrLo := rfl
@[simp] theorem endCommand_hdrHi (how : Ending) (p q : Word) : (endCommand how p q s).hdrHi = s.hdrHi := rfl
@[simp] theorem endCommand_srcPosReg (how : Ending) (p q : Word) : (endCommand how p q s).srcPosReg = p := rfl
@[simp] theorem endCommand_dstPosReg (how : Ending) (p q : Word) : (endCommand how p q s).dstPosReg = q := rfl
@[simp] theorem endCommand_phase (how : Ending) (p q : Word) : (endCommand how p q s).phase = Ending.phase how := rfl
@[simp] theorem endCommand_srcPos (how : Ending) (p q : Word) : (endCommand how p q s).srcPos = s.srcPos := rfl
@[simp] theorem endCommand_dstPos (how : Ending) (p q : Word) : (endCommand how p q s).dstPos = s.dstPos := rfl
@[simp] theorem endCommand_flag (how : Ending) (p q : Word) : (endCommand how p q s).flag = s.flag := rfl
@[simp] theorem endCommand_bit (how : Ending) (p q : Word) : (endCommand how p q s).bit = s.bit := rfl
@[simp] theorem endCommand_keyIdx (how : Ending) (p q : Word) : (endCommand how p q s).keyIdx = s.keyIdx := rfl
@[simp] theorem endCommand_copyFrom (how : Ending) (p q : Word) : (endCommand how p q s).copyFrom = s.copyFrom := rfl
@[simp] theorem endCommand_copyLeft (how : Ending) (p q : Word) : (endCommand how p q s).copyLeft = s.copyLeft := rfl
@[simp] theorem endCommand_tokStart (how : Ending) (p q : Word) : (endCommand how p q s).tokStart = s.tokStart := rfl
@[simp] theorem endCommand_flagPos (how : Ending) (p q : Word) : (endCommand how p q s).flagPos = s.flagPos := rfl
@[simp] theorem endCommand_mem (how : Ending) (p q : Word) : (endCommand how p q s).mem = s.mem := rfl
@[simp] theorem endCommand_inputs (how : Ending) (p q : Word) : (endCommand how p q s).inputs = s.inputs := rfl
@[simp] theorem endCommand_history (how : Ending) (p q : Word) : (endCommand how p q s).history = .ended s.status.lastOp how p q :: s.history := rfl
@[simp] theorem endCommand_draws (how : Ending) (p q : Word) : (endCommand how p q s).draws = s.draws := rfl
@[simp] theorem endCommand_stream (how : Ending) (p q : Word) : (endCommand how p q s).stream = s.stream := rfl
@[simp] theorem endCommand_claim (how : Ending) (p q : Word) : (endCommand how p q s).claim = s.claim := rfl
@[simp] theorem endCommand_tainted (how : Ending) (p q : Word) : (endCommand how p q s).tainted = s.tainted := rfl
@[simp] theorem endCommand_devices (how : Ending) (p q : Word) : (endCommand how p q s).devices = s.devices := rfl

/-! ### doubleBit -/
@[simp] theorem doubleBit_status : (doubleBit s).status = s.status := rfl
@[simp] theorem doubleBit_srcBase : (doubleBit s).srcBase = s.srcBase := rfl
@[simp] theorem doubleBit_srcLen : (doubleBit s).srcLen = s.srcLen := rfl
@[simp] theorem doubleBit_dstBase : (doubleBit s).dstBase = s.dstBase := rfl
@[simp] theorem doubleBit_dstLen : (doubleBit s).dstLen = s.dstLen := rfl
@[simp] theorem doubleBit_offset : (doubleBit s).offset = s.offset := rfl
@[simp] theorem doubleBit_hdrLo : (doubleBit s).hdrLo = s.hdrLo := rfl
@[simp] theorem doubleBit_hdrHi : (doubleBit s).hdrHi = s.hdrHi := rfl
@[simp] theorem doubleBit_srcPosReg : (doubleBit s).srcPosReg = s.srcPosReg := rfl
@[simp] theorem doubleBit_dstPosReg : (doubleBit s).dstPosReg = s.dstPosReg := rfl
@[simp] theorem doubleBit_phase : (doubleBit s).phase = s.phase := rfl
@[simp] theorem doubleBit_srcPos : (doubleBit s).srcPos = s.srcPos := rfl
@[simp] theorem doubleBit_dstPos : (doubleBit s).dstPos = s.dstPos := rfl
@[simp] theorem doubleBit_flag : (doubleBit s).flag = s.flag := rfl
@[simp] theorem doubleBit_bit : (doubleBit s).bit = s.bit <<< 1 := rfl
@[simp] theorem doubleBit_keyIdx : (doubleBit s).keyIdx = s.keyIdx := rfl
@[simp] theorem doubleBit_copyFrom : (doubleBit s).copyFrom = s.copyFrom := rfl
@[simp] theorem doubleBit_copyLeft : (doubleBit s).copyLeft = s.copyLeft := rfl
@[simp] theorem doubleBit_tokStart : (doubleBit s).tokStart = s.tokStart := rfl
@[simp] theorem doubleBit_flagPos : (doubleBit s).flagPos = s.flagPos := rfl
@[simp] theorem doubleBit_mem : (doubleBit s).mem = s.mem := rfl
@[simp] theorem doubleBit_inputs : (doubleBit s).inputs = s.inputs := rfl
@[simp] theorem doubleBit_history : (doubleBit s).history = s.history := rfl
@[simp] theorem doubleBit_draws : (doubleBit s).draws = s.draws := rfl
@[simp] theorem doubleBit_stream : (doubleBit s).stream = s.stream := rfl
@[simp] theorem doubleBit_claim : (doubleBit s).claim = s.claim := rfl
@[simp] theorem doubleBit_tainted : (doubleBit s).tainted = s.tainted := rfl
@[simp] theorem doubleBit_devices : (doubleBit s).devices = s.devices := rfl

/-! ### maskAdvance -/
@[simp] theorem maskAdvance_status : (maskAdvance s).status = s.status := rfl
@[simp] theorem maskAdvance_srcBase : (maskAdvance s).srcBase = s.srcBase := rfl
@[simp] theorem maskAdvance_srcLen : (maskAdvance s).srcLen = s.srcLen := rfl
@[simp] theorem maskAdvance_dstBase : (maskAdvance s).dstBase = s.dstBase := rfl
@[simp] theorem maskAdvance_dstLen : (maskAdvance s).dstLen = s.dstLen := rfl
@[simp] theorem maskAdvance_offset : (maskAdvance s).offset = s.offset := rfl
@[simp] theorem maskAdvance_hdrLo : (maskAdvance s).hdrLo = s.hdrLo := rfl
@[simp] theorem maskAdvance_hdrHi : (maskAdvance s).hdrHi = s.hdrHi := rfl
@[simp] theorem maskAdvance_srcPosReg : (maskAdvance s).srcPosReg = s.srcPosReg := rfl
@[simp] theorem maskAdvance_dstPosReg : (maskAdvance s).dstPosReg = s.dstPosReg := rfl
@[simp] theorem maskAdvance_phase : (maskAdvance s).phase = s.phase := rfl
@[simp] theorem maskAdvance_srcPos : (maskAdvance s).srcPos = s.srcPos + 1 := rfl
@[simp] theorem maskAdvance_dstPos : (maskAdvance s).dstPos = s.dstPos := rfl
@[simp] theorem maskAdvance_flag : (maskAdvance s).flag = s.flag := rfl
@[simp] theorem maskAdvance_bit : (maskAdvance s).bit = s.bit := rfl
@[simp] theorem maskAdvance_keyIdx : (maskAdvance s).keyIdx = s.keyIdx + 1 := rfl
@[simp] theorem maskAdvance_copyFrom : (maskAdvance s).copyFrom = s.copyFrom := rfl
@[simp] theorem maskAdvance_copyLeft : (maskAdvance s).copyLeft = s.copyLeft := rfl
@[simp] theorem maskAdvance_tokStart : (maskAdvance s).tokStart = s.tokStart := rfl
@[simp] theorem maskAdvance_flagPos : (maskAdvance s).flagPos = s.flagPos := rfl
@[simp] theorem maskAdvance_mem : (maskAdvance s).mem = s.mem := rfl
@[simp] theorem maskAdvance_inputs : (maskAdvance s).inputs = s.inputs := rfl
@[simp] theorem maskAdvance_history : (maskAdvance s).history = s.history := rfl
@[simp] theorem maskAdvance_draws : (maskAdvance s).draws = s.draws := rfl
@[simp] theorem maskAdvance_stream : (maskAdvance s).stream = s.stream := rfl
@[simp] theorem maskAdvance_claim : (maskAdvance s).claim = s.claim := rfl
@[simp] theorem maskAdvance_tainted : (maskAdvance s).tainted = s.tainted := rfl
@[simp] theorem maskAdvance_devices : (maskAdvance s).devices = s.devices := rfl

/-! ### literalAdvance -/
@[simp] theorem literalAdvance_status : (literalAdvance s).status = s.status := rfl
@[simp] theorem literalAdvance_srcBase : (literalAdvance s).srcBase = s.srcBase := rfl
@[simp] theorem literalAdvance_srcLen : (literalAdvance s).srcLen = s.srcLen := rfl
@[simp] theorem literalAdvance_dstBase : (literalAdvance s).dstBase = s.dstBase := rfl
@[simp] theorem literalAdvance_dstLen : (literalAdvance s).dstLen = s.dstLen := rfl
@[simp] theorem literalAdvance_offset : (literalAdvance s).offset = s.offset := rfl
@[simp] theorem literalAdvance_hdrLo : (literalAdvance s).hdrLo = s.hdrLo := rfl
@[simp] theorem literalAdvance_hdrHi : (literalAdvance s).hdrHi = s.hdrHi := rfl
@[simp] theorem literalAdvance_srcPosReg : (literalAdvance s).srcPosReg = s.srcPosReg := rfl
@[simp] theorem literalAdvance_dstPosReg : (literalAdvance s).dstPosReg = s.dstPosReg := rfl
@[simp] theorem literalAdvance_phase : (literalAdvance s).phase = s.phase := rfl
@[simp] theorem literalAdvance_srcPos : (literalAdvance s).srcPos = s.srcPos + 1 := rfl
@[simp] theorem literalAdvance_dstPos : (literalAdvance s).dstPos = s.dstPos + 1 := rfl
@[simp] theorem literalAdvance_flag : (literalAdvance s).flag = s.flag := rfl
@[simp] theorem literalAdvance_bit : (literalAdvance s).bit = s.bit := rfl
@[simp] theorem literalAdvance_keyIdx : (literalAdvance s).keyIdx = s.keyIdx := rfl
@[simp] theorem literalAdvance_copyFrom : (literalAdvance s).copyFrom = s.copyFrom := rfl
@[simp] theorem literalAdvance_copyLeft : (literalAdvance s).copyLeft = s.copyLeft := rfl
@[simp] theorem literalAdvance_tokStart : (literalAdvance s).tokStart = s.tokStart := rfl
@[simp] theorem literalAdvance_flagPos : (literalAdvance s).flagPos = s.flagPos := rfl
@[simp] theorem literalAdvance_mem : (literalAdvance s).mem = s.mem := rfl
@[simp] theorem literalAdvance_inputs : (literalAdvance s).inputs = s.inputs := rfl
@[simp] theorem literalAdvance_history : (literalAdvance s).history = s.history := rfl
@[simp] theorem literalAdvance_draws : (literalAdvance s).draws = s.draws := rfl
@[simp] theorem literalAdvance_stream : (literalAdvance s).stream = s.stream := rfl
@[simp] theorem literalAdvance_claim : (literalAdvance s).claim = s.claim := rfl
@[simp] theorem literalAdvance_tainted : (literalAdvance s).tainted = s.tainted := rfl
@[simp] theorem literalAdvance_devices : (literalAdvance s).devices = s.devices := rfl

/-! ### consumeDescriptor -/
@[simp] theorem consumeDescriptor_status : (consumeDescriptor s).status = s.status := rfl
@[simp] theorem consumeDescriptor_srcBase : (consumeDescriptor s).srcBase = s.srcBase := rfl
@[simp] theorem consumeDescriptor_srcLen : (consumeDescriptor s).srcLen = s.srcLen := rfl
@[simp] theorem consumeDescriptor_dstBase : (consumeDescriptor s).dstBase = s.dstBase := rfl
@[simp] theorem consumeDescriptor_dstLen : (consumeDescriptor s).dstLen = s.dstLen := rfl
@[simp] theorem consumeDescriptor_offset : (consumeDescriptor s).offset = s.offset := rfl
@[simp] theorem consumeDescriptor_hdrLo : (consumeDescriptor s).hdrLo = s.hdrLo := rfl
@[simp] theorem consumeDescriptor_hdrHi : (consumeDescriptor s).hdrHi = s.hdrHi := rfl
@[simp] theorem consumeDescriptor_srcPosReg : (consumeDescriptor s).srcPosReg = s.srcPosReg := rfl
@[simp] theorem consumeDescriptor_dstPosReg : (consumeDescriptor s).dstPosReg = s.dstPosReg := rfl
@[simp] theorem consumeDescriptor_phase : (consumeDescriptor s).phase = s.phase := rfl
@[simp] theorem consumeDescriptor_srcPos : (consumeDescriptor s).srcPos = s.srcPos + 2 := rfl
@[simp] theorem consumeDescriptor_dstPos : (consumeDescriptor s).dstPos = s.dstPos := rfl
@[simp] theorem consumeDescriptor_flag : (consumeDescriptor s).flag = s.flag := rfl
@[simp] theorem consumeDescriptor_bit : (consumeDescriptor s).bit = s.bit := rfl
@[simp] theorem consumeDescriptor_keyIdx : (consumeDescriptor s).keyIdx = s.keyIdx := rfl
@[simp] theorem consumeDescriptor_copyFrom : (consumeDescriptor s).copyFrom = s.copyFrom := rfl
@[simp] theorem consumeDescriptor_copyLeft : (consumeDescriptor s).copyLeft = s.copyLeft := rfl
@[simp] theorem consumeDescriptor_tokStart : (consumeDescriptor s).tokStart = s.tokStart := rfl
@[simp] theorem consumeDescriptor_flagPos : (consumeDescriptor s).flagPos = s.flagPos := rfl
@[simp] theorem consumeDescriptor_mem : (consumeDescriptor s).mem = s.mem := rfl
@[simp] theorem consumeDescriptor_inputs : (consumeDescriptor s).inputs = s.inputs := rfl
@[simp] theorem consumeDescriptor_history : (consumeDescriptor s).history = s.history := rfl
@[simp] theorem consumeDescriptor_draws : (consumeDescriptor s).draws = s.draws := rfl
@[simp] theorem consumeDescriptor_stream : (consumeDescriptor s).stream = s.stream := rfl
@[simp] theorem consumeDescriptor_claim : (consumeDescriptor s).claim = s.claim := rfl
@[simp] theorem consumeDescriptor_tainted : (consumeDescriptor s).tainted = s.tainted := rfl
@[simp] theorem consumeDescriptor_devices : (consumeDescriptor s).devices = s.devices := rfl

/-! ### beginCopy -/
@[simp] theorem beginCopy_status (d l : Nat) : (beginCopy d l s).status = s.status := rfl
@[simp] theorem beginCopy_srcBase (d l : Nat) : (beginCopy d l s).srcBase = s.srcBase := rfl
@[simp] theorem beginCopy_srcLen (d l : Nat) : (beginCopy d l s).srcLen = s.srcLen := rfl
@[simp] theorem beginCopy_dstBase (d l : Nat) : (beginCopy d l s).dstBase = s.dstBase := rfl
@[simp] theorem beginCopy_dstLen (d l : Nat) : (beginCopy d l s).dstLen = s.dstLen := rfl
@[simp] theorem beginCopy_offset (d l : Nat) : (beginCopy d l s).offset = s.offset := rfl
@[simp] theorem beginCopy_hdrLo (d l : Nat) : (beginCopy d l s).hdrLo = s.hdrLo := rfl
@[simp] theorem beginCopy_hdrHi (d l : Nat) : (beginCopy d l s).hdrHi = s.hdrHi := rfl
@[simp] theorem beginCopy_srcPosReg (d l : Nat) : (beginCopy d l s).srcPosReg = s.srcPosReg := rfl
@[simp] theorem beginCopy_dstPosReg (d l : Nat) : (beginCopy d l s).dstPosReg = s.dstPosReg := rfl
@[simp] theorem beginCopy_phase (d l : Nat) : (beginCopy d l s).phase = .decCopy := rfl
@[simp] theorem beginCopy_srcPos (d l : Nat) : (beginCopy d l s).srcPos = s.srcPos := rfl
@[simp] theorem beginCopy_dstPos (d l : Nat) : (beginCopy d l s).dstPos = s.dstPos := rfl
@[simp] theorem beginCopy_flag (d l : Nat) : (beginCopy d l s).flag = s.flag := rfl
@[simp] theorem beginCopy_bit (d l : Nat) : (beginCopy d l s).bit = s.bit := rfl
@[simp] theorem beginCopy_keyIdx (d l : Nat) : (beginCopy d l s).keyIdx = s.keyIdx := rfl
@[simp] theorem beginCopy_copyFrom (d l : Nat) : (beginCopy d l s).copyFrom = BitVec.ofNat 32 (s.dstPos.toNat - d) := rfl
@[simp] theorem beginCopy_copyLeft (d l : Nat) : (beginCopy d l s).copyLeft = BitVec.ofNat 5 l := rfl
@[simp] theorem beginCopy_tokStart (d l : Nat) : (beginCopy d l s).tokStart = s.tokStart := rfl
@[simp] theorem beginCopy_flagPos (d l : Nat) : (beginCopy d l s).flagPos = s.flagPos := rfl
@[simp] theorem beginCopy_mem (d l : Nat) : (beginCopy d l s).mem = s.mem := rfl
@[simp] theorem beginCopy_inputs (d l : Nat) : (beginCopy d l s).inputs = s.inputs := rfl
@[simp] theorem beginCopy_history (d l : Nat) : (beginCopy d l s).history = s.history := rfl
@[simp] theorem beginCopy_draws (d l : Nat) : (beginCopy d l s).draws = s.draws := rfl
@[simp] theorem beginCopy_stream (d l : Nat) : (beginCopy d l s).stream = s.stream := rfl
@[simp] theorem beginCopy_claim (d l : Nat) : (beginCopy d l s).claim = s.claim := rfl
@[simp] theorem beginCopy_tainted (d l : Nat) : (beginCopy d l s).tainted = s.tainted := rfl
@[simp] theorem beginCopy_devices (d l : Nat) : (beginCopy d l s).devices = s.devices := rfl

/-! ### copyAdvance -/
@[simp] theorem copyAdvance_status : (copyAdvance s).status = s.status := rfl
@[simp] theorem copyAdvance_srcBase : (copyAdvance s).srcBase = s.srcBase := rfl
@[simp] theorem copyAdvance_srcLen : (copyAdvance s).srcLen = s.srcLen := rfl
@[simp] theorem copyAdvance_dstBase : (copyAdvance s).dstBase = s.dstBase := rfl
@[simp] theorem copyAdvance_dstLen : (copyAdvance s).dstLen = s.dstLen := rfl
@[simp] theorem copyAdvance_offset : (copyAdvance s).offset = s.offset := rfl
@[simp] theorem copyAdvance_hdrLo : (copyAdvance s).hdrLo = s.hdrLo := rfl
@[simp] theorem copyAdvance_hdrHi : (copyAdvance s).hdrHi = s.hdrHi := rfl
@[simp] theorem copyAdvance_srcPosReg : (copyAdvance s).srcPosReg = s.srcPosReg := rfl
@[simp] theorem copyAdvance_dstPosReg : (copyAdvance s).dstPosReg = s.dstPosReg := rfl
@[simp] theorem copyAdvance_phase : (copyAdvance s).phase = s.phase := rfl
@[simp] theorem copyAdvance_srcPos : (copyAdvance s).srcPos = s.srcPos := rfl
@[simp] theorem copyAdvance_dstPos : (copyAdvance s).dstPos = s.dstPos + 1 := rfl
@[simp] theorem copyAdvance_flag : (copyAdvance s).flag = s.flag := rfl
@[simp] theorem copyAdvance_bit : (copyAdvance s).bit = s.bit := rfl
@[simp] theorem copyAdvance_keyIdx : (copyAdvance s).keyIdx = s.keyIdx := rfl
@[simp] theorem copyAdvance_copyFrom : (copyAdvance s).copyFrom = s.copyFrom + 1 := rfl
@[simp] theorem copyAdvance_copyLeft : (copyAdvance s).copyLeft = s.copyLeft - 1 := rfl
@[simp] theorem copyAdvance_tokStart : (copyAdvance s).tokStart = s.tokStart := rfl
@[simp] theorem copyAdvance_flagPos : (copyAdvance s).flagPos = s.flagPos := rfl
@[simp] theorem copyAdvance_mem : (copyAdvance s).mem = s.mem := rfl
@[simp] theorem copyAdvance_inputs : (copyAdvance s).inputs = s.inputs := rfl
@[simp] theorem copyAdvance_history : (copyAdvance s).history = s.history := rfl
@[simp] theorem copyAdvance_draws : (copyAdvance s).draws = s.draws := rfl
@[simp] theorem copyAdvance_stream : (copyAdvance s).stream = s.stream := rfl
@[simp] theorem copyAdvance_claim : (copyAdvance s).claim = s.claim := rfl
@[simp] theorem copyAdvance_tainted : (copyAdvance s).tainted = s.tainted := rfl
@[simp] theorem copyAdvance_devices : (copyAdvance s).devices = s.devices := rfl

/-! ### copyEnd -/
@[simp] theorem copyEnd_status : (copyEnd s).status = s.status := rfl
@[simp] theorem copyEnd_srcBase : (copyEnd s).srcBase = s.srcBase := rfl
@[simp] theorem copyEnd_srcLen : (copyEnd s).srcLen = s.srcLen := rfl
@[simp] theorem copyEnd_dstBase : (copyEnd s).dstBase = s.dstBase := rfl
@[simp] theorem copyEnd_dstLen : (copyEnd s).dstLen = s.dstLen := rfl
@[simp] theorem copyEnd_offset : (copyEnd s).offset = s.offset := rfl
@[simp] theorem copyEnd_hdrLo : (copyEnd s).hdrLo = s.hdrLo := rfl
@[simp] theorem copyEnd_hdrHi : (copyEnd s).hdrHi = s.hdrHi := rfl
@[simp] theorem copyEnd_srcPosReg : (copyEnd s).srcPosReg = s.srcPosReg := rfl
@[simp] theorem copyEnd_dstPosReg : (copyEnd s).dstPosReg = s.dstPosReg := rfl
@[simp] theorem copyEnd_phase : (copyEnd s).phase = .decRun := rfl
@[simp] theorem copyEnd_srcPos : (copyEnd s).srcPos = s.srcPos := rfl
@[simp] theorem copyEnd_dstPos : (copyEnd s).dstPos = s.dstPos := rfl
@[simp] theorem copyEnd_flag : (copyEnd s).flag = s.flag := rfl
@[simp] theorem copyEnd_bit : (copyEnd s).bit = s.bit <<< 1 := rfl
@[simp] theorem copyEnd_keyIdx : (copyEnd s).keyIdx = s.keyIdx := rfl
@[simp] theorem copyEnd_copyFrom : (copyEnd s).copyFrom = s.copyFrom := rfl
@[simp] theorem copyEnd_copyLeft : (copyEnd s).copyLeft = 0 := rfl
@[simp] theorem copyEnd_tokStart : (copyEnd s).tokStart = s.tokStart := rfl
@[simp] theorem copyEnd_flagPos : (copyEnd s).flagPos = s.flagPos := rfl
@[simp] theorem copyEnd_mem : (copyEnd s).mem = s.mem := rfl
@[simp] theorem copyEnd_inputs : (copyEnd s).inputs = s.inputs := rfl
@[simp] theorem copyEnd_history : (copyEnd s).history = s.history := rfl
@[simp] theorem copyEnd_draws : (copyEnd s).draws = s.draws := rfl
@[simp] theorem copyEnd_stream : (copyEnd s).stream = s.stream := rfl
@[simp] theorem copyEnd_claim : (copyEnd s).claim = s.claim := rfl
@[simp] theorem copyEnd_tainted : (copyEnd s).tainted = s.tainted := rfl
@[simp] theorem copyEnd_devices : (copyEnd s).devices = s.devices := rfl

/-! ### openGroup -/
@[simp] theorem openGroup_status : (openGroup s).status = s.status := rfl
@[simp] theorem openGroup_srcBase : (openGroup s).srcBase = s.srcBase := rfl
@[simp] theorem openGroup_srcLen : (openGroup s).srcLen = s.srcLen := rfl
@[simp] theorem openGroup_dstBase : (openGroup s).dstBase = s.dstBase := rfl
@[simp] theorem openGroup_dstLen : (openGroup s).dstLen = s.dstLen := rfl
@[simp] theorem openGroup_offset : (openGroup s).offset = s.offset := rfl
@[simp] theorem openGroup_hdrLo : (openGroup s).hdrLo = s.hdrLo := rfl
@[simp] theorem openGroup_hdrHi : (openGroup s).hdrHi = s.hdrHi := rfl
@[simp] theorem openGroup_srcPosReg : (openGroup s).srcPosReg = s.srcPosReg := rfl
@[simp] theorem openGroup_dstPosReg : (openGroup s).dstPosReg = s.dstPosReg := rfl
@[simp] theorem openGroup_phase : (openGroup s).phase = s.phase := rfl
@[simp] theorem openGroup_srcPos : (openGroup s).srcPos = s.srcPos := rfl
@[simp] theorem openGroup_dstPos : (openGroup s).dstPos = s.dstPos + 1 := rfl
@[simp] theorem openGroup_flag : (openGroup s).flag = 0 := rfl
@[simp] theorem openGroup_bit : (openGroup s).bit = 1 := rfl
@[simp] theorem openGroup_keyIdx : (openGroup s).keyIdx = s.keyIdx := rfl
@[simp] theorem openGroup_copyFrom : (openGroup s).copyFrom = s.copyFrom := rfl
@[simp] theorem openGroup_copyLeft : (openGroup s).copyLeft = s.copyLeft := rfl
@[simp] theorem openGroup_tokStart : (openGroup s).tokStart = s.tokStart := rfl
@[simp] theorem openGroup_flagPos : (openGroup s).flagPos = s.dstPos := rfl
@[simp] theorem openGroup_mem : (openGroup s).mem = s.mem := rfl
@[simp] theorem openGroup_inputs : (openGroup s).inputs = s.inputs := rfl
@[simp] theorem openGroup_history : (openGroup s).history = s.history := rfl
@[simp] theorem openGroup_draws : (openGroup s).draws = s.draws := rfl
@[simp] theorem openGroup_stream : (openGroup s).stream = s.stream := rfl
@[simp] theorem openGroup_claim : (openGroup s).claim = s.claim := rfl
@[simp] theorem openGroup_tainted : (openGroup s).tainted = s.tainted := rfl
@[simp] theorem openGroup_devices : (openGroup s).devices = s.devices := rfl

/-! ### tokenAdvance -/
@[simp] theorem tokenAdvance_status (i : Instr) : (tokenAdvance i s).status = s.status := rfl
@[simp] theorem tokenAdvance_srcBase (i : Instr) : (tokenAdvance i s).srcBase = s.srcBase := rfl
@[simp] theorem tokenAdvance_srcLen (i : Instr) : (tokenAdvance i s).srcLen = s.srcLen := rfl
@[simp] theorem tokenAdvance_dstBase (i : Instr) : (tokenAdvance i s).dstBase = s.dstBase := rfl
@[simp] theorem tokenAdvance_dstLen (i : Instr) : (tokenAdvance i s).dstLen = s.dstLen := rfl
@[simp] theorem tokenAdvance_offset (i : Instr) : (tokenAdvance i s).offset = s.offset := rfl
@[simp] theorem tokenAdvance_hdrLo (i : Instr) : (tokenAdvance i s).hdrLo = s.hdrLo := rfl
@[simp] theorem tokenAdvance_hdrHi (i : Instr) : (tokenAdvance i s).hdrHi = s.hdrHi := rfl
@[simp] theorem tokenAdvance_srcPosReg (i : Instr) : (tokenAdvance i s).srcPosReg = s.srcPosReg := rfl
@[simp] theorem tokenAdvance_dstPosReg (i : Instr) : (tokenAdvance i s).dstPosReg = s.dstPosReg := rfl
@[simp] theorem tokenAdvance_phase (i : Instr) : (tokenAdvance i s).phase = s.phase := rfl
@[simp] theorem tokenAdvance_srcPos (i : Instr) : (tokenAdvance i s).srcPos = s.srcPos + BitVec.ofNat 32 (tokenInput i) := rfl
@[simp] theorem tokenAdvance_dstPos (i : Instr) : (tokenAdvance i s).dstPos = s.dstPos + BitVec.ofNat 32 (encode i).length := rfl
@[simp] theorem tokenAdvance_flag (i : Instr) : (tokenAdvance i s).flag = s.flag := rfl
@[simp] theorem tokenAdvance_bit (i : Instr) : (tokenAdvance i s).bit = s.bit <<< 1 := rfl
@[simp] theorem tokenAdvance_keyIdx (i : Instr) : (tokenAdvance i s).keyIdx = s.keyIdx := rfl
@[simp] theorem tokenAdvance_copyFrom (i : Instr) : (tokenAdvance i s).copyFrom = s.copyFrom := rfl
@[simp] theorem tokenAdvance_copyLeft (i : Instr) : (tokenAdvance i s).copyLeft = s.copyLeft := rfl
@[simp] theorem tokenAdvance_tokStart (i : Instr) : (tokenAdvance i s).tokStart = s.tokStart := rfl
@[simp] theorem tokenAdvance_flagPos (i : Instr) : (tokenAdvance i s).flagPos = s.flagPos := rfl
@[simp] theorem tokenAdvance_mem (i : Instr) : (tokenAdvance i s).mem = s.mem := rfl
@[simp] theorem tokenAdvance_inputs (i : Instr) : (tokenAdvance i s).inputs = s.inputs := rfl
@[simp] theorem tokenAdvance_history (i : Instr) : (tokenAdvance i s).history = s.history := rfl
@[simp] theorem tokenAdvance_draws (i : Instr) : (tokenAdvance i s).draws = s.draws := rfl
@[simp] theorem tokenAdvance_stream (i : Instr) : (tokenAdvance i s).stream = s.stream := rfl
@[simp] theorem tokenAdvance_claim (i : Instr) : (tokenAdvance i s).claim = s.claim := rfl
@[simp] theorem tokenAdvance_tainted (i : Instr) : (tokenAdvance i s).tainted = s.tainted := rfl
@[simp] theorem tokenAdvance_devices (i : Instr) : (tokenAdvance i s).devices = s.devices := rfl

/-! ### beginToken -/
@[simp] theorem beginToken_status : (beginToken s).status = s.status := rfl
@[simp] theorem beginToken_srcBase : (beginToken s).srcBase = s.srcBase := rfl
@[simp] theorem beginToken_srcLen : (beginToken s).srcLen = s.srcLen := rfl
@[simp] theorem beginToken_dstBase : (beginToken s).dstBase = s.dstBase := rfl
@[simp] theorem beginToken_dstLen : (beginToken s).dstLen = s.dstLen := rfl
@[simp] theorem beginToken_offset : (beginToken s).offset = s.offset := rfl
@[simp] theorem beginToken_hdrLo : (beginToken s).hdrLo = s.hdrLo := rfl
@[simp] theorem beginToken_hdrHi : (beginToken s).hdrHi = s.hdrHi := rfl
@[simp] theorem beginToken_srcPosReg : (beginToken s).srcPosReg = s.srcPosReg := rfl
@[simp] theorem beginToken_dstPosReg : (beginToken s).dstPosReg = s.dstPosReg := rfl
@[simp] theorem beginToken_phase : (beginToken s).phase = s.phase := rfl
@[simp] theorem beginToken_srcPos : (beginToken s).srcPos = s.srcPos := rfl
@[simp] theorem beginToken_dstPos : (beginToken s).dstPos = s.dstPos := rfl
@[simp] theorem beginToken_flag : (beginToken s).flag = s.flag := rfl
@[simp] theorem beginToken_bit : (beginToken s).bit = s.bit := rfl
@[simp] theorem beginToken_keyIdx : (beginToken s).keyIdx = s.keyIdx := rfl
@[simp] theorem beginToken_copyFrom : (beginToken s).copyFrom = s.copyFrom := rfl
@[simp] theorem beginToken_copyLeft : (beginToken s).copyLeft = s.copyLeft := rfl
@[simp] theorem beginToken_tokStart : (beginToken s).tokStart = s.srcPos := rfl
@[simp] theorem beginToken_flagPos : (beginToken s).flagPos = s.flagPos := rfl
@[simp] theorem beginToken_mem : (beginToken s).mem = s.mem := rfl
@[simp] theorem beginToken_inputs : (beginToken s).inputs = s.inputs := rfl
@[simp] theorem beginToken_history : (beginToken s).history = s.history := rfl
@[simp] theorem beginToken_draws : (beginToken s).draws = s.draws := rfl
@[simp] theorem beginToken_stream : (beginToken s).stream = s.stream := rfl
@[simp] theorem beginToken_claim : (beginToken s).claim = s.claim := rfl
@[simp] theorem beginToken_tainted : (beginToken s).tainted = s.tainted := rfl
@[simp] theorem beginToken_devices : (beginToken s).devices = s.devices := rfl

/-! ### record -/
@[simp] theorem record_status (e : Event) : (record e s).status = s.status := rfl
@[simp] theorem record_srcBase (e : Event) : (record e s).srcBase = s.srcBase := rfl
@[simp] theorem record_srcLen (e : Event) : (record e s).srcLen = s.srcLen := rfl
@[simp] theorem record_dstBase (e : Event) : (record e s).dstBase = s.dstBase := rfl
@[simp] theorem record_dstLen (e : Event) : (record e s).dstLen = s.dstLen := rfl
@[simp] theorem record_offset (e : Event) : (record e s).offset = s.offset := rfl
@[simp] theorem record_hdrLo (e : Event) : (record e s).hdrLo = s.hdrLo := rfl
@[simp] theorem record_hdrHi (e : Event) : (record e s).hdrHi = s.hdrHi := rfl
@[simp] theorem record_srcPosReg (e : Event) : (record e s).srcPosReg = s.srcPosReg := rfl
@[simp] theorem record_dstPosReg (e : Event) : (record e s).dstPosReg = s.dstPosReg := rfl
@[simp] theorem record_phase (e : Event) : (record e s).phase = s.phase := rfl
@[simp] theorem record_srcPos (e : Event) : (record e s).srcPos = s.srcPos := rfl
@[simp] theorem record_dstPos (e : Event) : (record e s).dstPos = s.dstPos := rfl
@[simp] theorem record_flag (e : Event) : (record e s).flag = s.flag := rfl
@[simp] theorem record_bit (e : Event) : (record e s).bit = s.bit := rfl
@[simp] theorem record_keyIdx (e : Event) : (record e s).keyIdx = s.keyIdx := rfl
@[simp] theorem record_copyFrom (e : Event) : (record e s).copyFrom = s.copyFrom := rfl
@[simp] theorem record_copyLeft (e : Event) : (record e s).copyLeft = s.copyLeft := rfl
@[simp] theorem record_tokStart (e : Event) : (record e s).tokStart = s.tokStart := rfl
@[simp] theorem record_flagPos (e : Event) : (record e s).flagPos = s.flagPos := rfl
@[simp] theorem record_mem (e : Event) : (record e s).mem = s.mem := rfl
@[simp] theorem record_inputs (e : Event) : (record e s).inputs = s.inputs := rfl
@[simp] theorem record_history (e : Event) : (record e s).history = e :: s.history := rfl
@[simp] theorem record_draws (e : Event) : (record e s).draws = s.draws := rfl
@[simp] theorem record_stream (e : Event) : (record e s).stream = s.stream := rfl
@[simp] theorem record_claim (e : Event) : (record e s).claim = s.claim := rfl
@[simp] theorem record_tainted (e : Event) : (record e s).tainted = s.tainted := rfl
@[simp] theorem record_devices (e : Event) : (record e s).devices = s.devices := rfl

/-! ### useDraw -/
@[simp] theorem useDraw_status : (useDraw s).status = s.status := rfl
@[simp] theorem useDraw_srcBase : (useDraw s).srcBase = s.srcBase := rfl
@[simp] theorem useDraw_srcLen : (useDraw s).srcLen = s.srcLen := rfl
@[simp] theorem useDraw_dstBase : (useDraw s).dstBase = s.dstBase := rfl
@[simp] theorem useDraw_dstLen : (useDraw s).dstLen = s.dstLen := rfl
@[simp] theorem useDraw_offset : (useDraw s).offset = s.offset := rfl
@[simp] theorem useDraw_hdrLo : (useDraw s).hdrLo = s.hdrLo := rfl
@[simp] theorem useDraw_hdrHi : (useDraw s).hdrHi = s.hdrHi := rfl
@[simp] theorem useDraw_srcPosReg : (useDraw s).srcPosReg = s.srcPosReg := rfl
@[simp] theorem useDraw_dstPosReg : (useDraw s).dstPosReg = s.dstPosReg := rfl
@[simp] theorem useDraw_phase : (useDraw s).phase = s.phase := rfl
@[simp] theorem useDraw_srcPos : (useDraw s).srcPos = s.srcPos := rfl
@[simp] theorem useDraw_dstPos : (useDraw s).dstPos = s.dstPos := rfl
@[simp] theorem useDraw_flag : (useDraw s).flag = s.flag := rfl
@[simp] theorem useDraw_bit : (useDraw s).bit = s.bit := rfl
@[simp] theorem useDraw_keyIdx : (useDraw s).keyIdx = s.keyIdx := rfl
@[simp] theorem useDraw_copyFrom : (useDraw s).copyFrom = s.copyFrom := rfl
@[simp] theorem useDraw_copyLeft : (useDraw s).copyLeft = s.copyLeft := rfl
@[simp] theorem useDraw_tokStart : (useDraw s).tokStart = s.tokStart := rfl
@[simp] theorem useDraw_flagPos : (useDraw s).flagPos = s.flagPos := rfl
@[simp] theorem useDraw_mem : (useDraw s).mem = s.mem := rfl
@[simp] theorem useDraw_inputs : (useDraw s).inputs = s.inputs := rfl
@[simp] theorem useDraw_history : (useDraw s).history = s.history := rfl
@[simp] theorem useDraw_draws : (useDraw s).draws = s.draws + 1 := rfl
@[simp] theorem useDraw_stream : (useDraw s).stream = s.stream := rfl
@[simp] theorem useDraw_claim : (useDraw s).claim = s.claim := rfl
@[simp] theorem useDraw_tainted : (useDraw s).tainted = s.tainted := rfl
@[simp] theorem useDraw_devices : (useDraw s).devices = s.devices := rfl

/-! ### releaseClaim -/
@[simp] theorem releaseClaim_status : (releaseClaim s).status = s.status := rfl
@[simp] theorem releaseClaim_srcBase : (releaseClaim s).srcBase = s.srcBase := rfl
@[simp] theorem releaseClaim_srcLen : (releaseClaim s).srcLen = s.srcLen := rfl
@[simp] theorem releaseClaim_dstBase : (releaseClaim s).dstBase = s.dstBase := rfl
@[simp] theorem releaseClaim_dstLen : (releaseClaim s).dstLen = s.dstLen := rfl
@[simp] theorem releaseClaim_offset : (releaseClaim s).offset = s.offset := rfl
@[simp] theorem releaseClaim_hdrLo : (releaseClaim s).hdrLo = s.hdrLo := rfl
@[simp] theorem releaseClaim_hdrHi : (releaseClaim s).hdrHi = s.hdrHi := rfl
@[simp] theorem releaseClaim_srcPosReg : (releaseClaim s).srcPosReg = s.srcPosReg := rfl
@[simp] theorem releaseClaim_dstPosReg : (releaseClaim s).dstPosReg = s.dstPosReg := rfl
@[simp] theorem releaseClaim_phase : (releaseClaim s).phase = s.phase := rfl
@[simp] theorem releaseClaim_srcPos : (releaseClaim s).srcPos = s.srcPos := rfl
@[simp] theorem releaseClaim_dstPos : (releaseClaim s).dstPos = s.dstPos := rfl
@[simp] theorem releaseClaim_flag : (releaseClaim s).flag = s.flag := rfl
@[simp] theorem releaseClaim_bit : (releaseClaim s).bit = s.bit := rfl
@[simp] theorem releaseClaim_keyIdx : (releaseClaim s).keyIdx = s.keyIdx := rfl
@[simp] theorem releaseClaim_copyFrom : (releaseClaim s).copyFrom = s.copyFrom := rfl
@[simp] theorem releaseClaim_copyLeft : (releaseClaim s).copyLeft = s.copyLeft := rfl
@[simp] theorem releaseClaim_tokStart : (releaseClaim s).tokStart = s.tokStart := rfl
@[simp] theorem releaseClaim_flagPos : (releaseClaim s).flagPos = s.flagPos := rfl
@[simp] theorem releaseClaim_mem : (releaseClaim s).mem = s.mem := rfl
@[simp] theorem releaseClaim_inputs : (releaseClaim s).inputs = s.inputs := rfl
@[simp] theorem releaseClaim_history : (releaseClaim s).history = s.history := rfl
@[simp] theorem releaseClaim_draws : (releaseClaim s).draws = s.draws := rfl
@[simp] theorem releaseClaim_stream : (releaseClaim s).stream = s.stream := rfl
@[simp] theorem releaseClaim_claim : (releaseClaim s).claim = none := rfl
@[simp] theorem releaseClaim_tainted : (releaseClaim s).tainted = s.tainted := rfl
@[simp] theorem releaseClaim_devices : (releaseClaim s).devices = s.devices := rfl

/-! ### withInputs -/
@[simp] theorem withInputs_status (r : List Input) : (s.withInputs r).status = s.status := rfl
@[simp] theorem withInputs_srcBase (r : List Input) : (s.withInputs r).srcBase = s.srcBase := rfl
@[simp] theorem withInputs_srcLen (r : List Input) : (s.withInputs r).srcLen = s.srcLen := rfl
@[simp] theorem withInputs_dstBase (r : List Input) : (s.withInputs r).dstBase = s.dstBase := rfl
@[simp] theorem withInputs_dstLen (r : List Input) : (s.withInputs r).dstLen = s.dstLen := rfl
@[simp] theorem withInputs_offset (r : List Input) : (s.withInputs r).offset = s.offset := rfl
@[simp] theorem withInputs_hdrLo (r : List Input) : (s.withInputs r).hdrLo = s.hdrLo := rfl
@[simp] theorem withInputs_hdrHi (r : List Input) : (s.withInputs r).hdrHi = s.hdrHi := rfl
@[simp] theorem withInputs_srcPosReg (r : List Input) : (s.withInputs r).srcPosReg = s.srcPosReg := rfl
@[simp] theorem withInputs_dstPosReg (r : List Input) : (s.withInputs r).dstPosReg = s.dstPosReg := rfl
@[simp] theorem withInputs_phase (r : List Input) : (s.withInputs r).phase = s.phase := rfl
@[simp] theorem withInputs_srcPos (r : List Input) : (s.withInputs r).srcPos = s.srcPos := rfl
@[simp] theorem withInputs_dstPos (r : List Input) : (s.withInputs r).dstPos = s.dstPos := rfl
@[simp] theorem withInputs_flag (r : List Input) : (s.withInputs r).flag = s.flag := rfl
@[simp] theorem withInputs_bit (r : List Input) : (s.withInputs r).bit = s.bit := rfl
@[simp] theorem withInputs_keyIdx (r : List Input) : (s.withInputs r).keyIdx = s.keyIdx := rfl
@[simp] theorem withInputs_copyFrom (r : List Input) : (s.withInputs r).copyFrom = s.copyFrom := rfl
@[simp] theorem withInputs_copyLeft (r : List Input) : (s.withInputs r).copyLeft = s.copyLeft := rfl
@[simp] theorem withInputs_tokStart (r : List Input) : (s.withInputs r).tokStart = s.tokStart := rfl
@[simp] theorem withInputs_flagPos (r : List Input) : (s.withInputs r).flagPos = s.flagPos := rfl
@[simp] theorem withInputs_mem (r : List Input) : (s.withInputs r).mem = s.mem := rfl
@[simp] theorem withInputs_inputs (r : List Input) : (s.withInputs r).inputs = r := rfl
@[simp] theorem withInputs_history (r : List Input) : (s.withInputs r).history = s.history := rfl
@[simp] theorem withInputs_draws (r : List Input) : (s.withInputs r).draws = s.draws := rfl
@[simp] theorem withInputs_stream (r : List Input) : (s.withInputs r).stream = s.stream := rfl
@[simp] theorem withInputs_claim (r : List Input) : (s.withInputs r).claim = s.claim := rfl
@[simp] theorem withInputs_tainted (r : List Input) : (s.withInputs r).tainted = s.tainted := rfl
@[simp] theorem withInputs_devices (r : List Input) : (s.withInputs r).devices = s.devices := rfl

/-! ### taint -/
@[simp] theorem taint_status : (taint s).status = s.status := rfl
@[simp] theorem taint_srcBase : (taint s).srcBase = s.srcBase := rfl
@[simp] theorem taint_srcLen : (taint s).srcLen = s.srcLen := rfl
@[simp] theorem taint_dstBase : (taint s).dstBase = s.dstBase := rfl
@[simp] theorem taint_dstLen : (taint s).dstLen = s.dstLen := rfl
@[simp] theorem taint_offset : (taint s).offset = s.offset := rfl
@[simp] theorem taint_hdrLo : (taint s).hdrLo = s.hdrLo := rfl
@[simp] theorem taint_hdrHi : (taint s).hdrHi = s.hdrHi := rfl
@[simp] theorem taint_srcPosReg : (taint s).srcPosReg = s.srcPosReg := rfl
@[simp] theorem taint_dstPosReg : (taint s).dstPosReg = s.dstPosReg := rfl
@[simp] theorem taint_phase : (taint s).phase = s.phase := rfl
@[simp] theorem taint_srcPos : (taint s).srcPos = s.srcPos := rfl
@[simp] theorem taint_dstPos : (taint s).dstPos = s.dstPos := rfl
@[simp] theorem taint_flag : (taint s).flag = s.flag := rfl
@[simp] theorem taint_bit : (taint s).bit = s.bit := rfl
@[simp] theorem taint_keyIdx : (taint s).keyIdx = s.keyIdx := rfl
@[simp] theorem taint_copyFrom : (taint s).copyFrom = s.copyFrom := rfl
@[simp] theorem taint_copyLeft : (taint s).copyLeft = s.copyLeft := rfl
@[simp] theorem taint_tokStart : (taint s).tokStart = s.tokStart := rfl
@[simp] theorem taint_flagPos : (taint s).flagPos = s.flagPos := rfl
@[simp] theorem taint_mem : (taint s).mem = s.mem := rfl
@[simp] theorem taint_inputs : (taint s).inputs = s.inputs := rfl
@[simp] theorem taint_history : (taint s).history = s.history := rfl
@[simp] theorem taint_draws : (taint s).draws = s.draws := rfl
@[simp] theorem taint_stream : (taint s).stream = s.stream := rfl
@[simp] theorem taint_claim : (taint s).claim = s.claim := rfl
@[simp] theorem taint_tainted : (taint s).tainted = true := rfl
@[simp] theorem taint_devices : (taint s).devices = s.devices := rfl

/-! ### noteSelector -/
@[simp] theorem noteSelector_status (i : Instr) : (noteSelector i s).status = s.status := by unfold noteSelector; split <;> rfl
@[simp] theorem noteSelector_srcBase (i : Instr) : (noteSelector i s).srcBase = s.srcBase := by unfold noteSelector; split <;> rfl
@[simp] theorem noteSelector_srcLen (i : Instr) : (noteSelector i s).srcLen = s.srcLen := by unfold noteSelector; split <;> rfl
@[simp] theorem noteSelector_dstBase (i : Instr) : (noteSelector i s).dstBase = s.dstBase := by unfold noteSelector; split <;> rfl
@[simp] theorem noteSelector_dstLen (i : Instr) : (noteSelector i s).dstLen = s.dstLen := by unfold noteSelector; split <;> rfl
@[simp] theorem noteSelector_offset (i : Instr) : (noteSelector i s).offset = s.offset := by unfold noteSelector; split <;> rfl
@[simp] theorem noteSelector_hdrLo (i : Instr) : (noteSelector i s).hdrLo = s.hdrLo := by unfold noteSelector; split <;> rfl
@[simp] theorem noteSelector_hdrHi (i : Instr) : (noteSelector i s).hdrHi = s.hdrHi := by unfold noteSelector; split <;> rfl
@[simp] theorem noteSelector_srcPosReg (i : Instr) : (noteSelector i s).srcPosReg = s.srcPosReg := by unfold noteSelector; split <;> rfl
@[simp] theorem noteSelector_dstPosReg (i : Instr) : (noteSelector i s).dstPosReg = s.dstPosReg := by unfold noteSelector; split <;> rfl
@[simp] theorem noteSelector_phase (i : Instr) : (noteSelector i s).phase = s.phase := by unfold noteSelector; split <;> rfl
@[simp] theorem noteSelector_srcPos (i : Instr) : (noteSelector i s).srcPos = s.srcPos := by unfold noteSelector; split <;> rfl
@[simp] theorem noteSelector_dstPos (i : Instr) : (noteSelector i s).dstPos = s.dstPos := by unfold noteSelector; split <;> rfl
theorem noteSelector_flag (i : Instr) : (noteSelector i s).flag = if selector i = 1 then s.flag ||| s.bit.setWidth 8 else s.flag := by
  unfold noteSelector; split <;> rfl
@[simp] theorem noteSelector_bit (i : Instr) : (noteSelector i s).bit = s.bit := by unfold noteSelector; split <;> rfl
@[simp] theorem noteSelector_keyIdx (i : Instr) : (noteSelector i s).keyIdx = s.keyIdx := by unfold noteSelector; split <;> rfl
@[simp] theorem noteSelector_copyFrom (i : Instr) : (noteSelector i s).copyFrom = s.copyFrom := by unfold noteSelector; split <;> rfl
@[simp] theorem noteSelector_copyLeft (i : Instr) : (noteSelector i s).copyLeft = s.copyLeft := by unfold noteSelector; split <;> rfl
@[simp] theorem noteSelector_tokStart (i : Instr) : (noteSelector i s).tokStart = s.tokStart := by unfold noteSelector; split <;> rfl
@[simp] theorem noteSelector_flagPos (i : Instr) : (noteSelector i s).flagPos = s.flagPos := by unfold noteSelector; split <;> rfl
@[simp] theorem noteSelector_mem (i : Instr) : (noteSelector i s).mem = s.mem := by unfold noteSelector; split <;> rfl
@[simp] theorem noteSelector_inputs (i : Instr) : (noteSelector i s).inputs = s.inputs := by unfold noteSelector; split <;> rfl
@[simp] theorem noteSelector_history (i : Instr) : (noteSelector i s).history = s.history := by unfold noteSelector; split <;> rfl
@[simp] theorem noteSelector_draws (i : Instr) : (noteSelector i s).draws = s.draws := by unfold noteSelector; split <;> rfl
@[simp] theorem noteSelector_stream (i : Instr) : (noteSelector i s).stream = s.stream := by unfold noteSelector; split <;> rfl
@[simp] theorem noteSelector_claim (i : Instr) : (noteSelector i s).claim = s.claim := by unfold noteSelector; split <;> rfl
@[simp] theorem noteSelector_tainted (i : Instr) : (noteSelector i s).tainted = s.tainted := by unfold noteSelector; split <;> rfl
@[simp] theorem noteSelector_devices (i : Instr) : (noteSelector i s).devices = s.devices := by unfold noteSelector; split <;> rfl

end Sys2Proof.Machine
end

