-- ==== Sys2Proof/Laws/Ops.lean ====
section
/-! SUPPORT. One lemma per shared operation: when it goes on, and with which state. -/

namespace Sys2Proof.Machine

/-! ## Plumbing -/

@[simp] theorem andThen_next (s : State) (f : State → Result) : andThen (.next s) f = f s := rfl
@[simp] theorem andThen_fault (e : Fault) (f : State → Result) : andThen (.fault e) f = .fault e := rfl
@[simp] theorem andThen_refused (e : Refusal) (f : State → Result) : andThen (.refused e) f = .refused e := rfl
@[simp] theorem withValue_ok {α : Type} (a : α) (f : α → Result) : withValue (.ok a) f = f a := rfl
@[simp] theorem withValue_error {α : Type} (e : Fault) (f : α → Result) : withValue (.error e) f = .fault e := rfl

theorem andThen_eq_next {r : Result} {f : State → Result} {t : State} :
    andThen r f = .next t ↔ ∃ s, r = .next s ∧ f s = .next t := by
  cases r <;> simp [andThen]

theorem withValue_eq_next {α : Type} {r : Except Fault α} {f : α → Result} {t : State} :
    withValue r f = .next t ↔ ∃ a, r = .ok a ∧ f a = .next t := by
  cases r <;> simp [withValue]

/-! ## Buffers -/

/-- When a buffer offset has an address (R10, R45). -/
theorem bufferAddr_ok {r : Region} {i : Nat} (h : i < r.len) (hw : r.base + r.len ≤ addrSpace) :
    bufferAddr r i = .ok (r.base + i) := by
  unfold bufferAddr
  rw [if_neg (by omega), if_neg (by omega)]

/-- What an address of a buffer offset says of it. -/
theorem bufferAddr_eq_ok {r : Region} {i a : Nat} :
    bufferAddr r i = .ok a ↔ i < r.len ∧ r.base + i < addrSpace ∧ a = r.base + i := by
  unfold bufferAddr
  split_ifs with h1 h2
  · simp; omega
  · simp; omega
  · simp; omega

theorem srcRead_ok {s : State} {i : Nat} (h : i < s.srcLen.toNat)
    (hw : s.srcBase.toNat + s.srcLen.toNat ≤ addrSpace) : srcRead s i = .ok (s.mem.read (s.srcBase.toNat + i)) := by
  unfold srcRead
  rw [bufferAddr_ok (r := s.srcRegion) h hw]
  rfl

theorem dstRead_ok {s : State} {j : Nat} (h : j < s.dstLen.toNat)
    (hw : s.dstBase.toNat + s.dstLen.toNat ≤ addrSpace) : dstRead s j = .ok (s.mem.read (s.dstBase.toNat + j)) := by
  unfold dstRead
  rw [bufferAddr_ok (r := s.dstRegion) h hw]
  rfl

theorem dstWrite_ok {s : State} {j : Nat} (v : Byte) (h : j < s.dstLen.toNat)
    (hw : s.dstBase.toNat + s.dstLen.toNat ≤ addrSpace) :
    dstWrite j v s = .next (storeByte (s.dstBase.toNat + j) v s) := by
  unfold dstWrite
  rw [bufferAddr_ok (r := s.dstRegion) h hw]
  rfl

theorem bufWrite_ok {s : State} {i : Nat} (v : Byte) (h : i < s.srcLen.toNat)
    (hw : s.srcBase.toNat + s.srcLen.toNat ≤ addrSpace) :
    bufWrite i v s = .next (storeByte (s.srcBase.toNat + i) v s) := by
  unfold bufWrite
  rw [bufferAddr_ok (r := s.srcRegion) h hw]
  rfl

theorem dstWrite_eq_next {s t : State} {j : Nat} {v : Byte} :
    dstWrite j v s = .next t ↔
      ∃ a, bufferAddr s.dstRegion j = .ok a ∧ t = storeByte a v s := by
  unfold dstWrite
  rw [withValue_eq_next]
  constructor
  · rintro ⟨a, h, h'⟩; injection h' with h'; exact ⟨a, h, h'.symm⟩
  · rintro ⟨a, h, rfl⟩; exact ⟨a, h, rfl⟩

/-- Bytes written one after another at rising addresses. -/
def Memory.writeList (m : Memory) (a : Nat) : List Byte → Memory
  | [] => m
  | b :: bs => Memory.writeList (m.write a b) (a + 1) bs

/-- A state with bytes of memory written. -/
def storeBytes (a : Nat) (bs : List Byte) (s : State) : State := { s with mem := s.mem.writeList a bs }

theorem Memory.wf_writeList {m : Memory} (h : m.wf = true) {a : Nat} {bs : List Byte}
    (ha : a + bs.length ≤ addrSpace) : (m.writeList a bs).wf = true := by
  induction bs generalizing m a with
  | nil => exact h
  | cons b bs ih =>
    simp only [List.length_cons] at ha
    exact ih (Memory.wf_write h (by omega) b) (by omega)

theorem Memory.read_writeList {m : Memory} (h : m.wf = true) {a : Nat} {bs : List Byte}
    (ha : a + bs.length ≤ addrSpace) (x : Nat) :
    (m.writeList a bs).read x =
      if a ≤ x ∧ x < a + bs.length then bs.getD (x - a) 0 else m.read x := by
  induction bs generalizing m a with
  | nil => rw [if_neg (by simp)]; rfl
  | cons b bs ih =>
    simp only [List.length_cons] at ha ⊢
    rw [Memory.writeList, ih (Memory.wf_write h (by omega) b) (by omega), Memory.read_write h]
    by_cases h1 : x = a
    · subst h1
      rw [if_neg (by omega), if_pos rfl, if_pos (by omega)]
      simp
    · by_cases h2 : a + 1 ≤ x ∧ x < a + 1 + bs.length
      · rw [if_pos h2, if_pos (by omega), show x - a = (x - (a + 1)) + 1 by omega]
        simp
      · rw [if_neg h2, if_neg h1, if_neg (by omega)]

theorem Memory.read_writeList_outside {m : Memory} {a : Nat} {bs : List Byte} {x : Nat}
    (hx : ¬ (a ≤ x ∧ x < a + bs.length)) : (m.writeList a bs).read x = m.read x := by
  induction bs generalizing m a with
  | nil => rfl
  | cons b bs ih =>
    simp only [List.length_cons] at hx
    rw [Memory.writeList, ih (by omega), Memory.read_write_ne (by omega)]

theorem dstWrites_ok {s : State} {j : Nat} (bs : List Byte) (h : j + bs.length ≤ s.dstLen.toNat)
    (hw : s.dstBase.toNat + s.dstLen.toNat ≤ addrSpace) :
    dstWrites j bs s = .next (storeBytes (s.dstBase.toNat + j) bs s) := by
  induction bs generalizing s j with
  | nil => rfl
  | cons b bs ih =>
    simp only [List.length_cons] at h
    rw [dstWrites, dstWrite_ok b (by omega) hw, andThen_next, ih (by simp; omega) (by simpa using hw)]
    rfl

theorem srcReads_ok {s : State} {i n : Nat} (h : i + n ≤ s.srcLen.toNat)
    (hw : s.srcBase.toNat + s.srcLen.toNat ≤ addrSpace) :
    srcReads s i n = .ok ((List.range n).map fun k => s.mem.read (s.srcBase.toNat + i + k)) := by
  induction n generalizing i with
  | zero => rfl
  | succ n ih =>
    rw [srcReads, srcRead_ok (by omega) hw]
    simp only []
    rw [ih (by omega), List.range_succ_eq_map, List.map_cons, List.map_map]
    simp only [Nat.add_zero]
    congr 2
    apply List.map_congr_left
    intro k _
    simp only [Function.comp]
    congr 1
    omega

/-! ## The end of a command -/

theorem conclude_of_untainted {s : State} (h : s.tainted = false) (how : Ending) (p q : Word) :
    conclude how p q s = endCommand how p q s := by simp [conclude, h]

theorem conclude_of_tainted {s : State} (h : s.tainted = true) (how : Ending) (p q : Word) :
    conclude how p q s = spoil s := by simp [conclude, h]

/-- An ended command, in one of its two forms (R182, R185, R188; R220). -/
theorem conclude_cases (how : Ending) (p q : Word) (s : State) :
    (s.tainted = false ∧ conclude how p q s = endCommand how p q s) ∨
      (s.tainted = true ∧ conclude how p q s = spoil s) := by
  cases h : s.tainted
  · exact .inl ⟨rfl, conclude_of_untainted h how p q⟩
  · exact .inr ⟨rfl, conclude_of_tainted h how p q⟩

theorem ending_phase_commandState (how : Ending) :
    Phase.commandState (Ending.phase how) = Ending.commandState how := by cases how <;> rfl

theorem drawWriteRegion_wf {m : Memory} (h : m.wf = true) (k n : Nat) (c : Option Claim) :
    (drawWriteRegion k n c m).wf = true := by
  cases c with
  | none => exact h
  | some c => exact Memory.wf_fill h _ _ _

theorem raiseCorrupt_of_untainted {s : State} (h : s.tainted = false) (r : CorruptReason) :
    raiseCorrupt r s = endCommand (.fault (.corruptData r)) s.tokStart s.dstPos s :=
  conclude_of_untainted h _ _ _

theorem raiseInvalid_of_untainted {s : State} (h : s.tainted = false) (r : InvalidReason) :
    raiseInvalid r s = endCommand (.fault (.invalidArgument r)) 0 0 s :=
  conclude_of_untainted h _ _ _

/-! ## Steps -/

theorem step_of_no_inputs {s : State} (h : s.inputs = []) : step s = coreStep s := by
  simp [step, advance, h]

theorem step_of_input {s : State} {i : Input} {rest : List Input} (h : s.inputs = i :: rest) :
    step s = hostStep i (s.withInputs rest) := by
  simp [step, advance, h]

theorem startCommand_of_busy {s : State} (h : s.busy = true) (op : Byte) : startCommand op s = s := by
  simp [startCommand, h]

theorem startCommand_of_not_busy {s : State} (h : s.busy = false) (op : Byte) :
    startCommand op s =
      { s with
        status := { state := .busy, cause := none, lastOp := op }
        phase := .check, claim := some (claimFor op s), tainted := false } := by
  simp [startCommand, h]

/-- A host write of CMD is a command's start, with the word's low byte as its code (R28, R95). -/
theorem commandWrite_cases (w : Word) (s : State) : ∃ op, commandWrite w s = .next (startCommand op s) := by
  unfold commandWrite
  rcases decode_command_cases w with h | h | h | ⟨op, h⟩ <;> rw [h]
  · exact ⟨opMask, rfl⟩
  · exact ⟨opDecompress, rfl⟩
  · exact ⟨opCompress, rfl⟩
  · exact ⟨_, rfl⟩

theorem run_next {M : Host.Core} {s t : M.State} (h : M.step s = .next t) (n : Nat) :
    M.run (n + 1) s = M.run n t := by
  rw [Host.Core.run, h]

theorem run_succ_eq_next {M : Host.Core} {s t : M.State} {n : Nat} (h : M.run (n + 1) s = .next t) :
    ∃ s', M.step s = .next s' ∧ M.run n s' = .next t := by
  rw [Host.Core.run] at h
  split at h
  · exact ⟨_, ‹_›, h⟩
  · cases h
  · cases h

theorem run_succ {s t : State} (h : step s = .next t) (n : Nat) :
    Host.Core.run Sys2Proof.core (n + 1) s = Host.Core.run Sys2Proof.core n t :=
  run_next (M := Sys2Proof.core) h n

theorem Reaches.refl (s : State) : Reaches s s := ⟨0, rfl⟩

theorem Reaches.step {s t u : State} (h : Machine.step s = .next t) (h' : Reaches t u) : Reaches s u := by
  obtain ⟨n, hn⟩ := h'
  exact ⟨n + 1, by rw [run_succ h, hn]⟩

theorem run_add {s t : State} {n : Nat} (m : Nat) (h : Host.Core.run Sys2Proof.core n s = .next t) :
    Host.Core.run Sys2Proof.core (n + m) s = Host.Core.run Sys2Proof.core m t := by
  induction n generalizing s with
  | zero =>
    have : s = t := by injection h
    rw [this, Nat.zero_add]
  | succ n ih =>
    obtain ⟨s', hs, h⟩ := run_succ_eq_next h
    rw [Nat.succ_add, run_succ hs, ih h]

theorem Reaches.trans {s t u : State} (h : Reaches s t) (h' : Reaches t u) : Reaches s u := by
  obtain ⟨n, hn⟩ := h
  obtain ⟨m, hm⟩ := h'
  exact ⟨n + m, by rw [run_add m hn, hm]⟩

end Sys2Proof.Machine
end

