-- ==== Sys2Proof/Laws/Invariant.lean ====
section
/-! SUPPORT. What the shared operations and the steps of each phase do to the invariant of Safety.lean, and what the
argument checks and the match search guarantee. -/

namespace Sys2Proof.Machine

/-- Ending a command leaves a state that meets the invariant. -/
theorem inv_endCommand {s : State} (hm : s.mem.wf = true) (hb : oneHot s.bit = true) (hc : s.copyLeft.toNat ≤ 17)
    (ht : s.tainted = false) (how : Ending) (p q : Word) : Inv (endCommand how p q s) where
  memory := hm
  statusFollowsPhase := by cases how <;> rfl
  causeOnlyOnFault := by cases how <;> rfl
  cursorOneHot := hb
  copyLeftSmall := hc
  claimHeld := by cases how <;> intro h <;> cases h
  taintedBusy := by intro h; simp [ht] at h
  checksHold := by cases how <;> intro h <;> cases h
  ranges := by cases how <;> trivial

/-- Ending a command with free values does too. -/
theorem inv_spoil {s : State} (hm : s.mem.wf = true) (hb : oneHot s.bit = true) (hc : s.copyLeft.toNat ≤ 17) :
    Inv (spoil s) := by
  unfold spoil
  exact inv_endCommand
    (s := { s with
      mem := drawWriteRegion s.stream s.draws s.claim s.mem
      draws := s.draws + 1
      tainted := false })
    (drawWriteRegion_wf hm _ _ _) hb hc rfl _ _ _

/-- So does any end of a command. -/
theorem inv_conclude {s : State} (hm : s.mem.wf = true) (hb : oneHot s.bit = true) (hc : s.copyLeft.toNat ≤ 17)
    (how : Ending) (p q : Word) : Inv (conclude how p q s) := by
  rcases conclude_cases how p q s with ⟨ht, h⟩ | ⟨ht, h⟩ <;> rw [h]
  · exact inv_endCommand hm hb hc ht _ _ _
  · exact inv_spoil hm hb hc

/-- So does raising CorruptData. -/
theorem inv_raiseCorrupt {s : State} (hm : s.mem.wf = true) (hb : oneHot s.bit = true) (hc : s.copyLeft.toNat ≤ 17)
    (r : CorruptReason) : Inv (raiseCorrupt r s) := inv_conclude hm hb hc _ _ _

/-- What the argument checks say once they have all passed (R183). -/
theorem checks_regions {s : State} (h : failedCheck s = none) : s.srcBase.toNat + s.srcLen.toNat ≤ addrSpace ∧
   ((s.isDecompress = true ∨ s.isCompress = true) → s.dstBase.toNat + s.dstLen.toNat ≤ addrSpace ∧
       s.srcRegion.overlaps s.dstRegion = false) ∧
   (s.isMask = true → s.offset.toNat ≤ s.srcLen.toNat) ∧ (s.isDecompress = true → 9 ≤ s.srcLen.toNat) ∧
   (s.isCompress = true → 8 + s.srcLen.toNat + max 1 ((s.srcLen.toNat + 7) / 8) ≤ s.dstLen.toNat) ∧ 
   (s.isMask = true ∨ s.isDecompress = true ∨ s.isCompress = true) := by
  simp only [failedCheck, argumentChecks, firstFailing] at h
  split_ifs at h with h1 h2 h3 h4 h5 h6 h7
  simp only [Region.wraps, State.srcRegion, State.dstRegion, outputBound, Bool.not_eq_true, Bool.and_eq_true,
      decide_eq_true_eq, not_and, not_lt, Bool.or_eq_true, Bool.not_eq_eq_eq_not, Bool.not_true, State.opKnown] at *
  refine ⟨by simpa using h2, ?_, fun h => by simpa using h4 h, fun h => by simpa using h5 h,
      fun h => by simpa using h6 h, ?_⟩
  · intro h
    exact ⟨by simpa using h3 h, by simpa using h7 h⟩
  · simp only [State.isMask, State.isDecompress, State.isCompress]
    simp at h1 ⊢; tauto

/-- The registers a running command does not change. -/
structure SameFrame (s t : State) : Prop where
  status : t.status = s.status
  srcBase : t.srcBase = s.srcBase
  srcLen : t.srcLen = s.srcLen
  dstBase : t.dstBase = s.dstBase
  dstLen : t.dstLen = s.dstLen
  offset : t.offset = s.offset
  claim : t.claim = s.claim
  tainted : t.tainted = s.tainted

/-- The argument checks read only framed registers. -/
theorem SameFrame.failedCheck {s t : State} (f : SameFrame s t) : failedCheck t = failedCheck s := by
  simp only [Machine.failedCheck, argumentChecks, State.opKnown, State.isMask, State.isDecompress, State.isCompress,
    State.srcRegion, State.dstRegion, f.status, f.srcBase, f.srcLen, f.dstBase, f.dstLen, f.offset]

/-- What a command is lent is computed from framed registers. -/
theorem SameFrame.claimFor {s t : State} (f : SameFrame s t) (op : Byte) : claimFor op t = claimFor op s := by
  simp only [Machine.claimFor, State.srcRegion, State.dstRegion, State.maskedRegion, State.streamRegion, f.srcBase,
    f.srcLen, f.dstBase, f.dstLen, f.offset]

/-- BUSY, as a fact about STATUS. -/
theorem State.busy_iff {s : State} : s.busy = true ↔ s.status.state = .busy := by
  simp [State.busy]

/-- The body's phases are BUSY phases (R30). -/
theorem commandState_of_inBody {s : State} (h : s.inBody = true) : s.phase.commandState = .busy := by
  unfold State.inBody at h
  cases hp : s.phase <;> simp_all [Phase.commandState]

/-- A step inside a command's body: what is to be shown of the next state. -/
theorem inv_body {s t : State} (h : Inv s) (hb : s.busy = true) (hck : failedCheck s = none) (f : SameFrame s t)
    (hph : t.inBody = true) (hm : t.mem.wf = true) (ho : oneHot t.bit = true) (hc : t.copyLeft.toNat ≤ 17)
    (hr : WorkingRanges t) : Inv t where
  memory := hm
  statusFollowsPhase := by
    rw [f.status, commandState_of_inBody hph, State.busy_iff.mp hb]
  causeOnlyOnFault := by
    have h1 := h.causeOnlyOnFault
    have h2 := h.statusFollowsPhase
    rw [State.busy_iff.mp hb] at h2
    rw [f.status, h1]
    have : s.phase ≠ .fault := by intro e; rw [e] at h2; cases h2
    have h3 := commandState_of_inBody hph
    have : t.phase ≠ .fault := by intro e; rw [e] at h3; cases h3
    simp [*]
  cursorOneHot := ho
  copyLeftSmall := hc
  claimHeld := by
    intro _
    rw [f.claim, f.status, f.claimFor]
    exact h.claimHeld hb
  taintedBusy := by
    intro ht
    rw [State.busy_iff, f.status]
    exact State.busy_iff.mp hb
  checksHold := by intro _; rw [f.failedCheck]; exact hck
  ranges := hr

/-- In the body the core is BUSY. -/
theorem busy_of_inBody {s : State} (h : Inv s) (hp : s.inBody = true) : s.busy = true := by
  rw [State.busy_iff, h.statusFollowsPhase, commandState_of_inBody hp]

/-- `CORE` goes on from here and keeps the invariant. -/
def GoesOn (r : Result) : Prop := ∃ t, r = .next t ∧ Inv t

/-- MASK's step keeps the invariant (R111). -/
theorem mask_goes_on {s : State} (h : Inv s) (hp : s.phase = .maskRun) : GoesOn (maskStep s) := by
  have hbody : s.inBody = true := by simp [State.inBody, hp]
  have hck := h.checksHold hbody
  have hr := h.ranges
  simp only [WorkingRanges, hp] at hr
  obtain ⟨hmask, h1, h2, h3⟩ := hr
  obtain ⟨hw, -, hoff, -⟩ := checks_regions hck
  unfold maskStep
  split_ifs with hlt
  · rw [srcRead_ok hlt hw, withValue_ok, bufWrite_ok _ hlt hw, andThen_next]
    refine ⟨_, rfl, inv_body h (busy_of_inBody h hbody) hck ⟨rfl, rfl, rfl, rfl, rfl, rfl, rfl,
        rfl⟩ hbody ?_ ?_ ?_ ?_⟩
    · exact Memory.wf_write h.memory (by omega) _
    · exact h.cursorOneHot
    · exact h.copyLeftSmall
    · have := s.srcLen.isLt
      simp only [WorkingRanges, maskAdvance_phase, storeByte_phase, hp, maskAdvance_srcPos, maskAdvance_offset,
          maskAdvance_srcLen, maskAdvance_keyIdx, storeByte_srcPos, storeByte_offset, storeByte_srcLen,
          storeByte_keyIdx]
      rw [BitVec.toNat_add, BitVec.toNat_add, h3]
      refine ⟨hmask, ?_, ?_, ?_⟩ <;> simp <;> omega
  · exact ⟨_, rfl, inv_conclude h.memory h.cursorOneHot h.copyLeftSmall _ _ _⟩

/-- The copy's step keeps the invariant (R127). -/
theorem copy_goes_on {s : State} (h : Inv s) (hp : s.phase = .decCopy) : GoesOn (copyStep s) := by
  have hbody : s.inBody = true := by simp [State.inBody, hp]
  have hck := h.checksHold hbody
  have hr := h.ranges
  simp only [WorkingRanges, hp] at hr
  obtain ⟨hdec, h1, h2, h3, h4, h5⟩ := hr
  obtain ⟨-, hreg, -, -⟩ := checks_regions hck
  obtain ⟨hw, -⟩ := hreg (.inl hdec)
  have hone := h.cursorOneHot
  unfold copyStep
  split_ifs with hlt
  · simp only [Bool.and_eq_true, decide_eq_true_eq] at hlt
    rw [dstRead_ok (by omega) hw, withValue_ok, dstWrite_ok _ hlt.2 hw, andThen_next]
    refine ⟨_, rfl, inv_body h (busy_of_inBody h hbody) hck ⟨rfl, rfl, rfl, rfl, rfl, rfl, rfl,
        rfl⟩ hbody ?_ hone ?_ ?_⟩
    · exact Memory.wf_write h.memory (by omega) _
    · have := h.copyLeftSmall
      simp only [copyAdvance_copyLeft, storeByte_copyLeft]
      rw [BitVec.toNat_sub]; simp; omega
    · have := s.dstLen.isLt
      simp only [WorkingRanges, copyAdvance_phase, storeByte_phase, hp, copyAdvance_srcPos, copyAdvance_srcLen,
          copyAdvance_dstPos, copyAdvance_dstLen, copyAdvance_copyFrom, copyAdvance_bit, storeByte_srcPos,
          storeByte_srcLen, storeByte_dstPos, storeByte_dstLen, storeByte_copyFrom, storeByte_bit]
      rw [BitVec.toNat_add, BitVec.toNat_add]
      refine ⟨hdec, h1, h2, ?_, ?_, h5⟩ <;> simp <;> omega
  · refine ⟨_, rfl, inv_body h (busy_of_inBody h hbody) hck ⟨rfl, rfl, rfl, rfl, rfl, rfl, rfl,
      rfl⟩ rfl h.memory ?_ (by simp) ?_⟩
    · simp only [copyEnd_bit]
      have : ∀ b : BitVec 9, oneHot b = true → b.toNat ≤ 128 → oneHot (b <<< 1) = true := by decide
      exact this _ hone h5
    · have : ∀ b : BitVec 9, oneHot b = true → b.toNat ≤ 128 → b <<< 1 ≠ 1 := by decide
      have := this _ hone h5
      simp only [WorkingRanges, copyEnd_phase, copyEnd_srcPos, copyEnd_srcLen, copyEnd_dstPos, copyEnd_dstLen,
          State.tokenDue, copyEnd_bit]
      refine ⟨hdec, by omega, h2, h3, fun _ hd => ?_⟩
      simp at hd
      exact absurd hd.1 this

/-! ## The decoder -/

/-- After a literal the cursor is doubled (R121). -/
theorem endToken_of_decRun {t : State} (h : t.phase = .decRun) : endToken t = doubleBit t := if_pos h
/-- After a reference's start, or a fault, it is not (R127, R128). -/
theorem endToken_of_not_decRun {t : State} (h : t.phase ≠ .decRun) : endToken t = t := if_neg h

/-- A token's step keeps the invariant, where there is room for a literal (R121). -/
theorem token_goes_on {s : State} (h : Inv s) (hp : s.phase = .decRun) (h9 : 9 ≤ s.srcPos.toNat)
    (hbit : s.bit ≠ 256) (hroom : s.dstPos.toNat < s.dstLen.toNat) : GoesOn (tokenStep s) := by
  have hbody : s.inBody = true := by simp [State.inBody, hp]
  have hck := h.checksHold hbody
  have hr := h.ranges
  simp only [WorkingRanges, hp] at hr
  obtain ⟨hdec, h1, h2, h3, -⟩ := hr
  obtain ⟨hws, hreg, -, -⟩ := checks_regions hck
  obtain ⟨hw, -⟩ := hreg (.inl hdec)
  have hone := h.cursorOneHot
  have hsl := s.srcLen.isLt
  have hdl := s.dstLen.isLt
  have hbusy := busy_of_inBody h hbody
  have hsmall : s.bit.toNat ≤ 128 := by
    have : ∀ b : BitVec 9, oneHot b = true → b ≠ 256 → b.toNat ≤ 128 := by decide
    exact this _ hone hbit
  have hdouble : oneHot (s.bit <<< 1) = true := by
    have : ∀ b : BitVec 9, oneHot b = true → b.toNat ≤ 128 → oneHot (b <<< 1) = true := by decide
    exact this _ hone hsmall
  have hne1 : s.bit <<< 1 ≠ 1 := by
    have : ∀ b : BitVec 9, oneHot b = true → b.toNat ≤ 128 → b <<< 1 ≠ 1 := by decide
    exact this _ hone hsmall
  have hcorrupt : ∀ t : State, t.mem = s.mem → t.bit = s.bit → t.copyLeft = s.copyLeft → ∀ r,
      Inv (raiseCorrupt r t) := by
    intro t e1 e2 e3 r
    exact inv_raiseCorrupt (by rw [e1]; exact h.memory) (by rw [e2]; exact hone) (by rw [e3]; exact h.copyLeftSmall) r
  have hcorruptEnd : ∀ (t : State) r, endToken (raiseCorrupt r t) = raiseCorrupt r t := by
    intro t r
    have : (raiseCorrupt r t).phase ≠ .decRun := by
      rcases conclude_cases (.fault (.corruptData r)) t.tokStart t.dstPos t with ⟨_, e⟩ | ⟨_, e⟩
      · show (conclude _ _ _ _).phase ≠ _
        rw [e]; simp [Ending.phase]
      · show (conclude _ _ _ _).phase ≠ _
        rw [e]; unfold spoil; cases Config.drawEnding t.stream t.draws <;> simp [Ending.phase]
    unfold endToken; rw [if_neg this]
  unfold tokenStep fetch
  split_ifs with hshort
  · exact ⟨_, rfl, hcorrupt (beginToken s) rfl rfl rfl _⟩
  · rw [srcReads_ok (by omega) hws]
    simp only []
    cases hsel : s.selectsLiteral
    · -- reference
      have hc : tokenContext s = .reference := by simp [tokenContext, hsel]
      rw [hc] at hshort ⊢
      simp only [DecodeContext.size, List.range_succ, List.range_zero, List.map_nil, List.map_cons,
          List.nil_append, List.cons_append, decode_reference, withValue_ok, exec] at hshort ⊢
      unfold execRef
      split_ifs with a b c
      · simp only [andThen_next, hcorruptEnd]
        exact ⟨_, rfl, hcorrupt (beginToken s) rfl rfl rfl _⟩
      · simp only [andThen_next, hcorruptEnd]
        exact ⟨_, rfl, hcorrupt (consumeDescriptor (beginToken s)) rfl rfl rfl _⟩
      · simp only [andThen_next, hcorruptEnd]
        exact ⟨_, rfl, hcorrupt (consumeDescriptor (beginToken s)) rfl rfl rfl _⟩
      · rw [andThen_next, endToken_of_not_decRun (by simp)]
        simp only [beginToken_dstPos] at c
        refine ⟨_, rfl, ?_⟩
        refine inv_body h hbusy hck ⟨rfl, rfl, rfl, rfl, rfl, rfl, rfl, rfl⟩ rfl h.memory hone ?_ ?_
        · simp only [beginCopy_copyLeft, BitVec.toNat_ofNat]; omega
        · simp only [WorkingRanges, beginCopy_phase, beginCopy_srcPos, beginCopy_srcLen, beginCopy_dstPos,
            beginCopy_dstLen, beginCopy_copyFrom, beginCopy_bit, consumeDescriptor_srcPos,
            consumeDescriptor_srcLen, consumeDescriptor_dstPos, consumeDescriptor_dstLen, consumeDescriptor_bit,
            beginToken_srcPos, beginToken_srcLen, beginToken_dstPos, beginToken_dstLen, beginToken_bit]
          have a' : ¬ s.srcLen.toNat < s.srcPos.toNat + 2 := a
          have e2 : (s.srcPos + 2).toNat = s.srcPos.toNat + 2 := by rw [BitVec.toNat_add]; simp; omega
          rw [e2, BitVec.toNat_ofNat]
          exact ⟨hdec, by omega, by omega, h3, by omega, hsmall⟩
    · have hc : tokenContext s = .literal := by simp [tokenContext, hsel]
      rw [hc] at hshort ⊢
      simp only [DecodeContext.size, List.range_succ, List.range_zero, List.map_nil, List.map_cons,
          List.nil_append, decode, withValue_ok, exec] at hshort ⊢
      unfold execLit
      have hneg : ¬ (beginToken s).srcLen.toNat ≤ (beginToken s).srcPos.toNat := by
        simp only [beginToken_srcLen, beginToken_srcPos]; omega
      rw [if_neg hneg, dstWrite_ok _ (by simpa using hroom) (by simpa using hw), andThen_next, andThen_next]
      have hph : (literalAdvance (storeByte ((beginToken s).dstBase.toNat + (beginToken s).dstPos.toNat)
          (s.mem.read (s.srcBase.toNat + s.srcPos.toNat + 0)) (beginToken s))).phase = .decRun := hp
      rw [endToken_of_decRun hph]
      refine ⟨_, rfl, inv_body h hbusy hck ⟨rfl, rfl, rfl, rfl, rfl, rfl, rfl,
          rfl⟩ hbody ?_ hdouble h.copyLeftSmall ?_⟩
      · exact Memory.wf_write h.memory (by simp; omega) _
      · simp only [WorkingRanges, doubleBit_phase, literalAdvance_phase, storeByte_phase, beginToken_phase, hp,
          doubleBit_srcPos, doubleBit_srcLen, doubleBit_dstPos, doubleBit_dstLen, State.tokenDue, doubleBit_bit,
          literalAdvance_srcPos, literalAdvance_srcLen, literalAdvance_dstPos, literalAdvance_dstLen,
          literalAdvance_bit, storeByte_srcPos, storeByte_srcLen, storeByte_dstPos, storeByte_dstLen,
          storeByte_bit, beginToken_srcPos, beginToken_srcLen, beginToken_dstPos, beginToken_dstLen, beginToken_bit]
        rw [BitVec.toNat_add, BitVec.toNat_add]
        refine ⟨hdec, ?_, ?_, ?_, ?_⟩
        · simp; omega
        · simp; omega
        · simp; omega
        · intro _ hd
          simp at hd
          exact absurd hd.1 hne1

/-- A flag byte's step keeps the invariant (R122). -/
theorem flags_goes_on {s : State} (h : Inv s) (hp : s.phase = .decRun) (hlt : s.srcPos.toNat < s.srcLen.toNat)
    (hroom : s.srcPos.toNat ≠ 8 → s.dstPos.toNat < s.dstLen.toNat) : GoesOn (flagsStep s) := by
  have hbody : s.inBody = true := by simp [State.inBody, hp]
  have hck := h.checksHold hbody
  have hr := h.ranges
  simp only [WorkingRanges, hp] at hr
  obtain ⟨hdec, h1, h2, h3, -⟩ := hr
  obtain ⟨hws, hreg, -, -⟩ := checks_regions hck
  have hsl := s.srcLen.isLt
  have hneg : ¬ s.srcLen.toNat < s.srcPos.toNat + DecodeContext.flagByte.size :=
      by simp only [DecodeContext.size]; omega
  unfold flagsStep fetch
  rw [if_neg hneg, srcReads_ok (by simp only [DecodeContext.size]; omega) hws]
  simp only [DecodeContext.size, List.range_succ, List.range_zero, List.map_nil, List.map_cons, List.nil_append,
      decode, withValue_ok, exec, execFlags]
  refine ⟨_, rfl, inv_body h (busy_of_inBody h hbody) hck ⟨rfl, rfl, rfl, rfl, rfl, rfl, rfl,
      rfl⟩ hbody h.memory rfl h.copyLeftSmall ?_⟩
  simp only [WorkingRanges, hp]
  have hs : (s.srcPos + 1).toNat = s.srcPos.toNat + 1 := by rw [BitVec.toNat_add]; simp; omega
  rw [hs]
  refine ⟨hdec, by omega, by omega, h3, ?_⟩
  intro _ hd
  apply hroom
  intro e
  simp [State.tokenDue] at hd
  apply hd
  apply BitVec.eq_of_toNat_eq
  exact hs.trans (by rw [e]; rfl)

/-- The decoder's step keeps the invariant (R121). -/
theorem decode_goes_on {s : State} (h : Inv s) (hp : s.phase = .decRun) : GoesOn (decodeStep s) := by
  have hbody : s.inBody = true := by simp [State.inBody, hp]
  have hck := h.checksHold hbody
  have hr := h.ranges
  simp only [WorkingRanges, hp] at hr
  obtain ⟨hdec, h1, h2, h3, h4⟩ := hr
  obtain ⟨hws, hreg, -, h9, -⟩ := checks_regions hck
  have h9 := h9 hdec
  have hs8 : ∀ n : Nat, n < 2^32 → (s.srcPos = BitVec.ofNat 32 n ↔ s.srcPos.toNat = n) := by
    intro n hn; rw [← BitVec.toNat_inj, BitVec.toNat_ofNat, Nat.mod_eq_of_lt hn]
  have hs8 := hs8 8 (by omega)
  unfold decodeStep
  split_ifs with a b c d
  · have := hs8.mp a
    exact flags_goes_on h hp (by omega) (fun e => absurd this e)
  · have : s.srcPos.toNat ≠ 8 := fun e => a (hs8.mpr e)
    refine token_goes_on h hp (by omega) ?_ (h4 this b)
    intro e; simp [State.tokenDue, e] at b
  · simp only [State.loopGuard, Bool.and_eq_true, decide_eq_true_eq] at c
    exact flags_goes_on h hp c.1 (fun _ => c.2)
  · have : s.srcPos.toNat ≠ 8 := fun e => a (hs8.mpr e)
    simp only [State.loopGuard, Bool.and_eq_true, decide_eq_true_eq] at c
    exact token_goes_on h hp (by omega) d c.2
  · exact ⟨_, rfl, inv_conclude h.memory h.cursorOneHot h.copyLeftSmall _ _ _⟩

/-! ## The encoder -/

/-- A match is no longer than asked for (R156). -/
theorem matchLength_le (src : Nat → Byte) (limit : Nat) : ∀ p q, matchLength src p q limit ≤ limit := by
  induction limit with
  | zero => intro p q; simp [matchLength]
  | succ n ih =>
    intro p q; unfold matchLength
    split_ifs
    · have := ih (p+1) (q+1); omega
    · omega

/-- The search keeps the bound of its best match (R156). -/
theorem searchFrom_le (src : Nat → Byte) (p lmax : Nat) (fuel : Nat) : ∀ d best, best.1 ≤ lmax →
    (searchFrom src p lmax fuel d best).1 ≤ lmax := by
  induction fuel with
  | zero => intro d best h; exact h
  | succ n ih =>
    intro d best h; unfold searchFrom
    apply ih
    split_ifs
    · exact matchLength_le _ _ _ _
    · exact h

/-- BestMatch's length is at most `min(17, SRC_LEN - p)` (R156). -/
theorem bestMatch_le (src : Nat → Byte) (n p : Nat) : (bestMatch src n p).1 ≤ min 17 (n - p) :=
  searchFrom_le _ _ _ _ _ _ (Nat.zero_le _)

/-- Frames compose. -/
theorem SameFrame.trans {s t u : State} (f : SameFrame s t) (g : SameFrame t u) : SameFrame s u :=
  ⟨g.status.trans f.status, g.srcBase.trans f.srcBase, g.srcLen.trans f.srcLen, g.dstBase.trans f.dstBase,
    g.dstLen.trans f.dstLen, g.offset.trans f.offset, g.claim.trans f.claim, g.tainted.trans f.tainted⟩

/-- The facts inside COMPRESS's loop, with a group open that has room for a token. -/
structure EncMid (s : State) (g k : Nat) : Prop where
  phase : s.phase = .encRun
  bit : s.bit.toNat = 2 ^ k
  hk : k ≤ 7
  hg : 1 ≤ g
  src : s.srcPos.toNat < s.srcLen.toNat
  flag8 : 8 ≤ s.flagPos.toNat
  flagLt : s.flagPos.toNat < s.dstPos.toNat
  tok : 8 * (g - 1) + k ≤ s.srcPos.toNat
  dst : s.dstPos.toNat ≤ 8 + g + s.srcPos.toNat

/-- Emitting a token keeps the invariant (R155). -/
theorem emit_goes_on {s0 s : State} (h0 : Inv s0) (hp0 : s0.phase = .encRun) (fr : SameFrame s0 s) (hm : s.mem.wf = true)
    (hcl : s.copyLeft = s0.copyLeft) {g k : Nat} (m : EncMid s g k) {b : Instr} (hb : b = tokenAt s) :
    GoesOn (emitToken b s) := by
  have hbody0 : s0.inBody = true := by simp [State.inBody, hp0]
  have hbody : s.inBody = true := by simp [State.inBody, m.phase]
  have hck := h0.checksHold hbody0
  have hck' := fr.failedCheck.trans hck
  have hr := h0.ranges
  simp only [WorkingRanges, hp0] at hr
  have hcomp : s.isCompress = true := by rw [State.isCompress, fr.status]; exact hr.1
  obtain ⟨hws, hreg, -, -, hsz, -⟩ := checks_regions hck'
  obtain ⟨hw, -⟩ := hreg (.inr hcomp)
  have hsz := hsz hcomp
  have hdl := s.dstLen.isLt
  have hsl := s.srcLen.isLt
  have hbusy := busy_of_inBody h0 hbody0
  obtain ⟨mph, mbit, mk, mg, msrc, mf8, mfl, mtok, mdst⟩ := m
  have hpow : 2 ^ k ≤ 2 ^ 7 := Nat.pow_le_pow_right (by omega) mk
  have hdouble : oneHot (s.bit <<< 1) = true := by
    have : ∀ b : BitVec 9, ∀ k ≤ 7, b.toNat = 2 ^ k → oneHot (b <<< 1) = true := by decide
    exact this _ k mk mbit
  have hdbl : (s.bit <<< 1).toNat = 2 * s.bit.toNat := by
    rw [BitVec.toNat_shiftLeft, Nat.shiftLeft_eq]; omega
  have hl := bestMatch_le s.srcByte s.srcLen.toNat s.srcPos.toNat
  have hti : 1 ≤ tokenInput b ∧ s.srcPos.toNat + tokenInput b ≤ s.srcLen.toNat ∧ (encode b).length ≤ tokenInput b ∧
      1 ≤ (encode b).length ∧ (encode b).length ≤ 2:= by
    rw [hb]
    unfold tokenAt chooseToken
    split_ifs with hc
    · simp only [Config.lenMin] at hc
      simp only [tokenInput, encode, length_littleEndian]; omega
    · simp only [tokenInput, encode, List.length_cons, List.length_nil]; omega
  obtain ⟨i1, i2, i3, i4, i5⟩ := hti
  unfold emitToken
  rw [dstWrites_ok _ (by omega) hw, andThen_next]
  refine ⟨_, rfl, inv_body h0 hbusy hck (fr.trans ?_) ?_ ?_ ?_ ?_ ?_⟩
  · unfold noteSelector; split_ifs <;> exact ⟨rfl, rfl, rfl, rfl, rfl, rfl, rfl, rfl⟩
  · unfold noteSelector; split_ifs <;> exact hbody
  · have : (s.mem.writeList (s.dstBase.toNat + s.dstPos.toNat) (encode b)).wf = true :=
      Memory.wf_writeList hm (by omega)
    unfold noteSelector; split_ifs <;> exact this
  · unfold noteSelector; split_ifs <;> exact hdouble
  · have := h0.copyLeftSmall
    rw [← hcl] at this
    unfold noteSelector; split_ifs <;> exact this
  · have key : ∀ u : State, u.phase = .encRun → u.isCompress = true →
      u.srcPos = s.srcPos + BitVec.ofNat 32 (tokenInput b) →
      u.dstPos = s.dstPos + BitVec.ofNat 32 (encode b).length → u.bit = s.bit <<< 1 → u.srcLen = s.srcLen →
      u.flagPos = s.flagPos → WorkingRanges u := by
      intro u e1 e2 e3 e4 e5 e6 e7
      simp only [WorkingRanges, e1, e3, e4, e6, e7]
      have t1 : (s.srcPos + BitVec.ofNat 32 (tokenInput b)).toNat = s.srcPos.toNat + tokenInput b := by
        rw [BitVec.toNat_add, BitVec.toNat_ofNat]; omega
      have t2 : (s.dstPos + BitVec.ofNat 32 (encode b).length).toNat = s.dstPos.toNat + (encode b).length := by
        rw [BitVec.toNat_add, BitVec.toNat_ofNat]; omega
      rw [t1, t2]
      refine ⟨e2, i2, mf8, by omega, g, k + 1, ?_, by omega, mg, by omega, ?_, ?_⟩
      · rw [e5, hdbl, mbit, pow_succ]; omega
      · rw [e3, t1]; omega
      · rw [e3, e4, t1, t2]; omega
    apply key
    all_goals unfold noteSelector; split_ifs <;> first | rfl | exact mph | exact hcomp

/-- The encoder's step keeps the invariant (R155). -/
theorem encode_goes_on {s : State} (h : Inv s) (hp : s.phase = .encRun) : GoesOn (encodeStep s) := by
  have hbody : s.inBody = true := by simp [State.inBody, hp]
  have hck := h.checksHold hbody
  have hr := h.ranges
  simp only [WorkingRanges, hp] at hr
  obtain ⟨hcomp, h1, h2, h3, g, k, h4, h5, h6, h7, h8, h9⟩ := hr
  obtain ⟨hws, hreg, -, -, hsz, -⟩ := checks_regions hck
  obtain ⟨hw, -⟩ := hreg (.inr hcomp)
  have hsz := hsz hcomp
  have hdl := s.dstLen.isLt
  have hnw : ¬ s.srcRegion.wraps = true := by
    intro hh; simp [Region.wraps, State.srcRegion] at hh; omega
  unfold encodeStep
  rw [if_neg hnw]
  split_ifs with hlt
  · by_cases hb : s.bit = 256
    · have hk : k = 8 := by
        rw [hb] at h4
        have : (256 : Nat) = 2 ^ k := h4
        rcases Nat.lt_or_ge k 8 with h | h
        · have : 2 ^ k ≤ 2 ^ 7 := Nat.pow_le_pow_right (by omega) (by omega)
          omega
        · omega
      subst hk
      unfold nextGroup
      rw [if_pos hb, dstWrite_ok _ (by omega) hw, andThen_next, andThen_next]
      have e : (s.dstPos + 1).toNat = s.dstPos.toNat + 1 := by rw [BitVec.toNat_add]; simp; omega
      refine emit_goes_on (s := openGroup (storeByte (s.dstBase.toNat + s.flagPos.toNat) s.flag s)) h hp ⟨rfl, rfl,
          rfl, rfl, rfl, rfl, rfl, rfl⟩ ?_ rfl (g := g + 1) (k := 0) ⟨hp, rfl, by omega, by omega, hlt, ?_, ?_, ?_,
          ?_⟩ rfl
      · exact Memory.wf_write h.memory (by omega) _
      · show 8 ≤ s.dstPos.toNat; omega
      · show s.dstPos.toNat < (s.dstPos + 1).toNat; omega
      · show 8 * (g + 1 - 1) + 0 ≤ s.srcPos.toNat; omega
      · show (s.dstPos + 1).toNat ≤ 8 + (g+1) + s.srcPos.toNat; omega
    · have hk7 : k ≤ 7 := by
        rcases Nat.lt_or_ge k 8 with h | h
        · omega
        · have : k = 8 := by omega
          subst this
          exact absurd (BitVec.eq_of_toNat_eq h4) hb
      unfold nextGroup
      rw [if_neg hb, andThen_next]
      exact emit_goes_on h hp ⟨rfl, rfl, rfl, rfl, rfl, rfl, rfl, rfl⟩ h.memory rfl (g := g) (k := k) ⟨hp, h4, hk7,
          h6, hlt, h2, h3, h8, h9⟩ rfl
  · have hmw : (s.mem.write (s.dstBase.toNat + s.flagPos.toNat) s.flag).wf = true :=
      Memory.wf_write h.memory (by omega) _
    rw [dstWrite_ok _ (by omega) hw, andThen_next]
    exact ⟨_, rfl, inv_conclude (s :=
        storeByte (s.dstBase.toNat + s.flagPos.toNat) s.flag s) hmw h.cursorOneHot h.copyLeftSmall _ _ _⟩

/-! ## Starting a command and the host's actions -/

/-- The start of a command's body keeps the invariant, or the launch is refused (R183, R74). -/
theorem begin_goes_on {s : State} (h : Inv s) (hp : s.phase = .check) (hck : failedCheck s = none) :
    (beginBody s = .refused .nonOrdinaryMemory) ∨ GoesOn (beginBody s) := by
  have hbusy : s.busy = true := by rw [State.busy_iff, h.statusFollowsPhase, hp]; rfl
  obtain ⟨hws, hreg, hoff, h9, hsz, hop⟩ := checks_regions hck
  unfold beginBody
  split_ifs with a b c
  · exact .inl rfl
  · right
    refine ⟨_, rfl, inv_body h hbusy hck ⟨rfl, rfl, rfl, rfl, rfl, rfl, rfl,
        rfl⟩ rfl h.memory h.cursorOneHot h.copyLeftSmall ?_⟩
    exact ⟨b, le_refl _, hoff b, by simp⟩
  · right
    refine ⟨_, rfl, inv_body h hbusy hck ⟨rfl, rfl, rfl, rfl, rfl, rfl, rfl,
        rfl⟩ rfl h.memory h.cursorOneHot h.copyLeftSmall ?_⟩
    have := h9 c
    exact ⟨c, le_refl 8, by show 8 ≤ s.srcLen.toNat; omega, Nat.zero_le _, fun e => absurd rfl e⟩
  · right
    have hc : s.isCompress = true := by tauto
    have hw := (hreg (.inr hc)).1
    have hz := hsz hc
    have hlen : s.headerBytes.length = 8 := rfl
    unfold compressBegin
    rw [dstWrites_ok _ (by omega) hw, andThen_next]
    refine ⟨_, rfl, inv_body h hbusy hck ⟨rfl, rfl, rfl, rfl, rfl, rfl, rfl, rfl⟩ rfl ?_ rfl h.copyLeftSmall ?_⟩
    · exact Memory.wf_writeList h.memory (by omega)
    · exact ⟨hc, Nat.zero_le _, le_refl 8, (by decide : (8:Nat) < (9#32).toNat), 1, 0, rfl, by omega, le_refl _,
        fun _ => rfl, Nat.zero_le _, (by decide : (9#32).toNat ≤ 8 + 1 + (0#32).toNat)⟩

/-- A change outside a command that keeps STATUS, `phase`, `bit` and `copy_left`. -/
theorem inv_quiet {s t : State} (h : Inv s) (hb : s.busy = false) (h1 : t.status = s.status) (h2 : t.phase = s.phase)
    (h3 : t.mem.wf = true) (h4 : t.bit = s.bit) (h5 : t.copyLeft = s.copyLeft) (h6 : t.tainted = s.tainted) : Inv t := by
  have hb' : t.busy = false := by unfold State.busy; rw [h1]; exact hb
  have hph : s.phase.commandState ≠ .busy := by
    rw [← h.statusFollowsPhase]; intro e; rw [State.busy_iff.mpr e] at hb; cases hb
  exact {
    memory := h3
    statusFollowsPhase := by rw [h1, h2]; exact h.statusFollowsPhase
    causeOnlyOnFault := by rw [h1, h2]; exact h.causeOnlyOnFault
    cursorOneHot := by rw [h4]; exact h.cursorOneHot
    copyLeftSmall := by rw [h5]; exact h.copyLeftSmall
    claimHeld := by intro e; rw [hb'] at e; cases e
    taintedBusy := by intro e; rw [h6] at e; have := h.taintedBusy e; rw [hb] at this; cases this
    checksHold := by
      intro e
      have := commandState_of_inBody e
      rw [h2] at this; exact absurd this hph
    ranges := by
      have : t.phase = .idle ∨ t.phase = .done ∨ t.phase = .fault := by
        rw [h2]; cases e : s.phase <;> rw [e] at hph <;> first | (exact absurd rfl hph) | simp
      rcases this with e | e | e <;> simp only [WorkingRanges, e]  }

/-- A CMD write keeps the invariant (R28). -/
theorem inv_start {s : State} (h : Inv s) (op : Byte) : Inv (startCommand op s) := by
  cases hb : s.busy
  · rw [startCommand_of_not_busy hb]
    exact { memory := h.memory, statusFollowsPhase := rfl, causeOnlyOnFault := rfl, cursorOneHot := h.cursorOneHot,
            copyLeftSmall := h.copyLeftSmall, claimHeld := fun _ => rfl, taintedBusy := fun e => (by cases e),
            checksHold := fun e => (by cases e), ranges := trivial }
  · rw [startCommand_of_busy hb]; exact h

/-- A change of memory and of the model's own bookkeeping only. -/
theorem inv_bookkeeping {s t : State} (h : Inv s)
    (e : ∃ i hi d b m,
      t = { s with
        inputs := i
        history := hi
        draws := d
        devices := b
        mem := m } ∧ m.wf = true) : Inv t := by
  obtain ⟨i, hi, d, b, m, rfl, hm⟩ := e
  exact { memory := hm, statusFollowsPhase := h.statusFollowsPhase, causeOnlyOnFault := h.causeOnlyOnFault,
          cursorOneHot := h.cursorOneHot, copyLeftSmall := h.copyLeftSmall, claimHeld := h.claimHeld,
          taintedBusy := h.taintedBusy, checksHold := h.checksHold, ranges := h.ranges }

/-- A forbidden store after a command's end keeps the invariant (assumption 8). -/
theorem inv_disturb {s : State} (hm : s.mem.wf = true) (hb : oneHot s.bit = true) (hc : s.copyLeft.toNat ≤ 17) :
    Inv (disturb s) :=
  inv_bookkeeping (inv_spoil hm hb hc) ⟨_, _, _, _, _, rfl, (inv_spoil hm hb hc).memory⟩

end Sys2Proof.Machine
end

