-- ==== Sys2Proof/Laws/PerInstr.lean ====
section
/-! SUPPORT. Facts about every instruction as syntax, one lemma per constructor. -/

namespace Sys2Proof.Laws

/-- The place an instruction stands in gives the size of its encoding (30_encoding.md R87, R20), and a place of that
size is what the decoder takes from the front of the bytes. -/
def EncodedSize.Statement (i : Instr) : Prop := (encode i).length = i.context.size

theorem EncodedSize.flags (f : Byte) : EncodedSize.Statement (.flags f) := rfl

theorem EncodedSize.lit (b : Byte) : EncodedSize.Statement (.lit b) := rfl

theorem EncodedSize.ref (distance length : Nat) : EncodedSize.Statement (.ref distance length) := rfl

theorem EncodedSize.mask : EncodedSize.Statement .mask := rfl

theorem EncodedSize.decompress : EncodedSize.Statement .decompress := rfl

theorem EncodedSize.compress : EncodedSize.Statement .compress := rfl

end Sys2Proof.Laws
end

