-- ==== Sys2Proof/Laws/Platform.lean ====
section
/-! SUPPORT. Several cores: no step changes whose free values a core draws, what a sweep over the other cores leaves,
and when two cores conflict. -/

namespace Sys2Proof.Machine

/-! ## The stream of free values -/

@[simp] theorem conclude_stream (how : Ending) (p q : Word) (s : State) : (conclude how p q s).stream = s.stream := by
  unfold conclude; split <;> rfl

@[simp] theorem raiseCorrupt_stream (r : CorruptReason) (s : State) : (raiseCorrupt r s).stream = s.stream :=
  conclude_stream _ _ _ _

@[simp] theorem raiseInvalid_stream (r : InvalidReason) (s : State) : (raiseInvalid r s).stream = s.stream :=
  conclude_stream _ _ _ _

@[simp] theorem startCommand_stream (op : Byte) (s : State) : (startCommand op s).stream = s.stream := by
  unfold startCommand; split <;> rfl

@[simp] theorem writeReg_stream (r : HostReg) (v : Word) (s : State) : (writeReg r v s).stream = s.stream := by
  unfold writeReg; split
  · rfl
  · cases r <;> rfl

@[simp] theorem noteHostWrite_stream (a : Nat) (s : State) : (noteHostWrite a s).stream = s.stream := by
  unfold noteHostWrite violate; split_ifs <;> rfl

theorem dstWrite_stream {j : Nat} {v : Byte} {s t : State} (h : dstWrite j v s = .next t) : t.stream = s.stream := by
  obtain ⟨_, _, rfl⟩ := dstWrite_eq_next.mp h
  rfl

theorem dstWrites_stream {bs : List Byte} : ∀ {j : Nat} {s t : State}, dstWrites j bs s = .next t →
    t.stream = s.stream := by
  induction bs with
  | nil => intro j s t h; injection h with h; rw [h]
  | cons b bs ih =>
    intro j s t h
    obtain ⟨u, hu, hv⟩ := andThen_eq_next.mp h
    exact (ih hv).trans (dstWrite_stream hu)

theorem exec_stream {i : Instr} {s t : State} (h : exec i s = .next t) : t.stream = s.stream := by
  cases i with
  | flags f => injection h with h; rw [← h]
  | lit b =>
    simp only [exec, execLit] at h
    split at h
    · injection h with h; rw [← h]; simp
    · obtain ⟨u, hu, hv⟩ := andThen_eq_next.mp h
      injection hv with hv; rw [← hv]; simpa using dstWrite_stream hu
  | ref d l =>
    simp only [exec, execRef] at h
    split_ifs at h <;> injection h with h <;> rw [← h] <;> simp
  | mask => injection h with h; rw [← h]; simp
  | decompress => injection h with h; rw [← h]; simp
  | compress => injection h with h; rw [← h]; simp

theorem flagsStep_stream {s t : State} (h : flagsStep s = .next t) : t.stream = s.stream := by
  obtain ⟨r, -, hr⟩ := withValue_eq_next.mp h
  cases r with
  | error e => cases hr
  | ok i => exact exec_stream hr

theorem tokenStep_stream {s t : State} (h : tokenStep s = .next t) : t.stream = s.stream := by
  obtain ⟨r, -, hr⟩ := withValue_eq_next.mp h
  cases r with
  | error e => injection hr with hr; rw [← hr]; simp
  | ok i =>
    obtain ⟨u, hu, hv⟩ := andThen_eq_next.mp hr
    injection hv with hv
    have := exec_stream hu
    rw [← hv, endToken]; split <;> simpa using this

theorem encodeStep_stream {s t : State} (h : encodeStep s = .next t) : t.stream = s.stream := by
  unfold encodeStep at h
  split_ifs at h
  · obtain ⟨u, hu, hv⟩ := andThen_eq_next.mp h
    obtain ⟨w, hw, hx⟩ := andThen_eq_next.mp hv
    injection hx with hx
    have h1 : u.stream = s.stream := by
      unfold nextGroup at hu
      split_ifs at hu
      · obtain ⟨x, hx, hy⟩ := andThen_eq_next.mp hu
        injection hy with hy; rw [← hy]; simpa using dstWrite_stream hx
      · injection hu with hu; rw [hu]
    rw [← hx]; simpa using (dstWrites_stream hw).trans h1
  · obtain ⟨u, hu, hv⟩ := andThen_eq_next.mp h
    injection hv with hv
    rw [← hv, finish, conclude_stream]; exact dstWrite_stream hu

theorem coreStep_stream {s t : State} (h : coreStep s = .next t) : t.stream = s.stream := by
  unfold coreStep at h
  split at h
  · injection h with h; rw [h]
  · injection h with h; rw [h]
  · injection h with h; rw [h]
  · unfold checkStep at h
    split at h
    · injection h with h; rw [← h]; simp
    · unfold beginBody at h
      split_ifs at h
      · injection h with h; rw [← h]
      · injection h with h; rw [← h]
      · obtain ⟨u, hu, hv⟩ := andThen_eq_next.mp h
        injection hv with hv; rw [← hv]; exact (dstWrites_stream hu :)
  · unfold maskStep at h
    split_ifs at h
    · obtain ⟨b, -, hb⟩ := withValue_eq_next.mp h
      obtain ⟨u, hu, hv⟩ := andThen_eq_next.mp hb
      obtain ⟨a, -, ha⟩ := withValue_eq_next.mp hu
      injection ha with ha; injection hv with hv
      rw [← hv, ← ha]; simp
    · injection h with h; rw [← h, finish]; simp
  · unfold decodeStep at h
    split_ifs at h
    · exact flagsStep_stream h
    · exact tokenStep_stream h
    · exact flagsStep_stream h
    · exact tokenStep_stream h
    · injection h with h; rw [← h, decompressFinish, finish]; simp
  · unfold copyStep at h
    split_ifs at h
    · obtain ⟨b, -, hb⟩ := withValue_eq_next.mp h
      obtain ⟨u, hu, hv⟩ := andThen_eq_next.mp hb
      injection hv with hv; rw [← hv]; simpa using dstWrite_stream hu
    · injection h with h; rw [← h]; simp
  · exact encodeStep_stream h

theorem hostStep_stream {i : Input} {s t : State} (h : hostStep i s = .next t) : t.stream = s.stream := by
  cases i with
  | turn => exact coreStep_stream h
  | regWrite off w v =>
    simp only [hostStep, hostRegWrite] at h
    split_ifs at h
    split at h
    · obtain ⟨op, e⟩ := commandWrite_cases v s
      rw [e] at h; injection h with h; rw [← h]; simp
    · injection h with h; rw [← h]; simp
  | regRead off w =>
    simp only [hostStep] at h
    split_ifs at h
    injection h with h; rw [← h]; unfold hostRegRead; split_ifs <;> rfl
  | memWrite a v =>
    simp only [hostStep, hostMemWrite] at h
    split_ifs at h
    injection h with h; rw [← h]; simp
  | memRead a =>
    simp only [hostStep, hostMemRead] at h
    split_ifs at h <;> injection h with h <;> rw [← h] <;> rfl
  | reset => injection h with h; rw [← h]; rfl

/-- A step draws from the core's own stream and leaves it so (R197; assumption 29). -/
theorem step_stream {s t : State} (h : step s = .next t) : t.stream = s.stream := by
  unfold step advance at h
  split at h
  · exact coreStep_stream h
  · exact (hostStep_stream h).trans rfl

/-! ## A core on a platform -/

@[simp] theorem onPlatform_mem (m : Memory) (k : Nat) (s : State) : (s.onPlatform m k).mem = m := rfl
@[simp] theorem onPlatform_stream (m : Memory) (k : Nat) (s : State) : (s.onPlatform m k).stream = k := rfl
@[simp] theorem onPlatform_status (m : Memory) (k : Nat) (s : State) : (s.onPlatform m k).status = s.status := rfl
@[simp] theorem onPlatform_claim (m : Memory) (k : Nat) (s : State) : (s.onPlatform m k).claim = s.claim := rfl
@[simp] theorem onPlatform_inputs (m : Memory) (k : Nat) (s : State) : (s.onPlatform m k).inputs = s.inputs := rfl
@[simp] theorem onPlatform_guards (m : Memory) (k : Nat) (s : State) (a : Nat) :
    (s.onPlatform m k).guards a = s.guards a := rfl
@[simp] theorem onPlatform_hides (m : Memory) (k : Nat) (s : State) (a : Nat) :
    (s.onPlatform m k).hides a = s.hides a := rfl

/-- A core that draws from stream `k` is, over its own memory, core `k` as it stands. -/
theorem onPlatform_self {k : Nat} {s : State} (h : s.stream = k) : s.onPlatform s.mem k = s := by subst h; rfl

/-! ## Running ahead -/

/-- At rest, running ahead changes nothing. -/
theorem runAlone_of_not_busy {s : State} (h : s.busy = false) (fuel : Nat) : s.runAlone fuel = s := by
  cases fuel <;> simp [State.runAlone, h]

/-- BUSY, running ahead takes CORE's own step. -/
theorem runAlone_succ {s t : State} (h : s.busy = true) (hs : coreStep s = .next t) (fuel : Nat) :
    s.runAlone (fuel + 1) = t.runAlone fuel := by
  simp [State.runAlone, h, hs]

/-- What a marked command reads and writes is the most it can (R220). -/
theorem footprint_of_tainted {s : State} (h : s.tainted = true) : s.footprint = s.reach := if_pos h

/-- What another command is left alone to read and write is what it has accessed at its end. -/
theorem footprint_of_untainted {s : State} (h : s.tainted = false) :
    s.footprint = (s.runAlone s.stepBound).accessed := if_neg (by simp [h])

/-- Which memory and which stream the second core carries does not matter to a conflict: both are seen over the first
one's memory. -/
@[simp] theorem conflictsWith_onPlatform (m : Memory) (k : Nat) (s t : State) :
    s.conflictsWith (t.onPlatform m k) = s.conflictsWith t := rfl

/-! ## Looking over the other cores -/

/-- A sweep that leaves the memory alone applies its function to every core but number `k`. -/
theorem sweepOthers_of_mem {f : State → State} (k : Nat) : ∀ (l : List State) (i : Nat) (m : Memory),
    (∀ (j : Nat) (u : State), l[j]? = some u → i + j ≠ k → (f (u.onPlatform m (i + j))).mem = m) →
    (sweepOthers f k i l m).2 = m ∧
      ∀ j : Nat, (sweepOthers f k i l m).1[j]? =
        (l[j]?).map fun u => if i + j = k then u else f (u.onPlatform m (i + j)) := by
  intro l
  induction l with
  | nil => intro i m _; exact ⟨rfl, fun j => by simp [sweepOthers]⟩
  | cons s l ih =>
    intro i m h
    have shift : ∀ j : Nat, i + (j + 1) = i + 1 + j := fun j => by omega
    obtain ⟨a, b⟩ := ih (i + 1) m (fun j u hu hj => by
      have := h (j + 1) u (by simpa using hu) (by omega)
      rwa [shift j] at this)
    unfold sweepOthers
    split_ifs with hik
    · refine ⟨a, fun j => ?_⟩
      cases j with
      | zero => simp [hik]
      | succ j => rw [List.getElem?_cons_succ, b j, List.getElem?_cons_succ, shift j]
    · rw [show (f (s.onPlatform m i)).mem = m from h 0 s (by simp) (by simpa using hik)]
      refine ⟨a, fun j => ?_⟩
      cases j with
      | zero => simp [hik]
      | succ j => rw [List.getElem?_cons_succ, b j, List.getElem?_cons_succ, shift j]

/-- Some other core satisfies `q` exactly when one is found by its number. -/
theorem anyOther_iff {q : State → Bool} (k : Nat) : ∀ (l : List State) (i : Nat),
    anyOther q k i l = true ↔ ∃ (j : Nat) (u : State), l[j]? = some u ∧ i + j ≠ k ∧ q u = true := by
  intro l
  induction l with
  | nil => intro i; simp [anyOther]
  | cons s l ih =>
    intro i
    unfold anyOther
    rw [Bool.or_eq_true, Bool.and_eq_true, bne_iff_ne, ih (i + 1)]
    constructor
    · rintro (⟨h, hq⟩ | ⟨j, u, hu, hj, hq⟩)
      · exact ⟨0, s, by simp, by simpa using h, hq⟩
      · exact ⟨j + 1, u, by simpa using hu, by omega, hq⟩
    · rintro ⟨j, u, hu, hj, hq⟩
      cases j with
      | zero =>
        simp only [List.getElem?_cons_zero, Option.some.injEq] at hu
        exact .inl ⟨by simpa using hj, hu ▸ hq⟩
      | succ j => exact .inr ⟨j, u, by simpa using hu, by omega, hq⟩

end Sys2Proof.Machine
end

