-- ==== Sys2Proof/Tests/Slice0.lean ====
section
/-! SUPPORT. The model's own tests: expected values are the spec's (95_test_vectors.md, or written out from the
encodings of 30_encoding.md), never the model's; and for every statement with hypotheses a state that meets them. -/

namespace Sys2Proof.Tests

open Sys2Proof Sys2Proof.Machine

/-! ## Well-formedness: each check refuses an ill-formed term -/

theorem test_wf_distance_refused : (Instr.ref 4096 2).distanceFits = false ∧ (Instr.ref 4096 2).wf = false := by decide
theorem test_wf_short_refused : (Instr.ref 1 1).lengthFits = false ∧ (Instr.ref 1 1).wf = false := by decide
theorem test_wf_long_refused : (Instr.ref 1 18).lengthFits = false ∧ (Instr.ref 1 18).wf = false := by decide
theorem test_wf_accepts : (Instr.ref 4095 17).wf = true ∧ (Instr.ref 0 2).wf = true := by decide

/-! ## Decoding and encoding, from words written out bit by bit (R82 to R86, R95) -/

/-- `d[15:4]` = 0001 0010 0011 (291), `d[3:0]` = 0100 (6 - 2); low byte first (V68). -/
theorem test_decode_ref :
    decode .reference [0b00110100, 0b00010010, 0x77] = .ok (.ref 291 6, [0x77]) := by decide
/-- `d[15:4]` = 4095, `d[3:0]` = 0 (V64). -/
theorem test_decode_ref_far : decode .reference [0b11110000, 0b11111111] = .ok (.ref 4095 2, []) := by decide
/-- 30_encoding.md R86: `D = 1, L = 4` is `12 00`; 95_test_vectors.md 2.2: `REF 8, 8` is `86 00`. -/
theorem test_encode_ref : encode (.ref 1 4) = [0x12, 0x00] ∧ encode (.ref 8 8) = [0x86, 0x00] := by decide
theorem test_decode_flags : decode .flagByte [0b00000111] = .ok (.flags 0b00000111, []) := by decide
theorem test_decode_lit : decode .literal [0b01000001] = .ok (.lit 0x41, []) := by decide
theorem test_decode_mask : decode .command [0b00000001, 0xFF, 0xFF, 0xFF] = .ok (.mask, []) := by decide
theorem test_decode_decompress : decode .command [0b00000010, 0, 0, 0x80] = .ok (.decompress, []) := by decide
theorem test_decode_compress : decode .command [0b00000011, 0, 0, 0] = .ok (.compress, []) := by decide
theorem test_decode_bad_command : decode .command [0b00000100, 0, 0, 0] = .error (.badCommand 0x04) := by decide
theorem test_decode_truncated : decode .reference [0x12] = .error .truncated := by decide
/-- V11 and V17, from their tokens: where the flag bytes go and which bit is which token's (R82, R97). -/
theorem test_assemble :
    assemble [0, 0, 0, 0, 0, 0, 0, 0] (runOf 0x41 5) = [0, 0, 0, 0, 0, 0, 0, 0, 0x01, 0x41, 0x12, 0x00] ∧
    (assemble [] [.lit 0x41, .lit 0x42, .lit 0x43, .lit 0x44, .lit 0x45, .lit 0x46, .lit 0x47, .ref 1 2, .lit 0x5A])
      = [0x7F, 0x41, 0x42, 0x43, 0x44, 0x45, 0x46, 0x47, 0x10, 0x00, 0x01, 0x5A] ∧
    assemble [] [] = [0x00] := by decide
theorem test_table_words :
    decodeTableWord 8 0x17 = some (.flags 0x17) ∧ decodeTableWord 16 0x0012 = some (.ref 1 4) ∧
      decodeTableWord 8 1 = some .mask ∧ decodeTableWord 32 2 = some .decompress ∧
      decodeTableWord 32 0xFFFFFF03 = some .compress ∧ decodeTableWord 32 4 = none := by decide

/-- R25: header bytes 0 to 3 are HDR_LO's, least significant first, then HDR_HI's. -/
theorem test_header_bytes :
    ({ State.reset with hdrLo := 0x04030201, hdrHi := 0x08070605 } : State).headerBytes = [1, 2, 3, 4, 5, 6, 7, 8] := by
  decide

/-! ## Small states -/

/-- The next state of a result. -/
def got (r : Result) : State :=
  match r with
  | .next t => t
  | .fault _ => State.reset
  | .refused _ => State.reset

/-- Memory holding bytes from an address on. -/
def bytesAt (a : Nat) (bs : List Byte) : Memory := Memory.writeList [] a bs

/-- MASK over four zero bytes (V1). -/
def maskJob : State := { State.reset with srcBase := 0x1000, srcLen := 4 }

/-- DECOMPRESS of V11's stream: `LIT 41; REF 1,4` into five bytes. -/
def decJob : State :=
  { State.reset with
    srcBase := 0x1000, srcLen := 12, dstBase := 0x2000, dstLen := 5, mem := bytesAt 0x1008 [0x01, 0x41, 0x12, 0x00] }

/-- COMPRESS of V44's input: five bytes 41, into 8 + 5 + 1 bytes. -/
def encJob : State :=
  { State.reset with
    srcBase := 0x1000, srcLen := 5, dstBase := 0x2000, dstLen := 14
    mem := bytesAt 0x1000 [0x41, 0x41, 0x41, 0x41, 0x41] }

/-- A command with this code is running, in this phase. -/
def running (op : Byte) (p : Phase) (s : State) : State :=
  { s with status := { state := .busy, cause := none, lastOp := op }, phase := p, claim := some (claimFor op s) }

/-- MASK before its first byte. -/
def masking : State := running 0x01 .maskRun maskJob

/-- V11's stream before `F0`. -/
def atF0 : State := running 0x02 .decRun { decJob with srcPos := 8 }

/-- V11's stream before its literal. -/
def atLit : State := running 0x02 .decRun { decJob with srcPos := 9, flag := 0x01 }

/-- V11's stream before its reference, with the literal written. -/
def atRef : State :=
  running 0x02 .decRun { decJob with srcPos := 10, dstPos := 1, flag := 0x01, bit := 2, mem := decJob.mem.write 0x2000 0x41 }

/-- V11's copy before its last byte. -/
def atCopy : State :=
  running 0x02 .decCopy { decJob with
    srcPos := 12, dstPos := 4, flag := 0x01, bit := 2, copyFrom := 3, copyLeft := 1
    mem := Memory.writeList decJob.mem 0x2000 [0x41, 0x41, 0x41, 0x41] }

/-- V44's input before its second token, the reference. -/
def atMatch : State :=
  running 0x03 .encRun { encJob with
    srcPos := 1, dstPos := 10, flagPos := 8, flag := 1, bit := 2, mem := encJob.mem.write 0x2009 0x41 }

/-! ## One step of each instruction -/

theorem test_mask_first_key_byte : (got (step masking)).mem.read 0x1000 = 0x8B ∧ (got (step masking)).srcPos = 1 := by
  decide
/-- V3: OFFSET 2, the byte 33 under KEY[0] is B8. -/
theorem test_mask_offset :
    (got (step (running 0x01 .maskRun { maskJob with offset := 2, srcPos := 2, mem := bytesAt 0x1002 [0x33] }))).mem.read
      0x1002 = 0xB8 := by decide
theorem test_flags_step :
    (got (step atF0)).flag = 0x01 ∧ (got (step atF0)).bit = 1 ∧ (got (step atF0)).srcPos = 9 := by decide
theorem test_lit_step :
    (got (step atLit)).mem.read 0x2000 = 0x41 ∧ (got (step atLit)).dstPos = 1 ∧ (got (step atLit)).bit = 2 := by decide
/-- V29, before its last token: `F1` was SRC's last byte, so the literal's offset is SRC_LEN (R128). -/
def atTruncated : State :=
  running 0x02 .decRun { decJob with srcLen := 18, dstLen := 9, srcPos := 18, dstPos := 8, flag := 1 }
theorem test_lit_truncated :
    (got (step atTruncated)).status.word = 0x00020323 ∧ (got (step atTruncated)).srcPosReg = 18 ∧
      (got (step atTruncated)).dstPosReg = 8 := by decide
theorem test_ref_step :
    (got (step atRef)).phase = .decCopy ∧ (got (step atRef)).copyFrom = 0 ∧ (got (step atRef)).copyLeft = 4 := by decide
/-- R124, R125: distance 1 with an empty output faults, at the token's first byte. -/
theorem test_ref_beyond_output :
    (got (step { atRef with dstPos := 0 })).status.word = 0x00020223 ∧
      (got (step { atRef with dstPos := 0 })).srcPosReg = 10 ∧ (got (step { atRef with dstPos := 0 })).dstPosReg = 0 := by
  decide
theorem test_copy_step : (got (step atCopy)).mem.read 0x2004 = 0x41 ∧ (got (step atCopy)).copyLeft = 0 := by decide
theorem test_decompress_starts :
    (got (exec .decompress decJob)).status.word = 0x00020001 ∧ (got (exec .decompress decJob)).phase = .check := by decide
/-- V30: SRC_LEN 8 is too short. -/
theorem test_decompress_too_short :
    (got (step (running 0x02 .check { decJob with srcLen := 8 }))).status.word = 0x00020413 := by decide
/-- R86: `REF 1, 4` is `12 00`, written after the literal. -/
theorem test_compress_reference :
    (got (step atMatch)).mem.read 0x200A = 0x12 ∧ (got (step atMatch)).srcPos = 5 ∧ (got (step atMatch)).dstPos = 12 := by
  decide
/-- R152: one byte less than 8 + 5 + 1 is too small. -/
theorem test_compress_too_small :
    (got (step (running 0x03 .check { encJob with dstLen := 13 }))).status.word = 0x00030513 := by decide
/-- V10b: a region that wraps. -/
theorem test_mask_region_wrap :
    (got (step (running 0x01 .check { maskJob with srcBase := 0xFFFFFFFE, srcLen := 3 }))).status.word = 0x00010213 := by
  decide
/-- V1 and V11, whole commands. -/
theorem test_mask_command :
    (got (Host.Core.run Sys2Proof.core 6 (got (exec .mask maskJob)))).status.word = 0x00010002 ∧
    (got (Host.Core.run Sys2Proof.core 6 (got (exec .mask maskJob)))).mem = bytesAt 0x1000 [0x8B, 0xE5, 0x5D, 0xC3] := by
  decide
/-- A table word, placed by `withFetchWord`, is what the next step runs (R124: a reference on an empty output). -/
theorem test_fetch_word :
    (got (step (State.reset.withFetchWord 16 0x0012))).status.word = 0x00020223 ∧
    (got (step (State.reset.withFetchWord 8 0x17))).flag = 0x17 ∧
    (got (step (State.reset.withFetchWord 8 3))).status.word = 0x00030001 := by decide

/-! ## Witnesses: states that meet the hypotheses of each statement, clause by clause -/

theorem witness_DecodeOfEncode :
    (Instr.ref 4095 17).wf = true ∧ (Instr.ref 0 2).wf = true ∧ (Instr.flags 0xFF).wf = true ∧
      (Instr.lit 0).wf = true ∧ Instr.mask.wf = true ∧ Instr.decompress.wf = true ∧ Instr.compress.wf = true := by decide

theorem witness_CommandCodeSelects :
    ({ maskJob with inputs := [.regWrite 0 .word 0x04] } : State).inputs = [.regWrite 0 .word 0x04] ∧
      ({ maskJob with inputs := [.regWrite 0 .word 0x04] } : State).busy = false ∧
      (0x04 : Word).toNat % 256 ≠ 1 ∧ (0x04 : Word).toNat % 256 ≠ 2 ∧ (0x04 : Word).toNat % 256 ≠ 3 := by decide

theorem witness_StreamSize :
    ([0, 0, 0, 0, 0, 0, 0, 0] : List Byte).length = 8 ∧
      (∀ t ∈ [Instr.lit 0x41, Instr.ref 1 4], t.isToken = true ∧ t.wf = true) ∧
      expand [.lit 0x41, .ref 1 4] [] = some [0x41, 0x41, 0x41, 0x41, 0x41] ∧
      (∀ t ∈ [Instr.lit 0x41, Instr.lit 0x42], selector t = 1) ∧
      expand [.lit 0x41, .lit 0x42] [] = some [0x41, 0x42] := by decide

theorem witness_ResetValues :
    ({ maskJob with inputs := [.reset] } : State).inputs = .reset :: [] ∧
      ({ maskJob with inputs := [.reset] } : State).busy = false := by decide

theorem witness_ResetAbandonsCommand_mask :
    ({ masking with inputs := [.reset] } : State).inputs = .reset :: [] ∧
      ({ masking with inputs := [.reset] } : State).busy = true ∧
      ({ masking with inputs := [.reset] } : State).mem.wf = true ∧
      ({ masking with inputs := [.reset] } : State).claim = some (claimFor masking.status.lastOp masking) ∧
      masking.status.lastOp = 0x01 := by decide
theorem witness_ResetAbandonsCommand_streams :
    atRef.busy = true ∧ atRef.mem.wf = true ∧ atRef.claim = some (claimFor atRef.status.lastOp atRef) ∧
      atRef.status.lastOp = 0x02 ∧ atMatch.busy = true ∧ atMatch.mem.wf = true ∧
      atMatch.claim = some (claimFor atMatch.status.lastOp atMatch) ∧ atMatch.status.lastOp = 0x03 := by decide

/-- A BUSY code that is no command. -/
theorem witness_ResetAbandonsCommand_bad_code :
    (running 0x04 .check maskJob).busy = true ∧ (running 0x04 .check maskJob).mem.wf = true ∧
      (running 0x04 .check maskJob).claim = some (claimFor 0x04 maskJob) := by decide

/-- One state for each of the seven registers: its next input is the write. -/
theorem witness_PlainRegistersAreWritten :
    ∀ off ∈ [(0x08 : BitVec 6), 0x0C, 0x10, 0x14, 0x18, 0x1C, 0x20],
      ({ maskJob with inputs := [.regWrite off .word 0xFFFFFFFF] } : State).inputs = .regWrite off .word 0xFFFFFFFF :: [] ∧
      ({ maskJob with inputs := [.regWrite off .word 0xFFFFFFFF] } : State).busy = false := by decide

theorem witness_ReadOnlyIgnoresWrites :
    ∀ off ∈ [(0x04 : BitVec 6), 0x24, 0x28, 0x2C, 0x3C],
      ({ maskJob with inputs := [.regWrite off .word 1] } : State).inputs = .regWrite off .word 1 :: [] ∧
      off.toNat % 4 = 0 ∧ (off.toNat = 0x04 ∨ 0x24 ≤ off.toNat) := by decide

theorem witness_WritesWhileBusyAreLost :
    ({ masking with inputs := [.regWrite 0 .word 1] } : State).inputs = .regWrite 0 .word 1 :: [] ∧
      (0 : BitVec 6).toNat % 4 = 0 ∧ ({ masking with inputs := [.regWrite 0 .word 1] } : State).busy = true := by decide

theorem witness_HostReadsRegisters :
    ∀ off ∈ [(0x00 : BitVec 6), 0x04, 0x08, 0x0C, 0x10, 0x14, 0x18, 0x1C, 0x20, 0x24, 0x28, 0x2C, 0x3C],
      ({ maskJob with inputs := [.regRead off .word] } : State).inputs = .regRead off .word :: [] ∧
      off.toNat % 4 = 0 ∧ ¬ (maskJob.busy = true ∧ (off.toNat = 0x24 ∨ off.toNat = 0x28)) := by decide

theorem witness_PositionsAreFreeWhileBusy :
    ∀ off ∈ [(0x24 : BitVec 6), 0x28],
      ({ masking with inputs := [.regRead off .word] } : State).inputs = .regRead off .word :: [] ∧
      ({ masking with inputs := [.regRead off .word] } : State).busy = true ∧
      (off.toNat = 0x24 ∨ off.toNat = 0x28) := by decide

theorem witness_OtherAccessesAreRefused :
    ((Width.byte ≠ .word ∨ (0x04 : BitVec 6).toNat % 4 ≠ 0) ∧
      ({ maskJob with inputs := [.regRead 0x04 .byte] } : State).inputs = .regRead 0x04 .byte :: []) ∧
    ((Width.word ≠ .word ∨ (0x3F : BitVec 6).toNat % 4 ≠ 0) ∧
      ({ maskJob with inputs := [.regWrite 0x3F .word 0] } : State).inputs = .regWrite 0x3F .word 0 :: []) := by decide

/-- A state at rest after a fault, that meets the invariant. -/
def faulted : State :=
  { decJob with
    status := { state := .fault, cause := some (.corruptData .zeroDistance), lastOp := 0x02 }
    phase := .fault, srcPosReg := 10, dstPosReg := 1, claim := some (claimFor 0x02 decJob) }

theorem inv_faulted (i : List Input) : Inv { faulted with inputs := i } where
  memory := (by decide : decJob.mem.wf = true)
  statusFollowsPhase := rfl
  causeOnlyOnFault := rfl
  cursorOneHot := rfl
  copyLeftSmall := Nat.zero_le _
  claimHeld := fun h => nomatch h
  taintedBusy := fun h => nomatch h
  checksHold := fun h => nomatch h
  ranges := trivial

/-- With a load, a store outside the lent buffers, a read of STATUS, and a write of SRC_BASE as the next input. -/
theorem witness_FaultRecordStays :
    ∀ i ∈ [Input.memRead 0, .memWrite 0 1, .regRead 4 .word, .regWrite 8 .word 1],
      ({ faulted with inputs := [i] } : State).busy = false ∧
      (got (step { faulted with inputs := [i] })).inputs = [] ∧
      (match i with
        | .regWrite off _ _ => off.toNat ≠ 0
        | .memWrite a _ => faulted.guards a.toNat = false
        | .turn | .regRead _ _ | .memRead _ => True
        | .reset => False) := by
  intro i hi
  simp only [List.mem_cons, List.not_mem_nil, or_false] at hi
  rcases hi with rfl | rfl | rfl | rfl <;> decide

/-- R190: a store to a lent byte after a command's end is no second end of a command. -/
theorem test_disturbed_is_no_second_end :
    (got (step { faulted with inputs := [.memWrite 0x1008 1] })).history.map
        (fun e => match e with
          | .ended _ _ _ _ => 1
          | .disturbed _ _ _ _ => 2
          | .regRead _ _ => 3
          | .memRead _ _ => 4
          | .reset => 5) = [2] := by decide

theorem witness_CommandsStart : maskJob.busy = false ∧ faulted.busy = false := by decide

theorem witness_CommandStartFrame :
    exec .mask maskJob = .next (got (exec .mask maskJob)) ∧ exec .compress masking = .next masking := ⟨rfl, rfl⟩

/-- One state for each check at its boundary, in R183's order, and one that passes them all. -/
theorem witness_ArgumentChecksInOrder :
    [ running 0x04 .check maskJob,
      running 0x01 .check { maskJob with srcBase := 0xFFFFFFFD },
      running 0x03 .check { encJob with dstBase := 0xFFFFFFF3 },
      running 0x01 .check { maskJob with offset := 5 },
      running 0x02 .check { decJob with srcLen := 8 },
      running 0x03 .check { encJob with dstLen := 13 },
      running 0x02 .check { decJob with dstBase := 0x100B },
      running 0x02 .check decJob ].map (fun s => (s.phase, s.inputs, failedCheck s)) =
    [ (.check, [], some .badCommand), (.check, [], some .regionWrap), (.check, [], some .regionWrap),
      (.check, [], some .offsetGtLen), (.check, [], some .srcTooShort), (.check, [], some .dstTooSmall),
      (.check, [], some .overlap), (.check, [], none) ] := by decide

theorem witness_InvalidArgumentEffect :
    (running 0x02 .check { decJob with srcLen := 8 }).tainted = false ∧
      failedCheck (running 0x02 .check { decJob with srcLen := 8 }) = some .srcTooShort := by decide

/-- With and without a device range over DST's last byte. -/
theorem witness_NonOrdinaryLaunchIsRefused :
    failedCheck (running 0x02 .check { decJob with devices := [⟨0x2004, 1⟩] }) = none ∧
      ¬ (running 0x02 .check { decJob with devices := [⟨0x2004, 1⟩] }).ordinary 0x02 ∧
      failedCheck (running 0x02 .check { decJob with devices := [⟨0x2005, 1⟩] }) = none ∧
      (running 0x02 .check { decJob with devices := [⟨0x2005, 1⟩] }).ordinary 0x02 := by
  unfold State.ordinary; decide

theorem witness_LiteralEffect :
    atLit.srcPos.toNat < atLit.srcLen.toNat ∧ atLit.dstPos.toNat < atLit.dstLen.toNat ∧
      atLit.dstBase.toNat + atLit.dstLen.toNat ≤ 4294967296 := by decide

theorem witness_LiteralTruncated :
    ({ atLit with srcLen := 9 } : State).srcLen.toNat ≤ ({ atLit with srcLen := 9 } : State).srcPos.toNat ∧
      ({ atLit with srcLen := 9 } : State).tainted = false := by decide

/-- The descriptor ends at SRC's end, and the distance is the whole output. -/
theorem witness_ReferenceEffect :
    (Instr.ref 1 4).wf = true ∧ atRef.srcPos.toNat + 2 ≤ atRef.srcLen.toNat ∧ 1 ≤ 1 ∧ 1 ≤ atRef.dstPos.toNat := by decide

theorem witness_ReferenceFaults :
    atRef.tainted = false ∧ ({ atRef with srcLen := 11 } : State).srcLen.toNat < atRef.srcPos.toNat + 2 ∧
      atRef.dstPos.toNat < 2 := by decide

theorem witness_TokenFrame :
    (Instr.lit 0x41).context ≠ .command ∧ (Instr.ref 1 4).context ≠ .command ∧ (Instr.flags 1).context ≠ .command ∧
      atRef.tainted = false ∧ (got (exec (.lit 0x41) atLit)).dstPos = 1 ∧ (got (exec (.ref 1 4) atRef)).srcPos = 12 ∧
      (got (exec (.flags 1) atF0)).srcPos = 9 := by decide

theorem witness_StepRunsCommandWord :
    ({ maskJob with inputs := [.regWrite 0 .word 0xFFFFFF01] } : State).inputs = .regWrite 0 .word 0xFFFFFF01 :: [] ∧
      decode .command (wordBytes 0xFFFFFF01) = .ok (.mask, []) := by decide

/-- `F0` at offset 8; and a later flag byte, with the cursor at 256, that is SRC's last byte. -/
theorem witness_StepRunsFlagByte :
    (atF0.inputs = [] ∧ atF0.phase = .decRun ∧ atF0.srcPos = 8 ∧ atF0.srcPos.toNat < atF0.srcLen.toNat ∧
      atF0.srcBase.toNat + atF0.srcLen.toNat ≤ 4294967296 ∧
      decode .flagByte [atF0.mem.read (atF0.srcBase.toNat + atF0.srcPos.toNat)] = .ok (.flags 1, [])) ∧
    (({ atRef with bit := 256, srcPos := 11 } : State).dstPos.toNat < atRef.dstLen.toNat ∧
      (11 : Word).toNat < atRef.srcLen.toNat ∧
      decode .flagByte [atRef.mem.read (atRef.srcBase.toNat + 11)] = .ok (.flags 0, [])) := by decide

/-- A literal at the loop's guard; a reference; and a literal right after its flag byte, with the cursor at 1. -/
theorem witness_StepRunsToken :
    (atLit.srcPos ≠ 8 ∧ atLit.bit ≠ 256 ∧ atLit.srcPos.toNat < atLit.srcLen.toNat ∧
      atLit.dstPos.toNat < atLit.dstLen.toNat ∧ ¬ atLit.flag.setWidth 9 &&& atLit.bit = 0 ∧
      decode .literal ((List.range 1).map fun k => atLit.mem.read (atLit.srcBase.toNat + atLit.srcPos.toNat + k)) =
        .ok (.lit 0x41, [])) ∧
    (atRef.srcPos.toNat + 2 ≤ atRef.srcLen.toNat ∧ atRef.flag.setWidth 9 &&& atRef.bit = 0 ∧
      decode .reference ((List.range 2).map fun k => atRef.mem.read (atRef.srcBase.toNat + atRef.srcPos.toNat + k)) =
        .ok (.ref 1 4, [])) ∧
    (({ atLit with srcPos := 10 } : State).bit = 1 ∧ ({ atLit with srcPos := 10 } : State).srcPos ≠ 9 ∧
      decode .literal ((List.range 1).map fun k => atLit.mem.read (atLit.srcBase.toNat + 10 + k)) =
        .ok (.lit 0x12, [])) := by decide

/-- One byte is left for a descriptor; and none for a literal whose flag byte was SRC's last byte. -/
theorem witness_TruncatedTokenStep :
    (atRef.inputs = [] ∧ atRef.tainted = false ∧ atRef.phase = .decRun ∧ atRef.srcPos ≠ 8 ∧ atRef.bit ≠ 256 ∧
      atRef.srcPos.toNat < 11 ∧ atRef.dstPos.toNat < atRef.dstLen.toNat ∧ (11 : Word).toNat < atRef.srcPos.toNat + 2) ∧
    (atLit.bit = 1 ∧ (12 : Word) ≠ 9 ∧ ¬ atLit.flag.setWidth 9 &&& atLit.bit = 0 ∧
      atLit.srcLen.toNat < (12 : Word).toNat + DecodeContext.literal.size) := by decide

/-- SRC is exhausted; and DST is. -/
theorem witness_DecompressEndsDone :
    (({ atRef with srcPos := 12 } : State).inputs = [] ∧ atRef.tainted = false ∧ atRef.phase = .decRun ∧
      (12 : Word) ≠ 8 ∧ ¬ (atRef.bit = 1 ∧ (12 : Word) ≠ 9) ∧ atRef.srcLen.toNat ≤ (12 : Word).toNat) ∧
    (atRef.srcPos ≠ 8 ∧ ¬ (atRef.bit = 1 ∧ atRef.srcPos ≠ 9) ∧
      ({ atRef with dstLen := 1 } : State).dstLen.toNat ≤ atRef.dstPos.toNat) := by decide

theorem witness_MaskByteStep :
    masking.inputs = [] ∧ masking.phase = .maskRun ∧ masking.srcBase.toNat + masking.srcLen.toNat ≤ 4294967296 ∧
      masking.srcPos.toNat < masking.srcLen.toNat ∧ masking.srcPos = masking.offset ∧ masking.keyIdx = 0 ∧
      masking.offset.toNat + 4 ≤ masking.srcLen.toNat := by decide

/-- The last byte of a copy; and its end, because nothing is left and because DST is full. -/
theorem witness_CopyByteStep :
    atCopy.inputs = [] ∧ atCopy.phase = .decCopy ∧ atCopy.dstBase.toNat + atCopy.dstLen.toNat ≤ 4294967296 ∧
      atCopy.copyFrom.toNat < atCopy.dstPos.toNat ∧ atCopy.copyLeft.toNat ≠ 0 ∧
      atCopy.dstPos.toNat < atCopy.dstLen.toNat ∧ ({ atCopy with copyLeft := 0 } : State).copyLeft.toNat = 0 ∧
      ({ atCopy with dstLen := 4 } : State).dstLen.toNat ≤ atCopy.dstPos.toNat := by decide

/-- A best match of 4 at distance 1; at the input's first byte, none; and a full group. -/
theorem witness_EncodeTokenStep :
    (atMatch.inputs = [] ∧ atMatch.phase = .encRun ∧ atMatch.bit ≠ 256 ∧ atMatch.flagPos.toNat < atMatch.dstPos.toNat ∧
      atMatch.srcPos.toNat < atMatch.srcLen.toNat ∧ atMatch.srcBase.toNat + atMatch.srcLen.toNat ≤ 4294967296 ∧
      atMatch.dstBase.toNat + atMatch.dstLen.toNat ≤ 4294967296 ∧ atMatch.dstPos.toNat + 2 ≤ atMatch.dstLen.toNat ∧
      (4, 1) = bestMatch atMatch.srcByte atMatch.srcLen.toNat atMatch.srcPos.toNat) ∧
    (({ atMatch with srcPos := 0 } : State).srcPos.toNat < atMatch.srcLen.toNat ∧
      (0, 0) = bestMatch atMatch.srcByte atMatch.srcLen.toNat 0) ∧
    ({ atMatch with bit := 256 } : State).bit = 256 := by decide

/-- Bytes `41 42 43 41 42 43`: at 3 the best match is 3 long at distance 3. -/
theorem witness_BestMatchIsLongestThenNearest :
    (3, 3) = bestMatch (fun i => [0x41, 0x42, 0x43, 0x41, 0x42, 0x43].getD i 0) 6 3 := by decide

theorem witness_RestIsStill :
    Inv { faulted with inputs := [] } ∧ ({ faulted with inputs := [] } : State).busy = false := ⟨inv_faulted [], rfl⟩

theorem witness_HostStoreTaints :
    ({ masking with inputs := [.memWrite 0x1003 1] } : State).busy = true ∧ masking.guards (0x1003 : Word).toNat = true ∧
      masking.deviceAt (0x1003 : Word).toNat = false := by decide

theorem witness_TaintedEndIsFree :
    ({ masking with tainted := true } : State).tainted = true ∧ masking.claim = some (claimFor 0x01 masking) ∧
      masking.mem.wf = true := by decide

/-- A load of a lent byte, and of one that is not. -/
theorem witness_HiddenLoadIsFree :
    ({ masking with inputs := [.memRead 0x1003] } : State).deviceAt (0x1003 : Word).toNat = false ∧
      masking.hides (0x1003 : Word).toNat = true ∧ masking.hides (0x1004 : Word).toNat = false := by decide

theorem witness_StatusReadReleases :
    (({ faulted with inputs := [.regRead 0x04 .word] } : State).status.state = .done ∨
        ({ faulted with inputs := [.regRead 0x04 .word] } : State).status.state = .fault) ∧
      ¬ (masking.status.state = .done ∨ masking.status.state = .fault) := by decide

/-- Two cores, MASK and DECOMPRESS, over one memory, with buffers apart; core 0's move is a store to a free byte. -/
def twoCores : Platform :=
  { cores := [{ masking with inputs := [.memWrite 0x3000 1], srcBase := 0x4000, claim := some (claimFor 0x01 { maskJob with srcBase := 0x4000 }) }, atLit]
    mem := decJob.mem, turns := [0] }

theorem witness_CoresDoNotInterfere :
    ∃ s t : State, twoCores.turns = 0 :: [] ∧ twoCores.coreAt 0 = some s ∧ step s = .next t ∧
      (∀ a ys, s.inputs = .memRead a :: ys →
        ∀ (j : Nat) (u : State), twoCores.cores[j]? = some u → j ≠ 0 → u.hides a.toNat = false) ∧
      (∀ a v ys, s.inputs = .memWrite a v :: ys →
        ∀ (j : Nat) (u : State), twoCores.cores[j]? = some u → j ≠ 0 → u.guards a.toNat = false) ∧
      (∀ (j : Nat) (u : State), twoCores.cores[j]? = some u → j ≠ 0 → t.conflictsWith u = false) := by
  refine ⟨_, _, rfl, rfl, rfl, fun a ys h => (nomatch h), fun a v ys h j u hu hj => ?_, fun j u hu hj => ?_⟩
  · injection h with h1 _
    injection h1 with h1 _
    subst h1
    match j, hj with
    | 1, _ => injection hu with hu; subst hu; decide
    | n + 2, _ => simp [twoCores] at hu
  · match j, hj with
    | 1, _ => injection hu with hu; subst hu; decide
    | n + 2, _ => simp [twoCores] at hu

/-- R73, R182: a command that fails its checks touches no byte, so it conflicts with no other; here MASK's OFFSET is
above its SRC_LEN. -/
theorem test_failing_launch_conflicts_with_none :
    (running 0x01 .check { maskJob with srcLen := 16, offset := 17 }).conflictsWith atLit = false ∧
      (running 0x01 .check { maskJob with srcLen := 16, offset := 0 }).conflictsWith atLit = true := by decide

/-- MASK over `n` bytes from `a` on. -/
def maskOver (a n : Nat) : State :=
  running 0x01 .check { maskJob with srcBase := BitVec.ofNat 32 a, srcLen := BitVec.ofNat 32 n, mem := decJob.mem }

/-- R120, R64: DECOMPRESS reads no header byte, and reads its first flag byte; V11's stream, into nine bytes of which it
fills five, writes none of the other four. -/
theorem test_decompress_footprint :
    (maskOver 0x1000 8).conflictsWith atLit = false ∧ (maskOver 0x1000 9).conflictsWith atLit = true ∧
      (maskOver 0x2005 4).conflictsWith { atLit with dstLen := 9 } = false ∧
      (maskOver 0x2004 5).conflictsWith { atLit with dstLen := 9 } = true := by decide

/-- R64, V44: COMPRESS writes the twelve bytes of its output and no other byte of DST; its input is read. -/
theorem test_compress_footprint :
    ({ maskOver 0x200C 2 with mem := encJob.mem } : State).conflictsWith (running 0x03 .check encJob) = false ∧
      ({ maskOver 0x200B 3 with mem := encJob.mem } : State).conflictsWith (running 0x03 .check encJob) = true ∧
      ({ maskOver 0x1004 1 with mem := encJob.mem } : State).conflictsWith (running 0x03 .check encJob) = true := by decide

/-- R197: the free values of core 1 are its own, not core 0's. -/
theorem test_cores_draw_from_their_own_streams :
    (twoCores.coreAt 0).map (·.stream) = some 0 ∧ (twoCores.coreAt 1).map (·.stream) = some 1 := by decide

/-- MASK over the bytes that DECOMPRESS reads. -/
def clashing : Platform :=
  { cores := [{ masking with srcLen := 16, claim := some (claimFor 0x01 { maskJob with srcLen := 16 }) }, atLit]
    mem := decJob.mem, turns := [0] }

theorem witness_ConflictingCoresTaint :
    ∃ s t u : State, clashing.turns = 0 :: [] ∧ clashing.coreAt 0 = some s ∧ s.inputs = [] ∧ step s = .next t ∧
      clashing.cores[1]? = some u ∧ t.conflictsWith u = true :=
  ⟨_, _, _, rfl, rfl, rfl, rfl, rfl, by decide⟩

theorem inv_masking : Inv masking where
  memory := by decide
  statusFollowsPhase := rfl
  causeOnlyOnFault := rfl
  cursorOneHot := rfl
  copyLeftSmall := Nat.zero_le _
  claimHeld := fun _ => rfl
  taintedBusy := fun h => nomatch h
  checksHold := fun _ => by decide
  ranges := ⟨rfl, by decide, by decide, by decide⟩

theorem inv_atCopy : Inv atCopy where
  memory := by decide
  statusFollowsPhase := rfl
  causeOnlyOnFault := rfl
  cursorOneHot := rfl
  copyLeftSmall := by decide
  claimHeld := fun _ => rfl
  taintedBusy := fun h => nomatch h
  checksHold := fun _ => by decide
  ranges := ⟨rfl, by decide, by decide, by decide, by decide, by decide⟩

theorem inv_atRef : Inv atRef where
  memory := by decide
  statusFollowsPhase := rfl
  causeOnlyOnFault := rfl
  cursorOneHot := rfl
  copyLeftSmall := by decide
  claimHeld := fun _ => rfl
  taintedBusy := fun h => nomatch h
  checksHold := fun _ => by decide
  ranges := ⟨rfl, by decide, by decide, by decide, fun _ _ => by decide⟩

/-- One state in COMPRESS's loop, inside its first group. -/
theorem inv_atMatch : Inv atMatch where
  memory := by decide
  statusFollowsPhase := rfl
  causeOnlyOnFault := rfl
  cursorOneHot := rfl
  copyLeftSmall := by decide
  claimHeld := fun _ => rfl
  taintedBusy := fun h => nomatch h
  checksHold := fun _ => by decide
  ranges := ⟨rfl, by decide, by decide, by decide, 1, 1, by decide, by decide, by decide, by decide, by decide, by decide⟩

/-- For StepKeepsInv and StepNeverFaults: states of every kind of phase that meet the invariant and go on. -/
theorem witness_StepKeepsInv :
    Inv masking ∧ Inv atRef ∧ Inv atCopy ∧ Inv atMatch ∧ Inv { faulted with inputs := [.memRead 0] } ∧
      step masking = .next (got (step masking)) ∧ step atMatch = .next (got (step atMatch)) :=
  ⟨inv_masking, inv_atRef, inv_atCopy, inv_atMatch, inv_faulted _, rfl, rfl⟩

theorem witness_WritesStayInRegion :
    Inv masking ∧ masking.inputs = [] ∧ step masking = .next (got (step masking)) ∧
      (got (step masking)).mem.read 0x1000 ≠ masking.mem.read 0x1000 := ⟨inv_masking, rfl, rfl, by decide⟩

/-- DECOMPRESS ends when DST is full. -/
def atEnd : State := { atCopy with phase := .decRun, dstPos := 5, bit := 4, copyLeft := 0 }

theorem inv_atEnd : Inv atEnd where
  memory := by decide
  statusFollowsPhase := rfl
  causeOnlyOnFault := rfl
  cursorOneHot := rfl
  copyLeftSmall := by decide
  claimHeld := fun _ => rfl
  taintedBusy := fun h => nomatch h
  checksHold := fun _ => by decide
  ranges := ⟨rfl, by decide, by decide, by decide, fun _ h => absurd h (by decide)⟩

theorem witness_OutcomeIsRecorded :
    Inv atEnd ∧ atEnd.busy = true ∧ (∀ rest, atEnd.inputs ≠ .reset :: rest) ∧ step atEnd = .next (got (step atEnd)) ∧
      (got (step atEnd)).busy = false := ⟨inv_atEnd, rfl, fun _ h => (nomatch h), rfl, by decide⟩

/-- Legal arguments; and OFFSET one above SRC_LEN (V8). -/
theorem witness_MaskClosedForm :
    (maskJob.inputs = [] ∧ maskJob.busy = false ∧ maskJob.mem.wf = true ∧ maskJob.ordinary 0x01 ∧
      maskJob.srcBase.toNat + maskJob.srcLen.toNat ≤ 4294967296 ∧ maskJob.offset.toNat ≤ maskJob.srcLen.toNat) ∧
    (({ maskJob with offset := 5 } : State).ordinary 0x01 ∧ maskJob.srcLen.toNat < (5 : Word).toNat) := by
  unfold State.ordinary; decide

theorem witness_MaskTwiceRestores :
    ({ maskJob with offset := 4 } : State).offset.toNat ≤ maskJob.srcLen.toNat ∧
      ({ maskJob with offset := 4 } : State).ordinary 0x01 := by unfold State.ordinary; decide

/-- A copy that DST holds whole; one that DST cuts short after one byte; and one for which DST is full already. -/
theorem witness_ReferenceCopies :
    (Instr.ref 1 4).wf = true ∧ atRef.inputs = [] ∧ atRef.mem.wf = true ∧ atRef.srcPos.toNat + 2 ≤ atRef.srcLen.toNat ∧
      atRef.dstBase.toNat + atRef.dstLen.toNat ≤ 4294967296 ∧ 1 ≤ 1 ∧ 1 ≤ atRef.dstPos.toNat ∧
      atRef.dstPos.toNat ≤ atRef.dstLen.toNat ∧ 4 = min 4 (atRef.dstLen.toNat - atRef.dstPos.toNat) ∧
      1 = min 4 (({ atRef with dstLen := 2 } : State).dstLen.toNat - atRef.dstPos.toNat) ∧
      0 = min 4 (({ atRef with dstLen := 1 } : State).dstLen.toNat - atRef.dstPos.toNat) := by decide

theorem witness_DecompressExpandsTokens :
    decJob.inputs = [] ∧ decJob.busy = false ∧ decJob.mem.wf = true ∧ decJob.ordinary 0x02 ∧
      (∀ t ∈ runOf 0x41 5, t.isToken = true ∧ t.wf = true) ∧
      expand (runOf 0x41 5) [] = some [0x41, 0x41, 0x41, 0x41, 0x41] ∧
      decJob.srcLen.toNat = (assemble [0, 0, 0, 0, 0, 0, 0, 0] (runOf 0x41 5)).length ∧ decJob.dstLen.toNat = 5 ∧
      decJob.srcBase.toNat + decJob.srcLen.toNat ≤ 4294967296 ∧
      decJob.dstBase.toNat + decJob.dstLen.toNat ≤ 4294967296 ∧ decJob.srcRegion.overlaps decJob.dstRegion = false ∧
      decJob.mem.holds decJob.srcBase.toNat (assemble [0, 0, 0, 0, 0, 0, 0, 0] (runOf 0x41 5)) := by
  unfold State.ordinary Memory.holds; decide

theorem witness_LiteralOnlyStream :
    ({ decJob with srcLen := 10, dstLen := 1 } : State).srcLen.toNat =
        (assemble [0, 0, 0, 0, 0, 0, 0, 0] ([0x41].map .lit)).length ∧
      ({ decJob with srcLen := 10, dstLen := 1 } : State).ordinary 0x02 ∧
      ({ decJob with srcLen := 10, dstLen := 1 } : State).srcRegion.overlaps ⟨0x2000, 1⟩ = false ∧
      decJob.mem.holds decJob.srcBase.toNat (assemble [0, 0, 0, 0, 0, 0, 0, 0] ([0x41].map .lit)) := by
  unfold State.ordinary Memory.holds; decide

theorem witness_CompressConforms :
    encJob.inputs = [] ∧ encJob.busy = false ∧ encJob.mem.wf = true ∧ encJob.ordinary 0x03 ∧
      encJob.srcBase.toNat + encJob.srcLen.toNat ≤ 4294967296 ∧
      encJob.dstBase.toNat + encJob.dstLen.toNat ≤ 4294967296 ∧
      8 + encJob.srcLen.toNat + max 1 ((encJob.srcLen.toNat + 7) / 8) ≤ encJob.dstLen.toNat ∧
      encJob.srcRegion.overlaps encJob.dstRegion = false ∧
      ([0x41, 0x41, 0x41, 0x41, 0x41] : List Byte).length = encJob.srcLen.toNat ∧
      encJob.mem.holds encJob.srcBase.toNat [0x41, 0x41, 0x41, 0x41, 0x41] := by
  unfold State.ordinary Memory.holds; decide

/-- The state COMPRESS leaves on V44's input, and the DECOMPRESS that reads its output. -/
def compressed : State := got (Host.Core.run Sys2Proof.core 4 (got (exec .compress encJob)))

/-- DECOMPRESS of COMPRESS's output, to a place of its own. -/
def decodeBack : State :=
  { compressed with srcBase := 0x2000, srcLen := compressed.dstPosReg, dstBase := 0x3000, dstLen := 5 }

/-- The outer hypotheses are those of CompressConforms; these are the inner ones. -/
theorem witness_RoundTrip :
    compressed.status.state = .done ∧ decodeBack.inputs = [] ∧ decodeBack.busy = false ∧
      decodeBack.mem = compressed.mem ∧ decodeBack.ordinary 0x02 ∧ decodeBack.srcBase = encJob.dstBase ∧
      decodeBack.srcLen = compressed.dstPosReg ∧ decodeBack.dstLen = encJob.srcLen ∧
      decodeBack.dstBase.toNat + decodeBack.dstLen.toNat ≤ 4294967296 ∧
      decodeBack.srcRegion.overlaps decodeBack.dstRegion = false := by
  unfold State.ordinary; decide

theorem witness_EveryCommandEnds : Inv masking ∧ masking.inputs = [] ∧ masking.busy = true ∧ masking.ordinary 0x01 :=
  ⟨inv_masking, rfl, rfl, rfl⟩

/-- V19's header over V11's stream. -/
theorem witness_DecoderIgnoresHeader :
    Inv atRef ∧ atRef.inputs = [] ∧ atRef.tainted = false ∧ atRef.phase = .decRun ∧
      (Memory.write atRef.mem 0x1007 8).wf = true ∧
      (∀ a : Nat, ¬ (atRef.srcBase.toNat ≤ a ∧ a < atRef.srcBase.toNat + 8) →
        (Memory.write atRef.mem 0x1007 8).read a = atRef.mem.read a) ∧ step atRef = .next (got (step atRef)) := by
  refine ⟨inv_atRef, rfl, rfl, rfl, by decide, fun a h => Memory.read_write_ne ?_ 8, rfl⟩
  intro e
  apply h
  have : atRef.srcBase.toNat = 0x1000 := rfl
  omega

theorem witness_MemoryLaws : decJob.mem.wf = true ∧ Memory.wf [] = true := by decide

end Sys2Proof.Tests
end

/-! # The statements of 30_encoding.md -/

section
namespace Sys2Proof.Machine

/-! ## The size of an assembled stream (R93) -/

/-- A literal is one byte and a reference is two (R83, R84). -/
theorem length_encode_of_isToken {t : Instr} (h : t.isToken = true) :
    (encode t).length = 1 + if selector t = 0 then 1 else 0 := by
  cases t with
  | lit b => rfl
  | ref d l => rfl
  | flags f => cases h
  | mask => cases h
  | decompress => cases h
  | compress => cases h

/-- The bytes of the tokens alone, without the flag bytes: `t + r`. -/
theorem length_flatMap_encode {ts : List Instr} (h : ∀ t ∈ ts, t.isToken = true) :
    (ts.flatMap encode).length = ts.length + (ts.filter fun t => selector t = 0).length := by
  induction ts with
  | nil => rfl
  | cons t ts ih =>
    obtain ⟨ht, hts⟩ := List.forall_mem_cons.mp h
    rw [List.flatMap_cons, List.length_append, length_encode_of_isToken ht, ih hts, List.length_cons]
    by_cases hs : selector t = 0 <;> simp [hs] <;> omega

/-- One flag byte for every eight tokens begun, and the tokens' own bytes. -/
theorem length_assembleGroups {fuel : Nat} {ts : List Instr} (h : ts.length ≤ fuel) :
    (assembleGroups fuel ts).length = (ts.length + 7) / 8 + (ts.flatMap encode).length := by
  induction fuel generalizing ts with
  | zero => rw [List.eq_nil_of_length_eq_zero (Nat.le_zero.mp h)]; rfl
  | succ fuel ih =>
    cases ts with
    | nil => rfl
    | cons t ts =>
      have hdrop : ((t :: ts).drop Config.flagGroup).length = ts.length + 1 - 8 := List.length_drop
      have hbytes : ((t :: ts).flatMap encode).length =
          (((t :: ts).take Config.flagGroup).flatMap encode).length +
            (((t :: ts).drop Config.flagGroup).flatMap encode).length := by
        rw [← List.length_append, ← List.flatMap_append, List.take_append_drop]
      rw [List.length_cons] at h
      rw [assembleGroups, List.length_cons, List.length_append, ih (by omega), hdrop, hbytes, List.length_cons]
      omega

/-- A stream's size in flag bytes and token bytes; a stream with no token still has its one flag byte. -/
theorem length_assemble (header : List Byte) (ts : List Instr) :
    (assemble header ts).length =
      header.length + (max 1 ((ts.length + 7) / 8) + (ts.flatMap encode).length) := by
  rw [assemble, List.length_append]
  cases ts with
  | nil => rfl
  | cons t ts =>
    have hflags : 1 ≤ ((t :: ts).length + 7) / 8 := by rw [List.length_cons]; omega
    rw [List.isEmpty_cons, if_neg Bool.false_ne_true, length_assembleGroups le_rfl, max_eq_right hflags]

/-! ## What tokens stand for -/

@[simp] theorem length_copyBytes (distance length : Nat) (out : List Byte) :
    (copyBytes distance length out).length = out.length + length := by
  induction length generalizing out with
  | zero => rfl
  | succ length ih => rw [copyBytes, ih, List.length_append, List.length_singleton]; omega

/-- All the first token of an expansion can be: a literal, or a reference inside the output so far (R123 to R125). -/
theorem expand_cons {t : Instr} {ts : List Instr} {out final : List Byte} (h : expand (t :: ts) out = some final) :
    (∃ b, t = .lit b ∧ expand ts (out ++ [b]) = some final) ∨
      ∃ d l, t = .ref d l ∧ 1 ≤ d ∧ d ≤ out.length ∧ expand ts (copyBytes d l out) = some final := by
  cases t with
  | lit b => exact .inl ⟨b, rfl, h⟩
  | ref d l =>
    rw [expand] at h
    split_ifs at h with hd
    exact .inr ⟨d, l, rfl, hd.1, hd.2, h⟩
  | flags f => cases h
  | mask => cases h
  | decompress => cases h
  | compress => cases h

/-- Well-formed tokens stand for at least as many bytes as they are written in: a reference is two bytes and copies
at least two. -/
theorem length_flatMap_encode_le_of_expand {ts : List Instr} {out final : List Byte}
    (hwf : ∀ t ∈ ts, t.wf = true) (h : expand ts out = some final) :
    out.length + (ts.flatMap encode).length ≤ final.length := by
  induction ts generalizing out with
  | nil => cases h; rfl
  | cons t ts ih =>
    obtain ⟨ht, hts⟩ := List.forall_mem_cons.mp hwf
    rw [List.flatMap_cons, List.length_append]
    obtain ⟨b, rfl, h⟩ | ⟨d, l, rfl, -, -, h⟩ := expand_cons h
    · have hrest := ih hts h
      have hsize : (encode (.lit b)).length = 1 := Laws.EncodedSize.lit b
      rw [List.length_append, List.length_singleton] at hrest
      omega
    · have hrest := ih hts h
      have hsize : (encode (.ref d l)).length = 2 := Laws.EncodedSize.ref d l
      obtain ⟨-, hmin, -⟩ := wf_ref.mp ht
      rw [length_copyBytes] at hrest
      omega

/-- Literals stand for one byte each. -/
theorem length_of_expand_literals {ts : List Instr} {out final : List Byte}
    (hlit : ∀ t ∈ ts, selector t = 1) (h : expand ts out = some final) :
    final.length = out.length + ts.length := by
  induction ts generalizing out with
  | nil => cases h; rfl
  | cons t ts ih =>
    obtain ⟨ht, hts⟩ := List.forall_mem_cons.mp hlit
    obtain ⟨b, rfl, h⟩ | ⟨d, l, rfl, -, -, -⟩ := expand_cons h
    · rw [ih hts h, List.length_append, List.length_singleton, List.length_cons]; omega
    · cases ht

/-! ## The statements -/

/-- Settles O3: the descriptor's two fields are arithmetic on its two bytes (`descriptorDistance_descriptor`,
`descriptorLength_descriptor`). -/
theorem descriptorFieldPlaces : Obligations.DescriptorFieldPlaces :=
  decode_reference

/-- Settles O6: the stream is its header, its flag bytes and its tokens' bytes, and a token's bytes are at most the
bytes it stands for, with equality for literals. -/
theorem streamSize : Obligations.StreamSize := by
  intro header ts out hheader hts hexpand
  have hsize := length_assemble header ts
  have htokens := length_flatMap_encode fun t ht => (hts t ht).1
  have hout := length_flatMap_encode_le_of_expand (fun t ht => (hts t ht).2) hexpand
  rw [List.length_nil] at hout
  rw [htokens] at hsize hout
  refine ⟨by omega, by omega, by omega, fun hlit => ?_⟩
  have hexact := length_of_expand_literals hlit hexpand
  have hnoRefs : (ts.filter fun t => selector t = 0) = [] :=
    List.filter_eq_nil_iff.mpr fun t ht => by simp [hlit t ht]
  rw [List.length_nil] at hexact
  rw [hnoRefs, List.length_nil] at hsize
  omega

end Sys2Proof.Machine
end

/-! # The statements of 40_masker.md -/

section
namespace Sys2Proof.Machine

/-! ## MASK's argument checks (R183) -/

/-- A command on ordinary memory is one whose regions no device range touches (R74). -/
theorem overDevice_eq_false_iff {s : State} : s.overDevice = false ↔ s.ordinary s.status.lastOp := by
  simp [State.overDevice, State.ordinary]

/-- Of the seven checks two can fail for MASK: SRC wraps, or OFFSET is above SRC_LEN (R183). -/
theorem failedCheck_of_lastOp_mask {s : State} (h : s.status.lastOp = opMask) :
    failedCheck s =
      if 4294967296 < s.srcBase.toNat + s.srcLen.toNat then some .regionWrap
      else if s.srcLen.toNat < s.offset.toNat then some .offsetGtLen
      else none := by
  have hknown : s.opKnown = true := by rw [State.opKnown, h]; rfl
  have hmask : s.isMask = true := by rw [State.isMask, h]; rfl
  have hdec : s.isDecompress = false := by rw [State.isDecompress, h]; rfl
  have henc : s.isCompress = false := by rw [State.isCompress, h]; rfl
  simp [failedCheck, argumentChecks, firstFailing, hknown, hmask, hdec, henc, Region.wraps, State.srcRegion]

theorem checkStep_of_failed {s : State} {r : InvalidReason} (h : failedCheck s = some r) :
    checkStep s = .next (raiseInvalid r s) := by rw [checkStep, h]

theorem checkStep_of_passed {s : State} (h : failedCheck s = none) : checkStep s = beginBody s := by
  rw [checkStep, h]

theorem beginBody_of_mask {s : State} (hmask : s.isMask = true) (hord : s.overDevice = false) :
    beginBody s = maskBegin s := by
  rw [beginBody, hord, hmask, if_neg Bool.false_ne_true, if_pos rfl]

/-! ## The masked bytes, and `k` byte steps (R111) -/

/-- The byte at address `a` XORed with its key byte, when the key index is `key` at address `start` (R111). -/
def maskedByte (m : Memory) (start : Nat) (key : BitVec 8) (a : Nat) : Byte :=
  m.read a ^^^ keyByte (key + BitVec.ofNat 8 (a - start))

/-- The address of the byte that MASK's next step masks. -/
def State.maskAddr (s : State) : Nat := s.srcBase.toNat + s.srcPos.toNat

/-- What `k` byte steps of MASK's body lead to (R111): `step_maskedFor`. -/
def maskedFor (k : Nat) (s : State) : State :=
  { s with
    mem := s.mem.fill (maskedByte s.mem s.maskAddr s.keyIdx) s.maskAddr k
    keyIdx := s.keyIdx + BitVec.ofNat 8 k
    srcPos := s.srcPos + BitVec.ofNat 32 k }

theorem maskedFor_zero (s : State) : maskedFor 0 s = s := by
  simp [maskedFor, Memory.fill]

theorem maskedFor_srcPos_toNat {s : State} {k : Nat} (h : s.srcPos.toNat + k ≤ s.srcLen.toNat) :
    (maskedFor k s).srcPos.toNat = s.srcPos.toNat + k := by
  have hlen := s.srcLen.isLt
  simp only [maskedFor, BitVec.toNat_add, BitVec.toNat_ofNat]
  omega

/-- MASK's round with a byte left (R111). -/
theorem maskStep_of_lt {s : State} (hw : s.srcBase.toNat + s.srcLen.toNat ≤ addrSpace)
    (hlt : s.srcPos.toNat < s.srcLen.toNat) :
    maskStep s =
      .next (maskAdvance (storeByte s.maskAddr (s.mem.read s.maskAddr ^^^ keyByte s.keyIdx) s)) := by
  rw [maskStep, if_pos hlt, srcRead_ok hlt hw, withValue_ok, bufWrite_ok _ hlt hw, andThen_next]
  rfl

/-- MASK's round with no byte left ends the command (R110, R188). -/
theorem maskStep_of_le {s : State} (h : s.srcLen.toNat ≤ s.srcPos.toNat) :
    maskStep s = .next (finish s.srcLen 0 s) := if_neg (Nat.not_lt.mpr h)

theorem step_of_maskRun {s : State} (hin : s.inputs = []) (hp : s.phase = .maskRun) : step s = maskStep s := by
  rw [step_of_no_inputs hin, coreStep, hp]

/-- One more byte step: the byte it meets is still as it was before the first one. -/
theorem step_maskedFor {s : State} {k : Nat} (hin : s.inputs = []) (hp : s.phase = .maskRun)
    (hw : s.srcBase.toNat + s.srcLen.toNat ≤ addrSpace) (hlt : s.srcPos.toNat + k < s.srcLen.toNat) :
    step (maskedFor k s) = .next (maskedFor (k + 1) s) := by
  have hpos : (maskedFor k s).srcPos.toNat = s.srcPos.toNat + k := maskedFor_srcPos_toNat hlt.le
  have haddr : (maskedFor k s).maskAddr = s.maskAddr + k := by
    rw [State.maskAddr, hpos, ← Nat.add_assoc]; rfl
  have hread : (maskedFor k s).mem.read (s.maskAddr + k) = s.mem.read (s.maskAddr + k) :=
    Memory.read_fill_outside _ (by omega)
  have hexists : s.maskAddr + k < addrSpace := by rw [State.maskAddr]; omega
  rw [step_of_maskRun (s := maskedFor k s) hin hp, maskStep_of_lt (s := maskedFor k s) hw (by rwa [hpos]),
    haddr, hread]
  simp [maskedFor, maskAdvance, storeByte, Memory.fill, hexists, maskedByte, BitVec.ofNat_add, BitVec.add_assoc]

/-- `k` byte steps inside SRC (R111). -/
theorem run_maskedFor {s : State} {k : Nat} (hin : s.inputs = []) (hp : s.phase = .maskRun)
    (hw : s.srcBase.toNat + s.srcLen.toNat ≤ addrSpace) (hk : s.srcPos.toNat + k ≤ s.srcLen.toNat) :
    Host.Core.run Sys2Proof.core k s = .next (maskedFor k s) := by
  induction k with
  | zero => rw [maskedFor_zero]; rfl
  | succ k ih => rw [run_add 1 (ih (by omega)), run_succ (step_maskedFor hin hp hw (by omega))]; rfl

/-! ## The whole command (R110, R114) -/

/-- MASK's body as its CMD write and its passed checks leave it (R28, R110): `reaches_maskBody`. -/
def maskBody (s : State) : State :=
  { s with
    status := { state := .busy, cause := none, lastOp := opMask }
    phase := .maskRun
    claim := some (claimFor opMask s)
    tainted := false
    keyIdx := 0
    srcPos := s.offset }

/-- The end of MASK on legal arguments (R114): `reaches_maskOutcome`. -/
def maskOutcome (s : State) : State :=
  endCommand .done s.srcLen 0 (maskedFor (s.srcLen.toNat - s.offset.toNat) (maskBody s))

/-- The end of MASK on arguments that fail a check (R182): `reaches_maskRejected`. -/
def maskRejected (r : InvalidReason) (s : State) : State :=
  endCommand (.fault (.invalidArgument r)) 0 0 (startCommand opMask s)

section
variable {s : State} (hin : s.inputs = []) (hbusy : s.busy = false)
include hin hbusy

/-- After its CMD write MASK checks its arguments (R28, R183). -/
theorem step_startCommand_mask : step (startCommand opMask s) = checkStep (startCommand opMask s) := by
  rw [startCommand_of_not_busy hbusy]
  exact step_of_no_inputs hin

theorem reaches_maskBody (hord : s.ordinary opMask) (hw : s.srcBase.toNat + s.srcLen.toNat ≤ addrSpace)
    (hoff : s.offset.toNat ≤ s.srcLen.toNat) : Reaches (startCommand opMask s) (maskBody s) := by
  refine .step ?_ (.refl _)
  rw [step_startCommand_mask hin hbusy, startCommand_of_not_busy hbusy, checkStep_of_passed,
    beginBody_of_mask rfl (overDevice_eq_false_iff.mpr hord)]
  · rfl
  · rw [failedCheck_of_lastOp_mask rfl, if_neg (Nat.not_lt.mpr hw), if_neg (Nat.not_lt.mpr hoff)]

theorem reaches_maskOutcome (hord : s.ordinary opMask) (hw : s.srcBase.toNat + s.srcLen.toNat ≤ addrSpace)
    (hoff : s.offset.toNat ≤ s.srcLen.toNat) : Reaches (startCommand opMask s) (maskOutcome s) := by
  have hall : (maskBody s).srcPos.toNat + (s.srcLen.toNat - s.offset.toNat) = s.srcLen.toNat :=
    Nat.add_sub_cancel' hoff
  have hsteps := run_maskedFor (s := maskBody s) hin rfl hw hall.le
  refine (reaches_maskBody hin hbusy hord hw hoff).trans (Reaches.trans ⟨_, hsteps⟩ (.step ?_ (.refl _)))
  rw [step_of_maskRun (s := maskedFor _ (maskBody s)) hin rfl,
    maskStep_of_le (by rw [maskedFor_srcPos_toNat hall.le, hall]; rfl), finish, conclude_of_untainted rfl]
  rfl

theorem reaches_maskRejected
    (hbad : 4294967296 < s.srcBase.toNat + s.srcLen.toNat ∨ s.srcLen.toNat < s.offset.toNat) :
    ∃ r, Reaches (startCommand opMask s) (maskRejected r s) := by
  have hstart := startCommand_of_not_busy hbusy opMask
  obtain ⟨r, hr⟩ : ∃ r, failedCheck (startCommand opMask s) = some r := by
    rw [hstart, failedCheck_of_lastOp_mask rfl]
    split_ifs with hwrap hoff
    · exact ⟨_, rfl⟩
    · exact ⟨_, rfl⟩
    · exact absurd hbad (not_or.mpr ⟨hwrap, hoff⟩)
  refine ⟨r, .step ?_ (.refl _)⟩
  rw [step_startCommand_mask hin hbusy, checkStep_of_failed hr,
    raiseInvalid_of_untainted (by rw [hstart]), maskRejected]

end

/-- What memory holds at MASK's end: each byte from OFFSET on XORed with its key byte, and every other byte as it
was (R114). -/
theorem read_maskOutcome {s : State} (hm : s.mem.wf = true) (hw : s.srcBase.toNat + s.srcLen.toNat ≤ addrSpace)
    (hoff : s.offset.toNat ≤ s.srcLen.toNat) (a : Nat) :
    (maskOutcome s).mem.read a =
      if s.srcBase.toNat + s.offset.toNat ≤ a ∧ a < s.srcBase.toNat + s.srcLen.toNat then
        s.mem.read a ^^^ keyByte (BitVec.ofNat 8 (a - (s.srcBase.toNat + s.offset.toNat)))
      else s.mem.read a := by
  have hfill := Memory.read_fill hm
    (maskedByte s.mem (s.srcBase.toNat + s.offset.toNat) 0#8) (s.srcBase.toNat + s.offset.toNat)
    (s.srcLen.toNat - s.offset.toNat) a
  rw [maskedByte, BitVec.zero_add] at hfill
  exact hfill.trans (if_congr (by omega) rfl rfl)

theorem wf_maskOutcome {s : State} (hm : s.mem.wf = true) : (maskOutcome s).mem.wf = true :=
  Memory.wf_fill hm _ _ _

/-- MASK a second time takes the first one back (R112). -/
theorem maskOutcome_maskOutcome_mem {s : State} (hm : s.mem.wf = true)
    (hw : s.srcBase.toNat + s.srcLen.toNat ≤ addrSpace) (hoff : s.offset.toNat ≤ s.srcLen.toNat) :
    (maskOutcome (maskOutcome s)).mem = s.mem := by
  refine Memory.ext (wf_maskOutcome (wf_maskOutcome hm)) hm fun a => ?_
  rw [read_maskOutcome (s := maskOutcome s) (wf_maskOutcome hm) hw hoff, read_maskOutcome hm hw hoff]
  by_cases ha : s.srcBase.toNat + s.offset.toNat ≤ a ∧ a < s.srcBase.toNat + s.srcLen.toNat
  · exact (if_pos ha).trans (by rw [if_pos ha]; exact xor_cancel_right _ _)
  · exact (if_neg ha).trans (if_neg ha)

/-! ## The statements -/

/-- Settles O34: one step is `maskStep_of_lt`, and `k` steps are `run_maskedFor`. -/
theorem maskByteStep : Obligations.MaskByteStep := by
  intro s hin hp hw
  refine ⟨fun hlt => ?_, fun k hpos hkey hk => ?_⟩
  · rw [step_of_maskRun hin hp, maskStep_of_lt hw hlt, BitVec.ofNat_add, BitVec.ofNat_add, BitVec.ofNat_toNat,
      BitVec.ofNat_toNat, BitVec.setWidth_eq, BitVec.setWidth_eq]
    rfl
  · rw [← hpos] at hk ⊢
    refine ⟨_, run_maskedFor hin hp hw hk, maskedFor_srcPos_toNat hk, ?_⟩
    simp [maskedFor, hkey]

/-- Settles O51: legal arguments lead to `maskOutcome`, whose bytes are `read_maskOutcome`; others fail a check. -/
theorem maskClosedForm : Obligations.MaskClosedForm := by
  intro s hin hbusy hm hord
  by_cases hlegal : s.srcBase.toNat + s.srcLen.toNat ≤ 4294967296 ∧ s.offset.toNat ≤ s.srcLen.toNat
  · obtain ⟨hw, hoff⟩ := hlegal
    refine ⟨_, _, rfl, reaches_maskOutcome hin hbusy hord hw hoff,
      fun _ => ⟨rfl, rfl, rfl, fun i hi => ?_, fun a ha => ?_⟩, fun hbad => by omega⟩
    · rw [read_maskOutcome hm hw hoff]
      by_cases hlt : i < s.offset.toNat
      · rw [if_neg (by omega), if_pos hlt]
      · rw [if_pos (by omega), if_neg hlt, Nat.add_sub_add_left]
        congr 2
        exact BitVec.eq_of_toNat_eq (by simp)
    · rw [read_maskOutcome hm hw hoff, if_neg (by omega)]
  · have hbad : 4294967296 < s.srcBase.toNat + s.srcLen.toNat ∨ s.srcLen.toNat < s.offset.toNat := by omega
    obtain ⟨r, hr⟩ := reaches_maskRejected hin hbusy hbad
    refine ⟨_, _, rfl, hr, fun h => absurd h hlegal, fun _ => ⟨rfl, fun a => ?_⟩⟩
    rw [maskRejected, startCommand_of_not_busy hbusy]
    rfl

/-- Settles O52: the second MASK starts from the first one's end, whose registers are the same, and
`maskOutcome_maskOutcome_mem` says what memory then holds. -/
theorem maskTwiceRestores : Obligations.MaskTwiceRestores := by
  refine ⟨fun b k => xor_cancel_right b k, fun s hin hbusy hm hw hoff hord => ?_⟩
  exact ⟨_, _, _, _, rfl, reaches_maskOutcome hin hbusy hord hw hoff, rfl, rfl,
    reaches_maskOutcome (s := maskOutcome s) hin rfl hord hw hoff, rfl, maskOutcome_maskOutcome_mem hm hw hoff⟩

end Sys2Proof.Machine
end

/-! # The statements of 41_decoder.md -/

section
namespace Sys2Proof.Machine

/-! ## Words, regions and bytes in memory -/

theorem toNat_add_one_of_lt {x y : Word} (h : x.toNat < y.toNat) : (x + 1).toNat = x.toNat + 1 :=
  BitVec.toNat_add_of_lt (Nat.lt_of_le_of_lt h y.isLt)

/-- Regions that do not overlap share no byte (R120). -/
theorem Region.ne_of_not_overlaps {r q : Region} (h : r.overlaps q = false) {i j : Nat} (hi : i < r.len)
    (hj : j < q.len) : r.base + i ≠ q.base + j := by
  simp only [Region.overlaps, Bool.and_eq_false_iff, bne_eq_false_iff_eq, decide_eq_false_iff_not] at h
  omega

theorem Memory.holds_cons {m : Memory} {a : Nat} {b : Byte} {bs : List Byte} :
    m.holds a (b :: bs) ↔ m.read a = b ∧ m.holds (a + 1) bs := by
  simp only [Memory.holds, List.length_cons, Nat.forall_lt_succ_left', Nat.add_zero, List.getD_cons_zero,
    List.getD_cons_succ, Nat.add_right_comm a, Nat.add_assoc]

theorem Memory.holds_append {m : Memory} {a : Nat} {bs cs : List Byte} :
    m.holds a (bs ++ cs) ↔ m.holds a bs ∧ m.holds (a + bs.length) cs := by
  induction bs generalizing a with
  | nil => simp [Memory.holds]
  | cons b bs ih =>
    rw [List.cons_append, Memory.holds_cons, Memory.holds_cons, ih, and_assoc, List.length_cons, Nat.add_assoc a,
      Nat.add_comm 1]

/-- A write to another address keeps the bytes. -/
theorem Memory.holds_write {m : Memory} {a x : Nat} {bs : List Byte} (v : Byte) (h : m.holds a bs)
    (hx : ∀ i < bs.length, a + i ≠ x) : (m.write x v).holds a bs := by
  intro i hi
  rw [Memory.read_write_ne (hx i hi), h i hi]

/-- A byte written behind the bytes is one more of them. -/
theorem Memory.holds_write_append {m : Memory} (hm : m.wf = true) {a : Nat} {bs : List Byte} (v : Byte)
    (h : m.holds a bs) : (m.write (a + bs.length) v).holds a (bs ++ [v]) := by
  refine Memory.holds_append.mpr ⟨Memory.holds_write v h fun i hi => by omega, Memory.holds_cons.mpr ⟨?_, ?_⟩⟩
  · rw [Memory.read_write hm, if_pos rfl]
  · intro i hi
    exact absurd hi (Nat.not_lt_zero i)

/-! ## DECOMPRESS's argument checks (R183) -/

/-- The argument checks follow the CMD write, whatever its code (R28, R183). -/
theorem step_startCommand {s : State} (hin : s.inputs = []) (hbusy : s.busy = false) (op : Byte) :
    step (startCommand op s) = checkStep (startCommand op s) := by
  rw [startCommand_of_not_busy hbusy]
  exact step_of_no_inputs hin

/-- Arguments that pass every check of DECOMPRESS. -/
theorem failedCheck_of_lastOp_decompress {s : State} (h : s.status.lastOp = opDecompress)
    (hsrc : s.srcBase.toNat + s.srcLen.toNat ≤ 4294967296) (hdst : s.dstBase.toNat + s.dstLen.toNat ≤ 4294967296)
    (hlen : 9 ≤ s.srcLen.toNat) (hov : s.srcRegion.overlaps s.dstRegion = false) : failedCheck s = none := by
  have hknown : s.opKnown = true := by rw [State.opKnown, h]; rfl
  have hmask : s.isMask = false := by rw [State.isMask, h]; rfl
  have hdec : s.isDecompress = true := by rw [State.isDecompress, h]; rfl
  have henc : s.isCompress = false := by rw [State.isCompress, h]; rfl
  have hws : s.srcRegion.wraps = false := by simpa [Region.wraps, State.srcRegion] using hsrc
  have hwd : s.dstRegion.wraps = false := by simpa [Region.wraps, State.dstRegion] using hdst
  simp [failedCheck, argumentChecks, firstFailing, hknown, hmask, hdec, henc, hws, hwd, hov, hlen]

theorem beginBody_of_decompress {s : State} (h : s.status.lastOp = opDecompress) (hord : s.overDevice = false) :
    beginBody s = decompressBegin s := by
  have hmask : s.isMask = false := by rw [State.isMask, h]; rfl
  have hdec : s.isDecompress = true := by rw [State.isDecompress, h]; rfl
  rw [beginBody, hord, hmask, hdec, if_neg Bool.false_ne_true, if_neg Bool.false_ne_true, if_pos rfl]

/-! ## The decoder's moves (R121) -/

theorem step_of_decRun {s : State} (hin : s.inputs = []) (hp : s.phase = .decRun) : step s = decodeStep s := by
  rw [step_of_no_inputs hin, coreStep, hp]

theorem loopGuard_iff {s : State} :
    s.loopGuard = true ↔ s.srcPos.toNat < s.srcLen.toNat ∧ s.dstPos.toNat < s.dstLen.toNat := by
  simp [State.loopGuard]

theorem decodeStep_of_flagByte {s : State} (h : s.srcPos = 8 ∨ s.bit = 256 ∧ s.loopGuard = true) :
    decodeStep s = flagsStep s := by
  rw [decodeStep]
  obtain hpos | ⟨hbit, hguard⟩ := h
  · rw [if_pos hpos]
  · have hdue : s.tokenDue = false := by rw [State.tokenDue, hbit]; rfl
    rw [hdue, hguard, if_neg Bool.false_ne_true, if_pos rfl, if_pos hbit, ite_self]

theorem decodeStep_of_token {s : State} (hpos : s.srcPos ≠ 8) (hbit : s.bit ≠ 256) (hguard : s.loopGuard = true) :
    decodeStep s = tokenStep s := by
  rw [decodeStep, if_neg hpos, hguard, if_pos rfl, if_neg hbit, ite_self]

theorem decodeStep_of_end {s : State} (hpos : s.srcPos ≠ 8) (hbit : s.bit ≠ 1) (hguard : s.loopGuard = false) :
    decodeStep s = .next (decompressFinish s) := by
  have hdue : s.tokenDue = false := by rw [State.tokenDue, beq_false_of_ne hbit, Bool.false_and]
  rw [decodeStep, if_neg hpos, hdue, hguard, if_neg Bool.false_ne_true, if_neg Bool.false_ne_true]

/-- The byte that the decoder fetches next. -/
def State.nextByte (s : State) : Byte := s.mem.read (s.srcBase.toNat + s.srcPos.toNat)

/-- The fetch of a one-byte instruction, a flag byte or a literal (R122, R123). -/
theorem fetch_of_size_one {s : State} {c : DecodeContext} {i : Instr} (hc : c.size = 1)
    (hlt : s.srcPos.toNat < s.srcLen.toNat) (hw : s.srcBase.toNat + s.srcLen.toNat ≤ addrSpace)
    (hi : decode c [s.nextByte] = .ok (i, [])) : fetch c s = .ok (.ok i) := by
  rw [State.nextByte] at hi
  rw [fetch, hc, if_neg (Nat.not_lt.mpr hlt), srcReads_ok hlt hw]
  simp [hi]

/-- What a flag byte's step leads to (R122): `flagsStep_of_lt`. -/
def flagsDone (s : State) : State := { s with bit := 1, flag := s.nextByte, srcPos := s.srcPos + 1 }

theorem flagsStep_of_lt {s : State} (hlt : s.srcPos.toNat < s.srcLen.toNat)
    (hw : s.srcBase.toNat + s.srcLen.toNat ≤ addrSpace) : flagsStep s = .next (flagsDone s) := by
  rw [flagsStep, fetch_of_size_one rfl hlt hw rfl]
  rfl

/-- A literal with a byte of SRC left and room in DST (R123). -/
theorem execLit_of_lt {s : State} (b : Byte) (hlt : s.srcPos.toNat < s.srcLen.toNat)
    (hroom : s.dstPos.toNat < s.dstLen.toNat) (hw : s.dstBase.toNat + s.dstLen.toNat ≤ addrSpace) :
    execLit b s = .next (literalAdvance (storeByte (s.dstBase.toNat + s.dstPos.toNat) b s)) := by
  rw [execLit, if_neg (Nat.not_le.mpr hlt), dstWrite_ok b hroom hw, andThen_next]

/-- What a literal's step leads to (R121, R123): `tokenStep_of_literal`. -/
def literalDone (s : State) : State :=
  doubleBit (literalAdvance (storeByte (s.dstBase.toNat + s.dstPos.toNat) s.nextByte (beginToken s)))

theorem tokenStep_of_literal {s : State} (hp : s.phase = .decRun) (hsel : s.selectsLiteral = true)
    (hguard : s.loopGuard = true) (hws : s.srcBase.toNat + s.srcLen.toNat ≤ addrSpace)
    (hwd : s.dstBase.toNat + s.dstLen.toNat ≤ addrSpace) : tokenStep s = .next (literalDone s) := by
  obtain ⟨hlt, hroom⟩ := loopGuard_iff.mp hguard
  have hplace : tokenContext s = .literal := if_pos hsel
  have hexec := execLit_of_lt (s := beginToken s) s.nextByte hlt hroom hwd
  rw [tokenStep, hplace, fetch_of_size_one (i := .lit s.nextByte) rfl hlt hws rfl]
  simp only [withValue_ok, exec, hexec, andThen_next]
  rw [endToken_of_decRun (by exact hp)]
  rfl

/-! ## The bit cursor (R82, R121) -/

/-- The flag bit under a cursor at place `k`. -/
theorem selectsLiteral_iff {s : State} {k : Nat} (hk : k < 8) (hbit : s.bit = BitVec.twoPow 9 k) :
    s.selectsLiteral = true ↔ s.flag.toNat >>> k % 2 = 1 := by
  have hone : ∀ k < 8, BitVec.twoPow 9 k ≠ 0#9 := by decide
  have hflag : (s.flag.setWidth 9).getLsbD k = s.flag.toNat.testBit k := by
    rw [BitVec.getLsbD_setWidth, BitVec.testBit_toNat, decide_eq_true (by omega : k < 9), Bool.true_and]
  rw [State.selectsLiteral, hbit, BitVec.and_twoPow, hflag, Nat.testBit_eq_decide_div_mod_eq, Nat.shiftRight_eq_div_pow]
  split_ifs with h
  · simpa [hone k hk] using h
  · simpa using h

theorem selector_le_one (t : Instr) : selector t ≤ 1 := by cases t <;> simp [selector]

theorem groupFlag_lt (ts : List Instr) : groupFlag ts < 2 ^ ts.length := by
  induction ts with
  | nil => exact Nat.one_pos
  | cons t ts ih =>
    have hsel := selector_le_one t
    rw [groupFlag, List.length_cons, Nat.pow_succ]
    omega

/-- A group's tokens `ts`, the rest of it after its first `k`, are next: the flag byte's remaining bits are their
selectors. -/
structure InGroup (k : Nat) (ts : List Instr) (s : State) : Prop where
  cursor : s.bit = BitVec.twoPow 9 k
  flags : s.flag.toNat >>> k = groupFlag ts

theorem InGroup.selectsLiteral {s : State} {k : Nat} {b : Byte} {ts : List Instr} (h : InGroup k (.lit b :: ts) s)
    (hk : k < 8) : s.selectsLiteral = true := by
  rw [selectsLiteral_iff hk h.cursor, h.flags, groupFlag, selector]
  omega

/-- The cursor doubles and one token is gone. -/
theorem InGroup.next {s t : State} {k : Nat} {i : Instr} {ts : List Instr} (h : InGroup k (i :: ts) s)
    (hbit : t.bit = s.bit <<< 1) (hflag : t.flag = s.flag) : InGroup (k + 1) ts t where
  cursor := by rw [hbit, h.cursor, BitVec.twoPow_eq, BitVec.twoPow_eq, BitVec.shiftLeft_add]
  flags := by
    have hsel := selector_le_one i
    rw [hflag, Nat.shiftRight_succ, h.flags, groupFlag]
    omega

/-! ## The token loop between two steps -/

/-- DECOMPRESS with arguments that have passed its checks (R183), whose buffers are left alone (R220). -/
structure LegalDecompress (s : State) : Prop where
  command : s.isDecompress = true
  checks : failedCheck s = none
  untainted : s.tainted = false

theorem LegalDecompress.regions {s : State} (h : LegalDecompress s) :
    s.srcBase.toNat + s.srcLen.toNat ≤ addrSpace ∧ s.dstBase.toNat + s.dstLen.toNat ≤ addrSpace ∧
      s.srcRegion.overlaps s.dstRegion = false ∧ 9 ≤ s.srcLen.toNat := by
  obtain ⟨hws, hdst, -, hlen, -⟩ := checks_regions h.checks
  obtain ⟨hwd, hov⟩ := hdst (.inl h.command)
  exact ⟨hws, hwd, hov, hlen h.command⟩

theorem LegalDecompress.of_sameFrame {s t : State} (h : LegalDecompress s) (f : SameFrame s t) : LegalDecompress t where
  command := by rw [State.isDecompress, f.status]; exact h.command
  checks := f.failedCheck.trans h.checks
  untainted := f.tainted.trans h.untainted

/-- The DECOMPRESS that began in `s₀` has produced `out`, and `rest` is what it has still to read. -/
structure Decoding (s₀ : State) (rest out : List Byte) (s : State) : Prop where
  legal : LegalDecompress s
  frame : SameFrame s₀ s
  phase : s.phase = .decRun
  inputs : s.inputs = []
  memory : s.mem.wf = true
  begun : 8 ≤ s.srcPos.toNat
  consumed : s.srcPos.toNat + rest.length = s.srcLen.toNat
  unread : s.mem.holds (s.srcBase.toNat + s.srcPos.toNat) rest
  produced : s.dstPos.toNat = out.length
  output : s.mem.holds s.dstBase.toNat out

namespace Decoding

variable {s₀ s : State} {b : Byte} {rest out : List Byte}

theorem nextByte (h : Decoding s₀ (b :: rest) out s) : s.nextByte = b := (Memory.holds_cons.mp h.unread).1

theorem srcPos_lt (h : Decoding s₀ (b :: rest) out s) : s.srcPos.toNat < s.srcLen.toNat := by
  rw [← h.consumed, List.length_cons]
  omega

theorem toNat_srcPos_succ (h : Decoding s₀ (b :: rest) out s) : (s.srcPos + 1).toNat = s.srcPos.toNat + 1 :=
  toNat_add_one_of_lt h.srcPos_lt

/-- The stream behind its first byte. -/
theorem tail (h : Decoding s₀ (b :: rest) out s) :
    8 ≤ (s.srcPos + 1).toNat ∧ (s.srcPos + 1).toNat + rest.length = s.srcLen.toNat ∧
      s.mem.holds (s.srcBase.toNat + (s.srcPos + 1).toNat) rest := by
  have hbegun := h.begun
  have hconsumed := h.consumed
  rw [List.length_cons] at hconsumed
  rw [h.toNat_srcPos_succ]
  exact ⟨by omega, by omega, (Memory.holds_cons.mp h.unread).2⟩

/-- No byte that is still to be read is in DST (R183). -/
theorem unread_ne (h : Decoding s₀ rest out s) {i j : Nat} (hi : i < rest.length) (hj : j < s.dstLen.toNat) :
    s.srcBase.toNat + s.srcPos.toNat + i ≠ s.dstBase.toNat + j := by
  obtain ⟨-, -, hov, -⟩ := h.legal.regions
  rw [Nat.add_assoc]
  have hlt : s.srcPos.toNat + i < s.srcLen.toNat := by rw [← h.consumed]; omega
  exact Region.ne_of_not_overlaps hov hlt hj

/-- The loop reads a group's flag byte (R121, R122). -/
theorem step_flagByte (h : Decoding s₀ (b :: rest) out s)
    (hturn : s.srcPos = 8 ∨ s.bit = 256 ∧ s.dstPos.toNat < s.dstLen.toNat) :
    step s = .next (flagsDone s) ∧ Decoding s₀ rest out (flagsDone s) := by
  obtain ⟨hws, -⟩ := h.legal.regions
  obtain ⟨hbegun, hconsumed, hunread⟩ := h.tail
  have hframe : SameFrame s (flagsDone s) := ⟨rfl, rfl, rfl, rfl, rfl, rfl, rfl, rfl⟩
  have hdue : s.srcPos = 8 ∨ s.bit = 256 ∧ s.loopGuard = true :=
    hturn.imp_right fun ⟨hbit, hroom⟩ => ⟨hbit, loopGuard_iff.mpr ⟨h.srcPos_lt, hroom⟩⟩
  refine ⟨by rw [step_of_decRun h.inputs h.phase, decodeStep_of_flagByte hdue, flagsStep_of_lt h.srcPos_lt hws], ?_⟩
  exact ⟨h.legal.of_sameFrame hframe, h.frame.trans hframe, h.phase, h.inputs, h.memory, hbegun, hconsumed, hunread,
    h.produced, h.output⟩

/-- The loop moves a literal to DST (R121, R123). -/
theorem step_literal (h : Decoding s₀ (b :: rest) out s) (hpos : s.srcPos ≠ 8) (hbit : s.bit ≠ 256)
    (hsel : s.selectsLiteral = true) (hroom : out.length < s.dstLen.toNat) :
    step s = .next (literalDone s) ∧ Decoding s₀ rest (out ++ [b]) (literalDone s) := by
  obtain ⟨hws, hwd, -⟩ := h.legal.regions
  obtain ⟨hbegun, hconsumed, hunread⟩ := h.tail
  rw [← h.produced] at hroom
  have hguard : s.loopGuard = true := loopGuard_iff.mpr ⟨h.srcPos_lt, hroom⟩
  have hframe : SameFrame s (literalDone s) := ⟨rfl, rfl, rfl, rfl, rfl, rfl, rfl, rfl⟩
  have hkept : (literalDone s).mem.holds (s.srcBase.toNat + (s.srcPos + 1).toNat) rest :=
    Memory.holds_write _ hunread fun i hi => by
      have hne := h.unread_ne (i := i + 1) (Nat.succ_lt_succ hi) hroom
      rw [h.toNat_srcPos_succ]
      omega
  have hproduced : (s.dstPos + 1).toNat = (out ++ [b]).length := by
    rw [toNat_add_one_of_lt hroom, h.produced, List.length_append, List.length_singleton]
  have houtput : (literalDone s).mem.holds s.dstBase.toNat (out ++ [b]) := by
    have hwritten := Memory.holds_write_append h.memory s.nextByte h.output
    rw [← h.produced] at hwritten
    rw [← h.nextByte]
    exact hwritten
  refine ⟨by rw [step_of_decRun h.inputs h.phase, decodeStep_of_token hpos hbit hguard,
    tokenStep_of_literal h.phase hsel hguard hws hwd], ?_⟩
  exact ⟨h.legal.of_sameFrame hframe, h.frame.trans hframe, h.phase, h.inputs, Memory.wf_write h.memory (by omega) _,
    hbegun, hconsumed, hkept, hproduced, houtput⟩

/-- After its flag byte a group's tokens are next. -/
theorem inGroup_flagsDone {ts : List Instr} (h : Decoding s₀ (BitVec.ofNat 8 (groupFlag ts) :: rest) out s)
    (hlen : ts.length ≤ 8) : InGroup 0 ts (flagsDone s) where
  cursor := rfl
  flags := by
    have hsmall : groupFlag ts < 2 ^ 8 := (groupFlag_lt ts).trans_le (Nat.pow_le_pow_right Nat.two_pos hlen)
    show s.nextByte.toNat >>> 0 = groupFlag ts
    rw [h.nextByte, Nat.shiftRight_zero, BitVec.toNat_ofNat, Nat.mod_eq_of_lt hsmall]

/-- The loop moves the literals of one group, or what is left of it (R121, R123). -/
theorem reaches_literals {lits : List Byte} {k : Nat} (h : Decoding s₀ (lits ++ rest) out s)
    (hgroup : InGroup k (lits.map .lit) s) (hpos : 8 < s.srcPos.toNat) (hk : k + lits.length ≤ 8)
    (hroom : out.length + lits.length ≤ s₀.dstLen.toNat) :
    ∃ u, Reaches s u ∧ Decoding s₀ rest (out ++ lits) u ∧ u.bit = BitVec.twoPow 9 (k + lits.length) := by
  induction lits generalizing s out k with
  | nil =>
    rw [List.append_nil]
    exact ⟨s, .refl s, h, hgroup.cursor⟩
  | cons b lits ih =>
    rw [List.length_cons] at hk hroom
    have hbit : ∀ k < 8, BitVec.twoPow 9 k ≠ 256 := by decide
    obtain ⟨hstep, hnext⟩ := h.step_literal (fun e => by rw [e] at hpos; exact absurd hpos (by decide))
      (hgroup.cursor ▸ hbit k (by omega)) (hgroup.selectsLiteral (by omega)) (by rw [h.frame.dstLen]; omega)
    have hpos' : 8 < (s.srcPos + 1).toNat := by rw [h.toNat_srcPos_succ]; omega
    obtain ⟨u, hreach, hdec, hcursor⟩ := ih hnext (hgroup.next rfl rfl) hpos' (by omega)
      (by rw [List.length_append, List.length_singleton]; omega)
    rw [List.append_assoc] at hdec
    rw [Nat.add_assoc, Nat.add_comm 1] at hcursor
    exact ⟨u, .step hstep hreach, hdec, hcursor⟩

/-- A stream that has been read to its end ends the command (R129, R188). -/
theorem step_end (h : Decoding s₀ [] out s) (hbit : s.bit ≠ 1) :
    step s = .next (endCommand .done s.srcPos s.dstPos s) := by
  obtain ⟨-, -, -, hlen⟩ := h.legal.regions
  have hend : s.srcPos.toNat = s.srcLen.toNat := h.consumed
  have hpos : s.srcPos ≠ 8 := fun e => by
    rw [← hend, e] at hlen
    exact absurd hlen (by decide)
  have hguard : s.loopGuard = false := Bool.eq_false_iff.mpr fun hg => by
    obtain ⟨hlt, -⟩ := loopGuard_iff.mp hg
    omega
  rw [step_of_decRun h.inputs h.phase, decodeStep_of_end hpos hbit hguard, decompressFinish, finish,
    conclude_of_untainted h.legal.untainted]

end Decoding

/-! ## The bytes of a literal-only stream (R132) -/

theorem flatMap_encode_literals (lits : List Byte) : (lits.map Instr.lit).flatMap encode = lits := by
  induction lits with
  | nil => rfl
  | cons b lits ih => rw [List.map_cons, List.flatMap_cons, ih]; rfl

theorem assembleGroups_literals {lits : List Byte} (h : lits ≠ []) (fuel : Nat) :
    assembleGroups (fuel + 1) (lits.map .lit) =
      BitVec.ofNat 8 (groupFlag ((lits.take 8).map .lit)) ::
        (lits.take 8 ++ assembleGroups fuel ((lits.drop 8).map .lit)) := by
  cases lits with
  | nil => exact absurd rfl h
  | cons b lits =>
    rw [List.map_cons, assembleGroups, ← List.map_cons, ← List.map_take, ← List.map_drop, flatMap_encode_literals]

theorem assembleGroups_nil (fuel : Nat) : assembleGroups fuel [] = [] := by cases fuel <;> rfl

theorem assemble_literals (header : List Byte) {lits : List Byte} (h : lits ≠ []) :
    assemble header (lits.map .lit) = header ++ assembleGroups lits.length (lits.map .lit) := by
  rw [assemble, List.isEmpty_map, List.isEmpty_eq_false_iff.mpr h, if_neg Bool.false_ne_true, List.length_map]

/-- The loop moves all literals of the stream's remaining groups (R132). -/
theorem Decoding.reaches_groups {s₀ s : State} {lits out : List Byte} {fuel : Nat} (hfuel : lits.length ≤ fuel)
    (h : Decoding s₀ (assembleGroups fuel (lits.map .lit)) out s) (hne : lits ≠ [])
    (hturn : s.srcPos = 8 ∨ s.bit = 256) (hroom : out.length + lits.length ≤ s₀.dstLen.toNat) :
    ∃ u, Reaches s u ∧ Decoding s₀ [] (out ++ lits) u ∧ u.bit ≠ 1 := by
  have hpositive : 0 < lits.length := List.length_pos_iff.mpr hne
  induction fuel generalizing s out lits with
  | zero => omega
  | succ fuel ih =>
    rw [assembleGroups_literals hne] at h
    have htake : (lits.take 8).length = min 8 lits.length := List.length_take
    have hdrop : (lits.drop 8).length = lits.length - 8 := List.length_drop
    obtain ⟨hflag, hnext⟩ := h.step_flagByte
      (hturn.imp_right fun hbit => ⟨hbit, by rw [h.produced, h.frame.dstLen]; omega⟩)
    have hpos : 8 < (s.srcPos + 1).toNat := by
      have hbegun := h.begun
      rw [h.toNat_srcPos_succ]
      omega
    obtain ⟨u, hreach, hdec, hcursor⟩ := hnext.reaches_literals
      (h.inGroup_flagsDone (by rw [List.length_map]; omega)) hpos (by omega) (by omega)
    rw [Nat.zero_add, htake] at hcursor
    by_cases hlast : lits.length ≤ 8
    · have hnotOne : ∀ k < 9, 0 < k → BitVec.twoPow 9 k ≠ 1 := by decide
      rw [List.drop_eq_nil_of_le hlast, List.take_of_length_le hlast, List.map_nil, assembleGroups_nil] at hdec
      exact ⟨u, .step hflag hreach, hdec, hcursor ▸ hnotOne _ (by omega) (by omega)⟩
    · obtain ⟨v, hreach', hdec', hbit⟩ := ih (lits := lits.drop 8) (by omega) hdec
        (List.ne_nil_of_length_pos (by omega)) (.inr (by rw [hcursor, min_eq_left (by omega)]; rfl))
        (by rw [List.length_append]; omega) (by omega)
      rw [List.append_assoc, List.take_append_drop] at hdec'
      exact ⟨v, .step hflag (hreach.trans hreach'), hdec', hbit⟩

/-! ## The whole command (R120, R132) -/

/-- DECOMPRESS's body as its CMD write and its passed checks leave it (R28, R120): `step_startCommand_decompress`. -/
def decompressBody (s : State) : State :=
  { s with
    status := { state := .busy, cause := none, lastOp := opDecompress }
    phase := .decRun
    claim := some (claimFor opDecompress s)
    tainted := false
    srcPos := 8
    dstPos := 0 }

section
variable {s : State} (hin : s.inputs = []) (hbusy : s.busy = false) (hord : s.ordinary opDecompress)
  (hsrc : s.srcBase.toNat + s.srcLen.toNat ≤ 4294967296) (hdst : s.dstBase.toNat + s.dstLen.toNat ≤ 4294967296)
  (hlen : 9 ≤ s.srcLen.toNat) (hov : s.srcRegion.overlaps s.dstRegion = false)
include hsrc hdst hlen hov

theorem legal_decompressBody : LegalDecompress (decompressBody s) where
  command := rfl
  checks := failedCheck_of_lastOp_decompress rfl hsrc hdst hlen hov
  untainted := rfl

include hin in
/-- The body begins with nothing produced and the whole stream behind the header to read (R120). -/
theorem decoding_decompressBody (hm : s.mem.wf = true) {stream : List Byte} (hsize : 8 + stream.length = s.srcLen.toNat)
    (hstream : s.mem.holds (s.srcBase.toNat + 8) stream) :
    Decoding (decompressBody s) stream [] (decompressBody s) where
  legal := legal_decompressBody hsrc hdst hlen hov
  frame := ⟨rfl, rfl, rfl, rfl, rfl, rfl, rfl, rfl⟩
  phase := rfl
  inputs := hin
  memory := hm
  begun := le_rfl
  consumed := hsize
  unread := hstream
  produced := rfl
  output := fun i hi => absurd hi (Nat.not_lt_zero i)

include hin hbusy hord in
/-- After its CMD write DECOMPRESS checks its arguments, and its body begins (R28, R183, R120). -/
theorem step_startCommand_decompress : step (startCommand opDecompress s) = .next (decompressBody s) := by
  rw [step_startCommand hin hbusy, startCommand_of_not_busy hbusy, checkStep_of_passed,
    beginBody_of_decompress rfl (overDevice_eq_false_iff.mpr hord)]
  · rfl
  · exact failedCheck_of_lastOp_decompress rfl hsrc hdst hlen hov

end

/-! ## The statements -/

/-- Settles O55: every flag bit in use selects a literal, so the token loop moves the stream's groups to DST one byte
at a time (`Decoding.reaches_groups`) and ends with SRC consumed (`Decoding.step_end`). -/
theorem literalOnlyStream : Obligations.LiteralOnlyStream := by
  intro s header lits hin hbusy hm hord hheader hne hsrcLen hdstLen hsrc hdst hov hholds
  have hsize := length_assemble header (lits.map .lit)
  have hlen : 9 ≤ s.srcLen.toNat := by omega
  rw [assemble_literals header hne] at hsrcLen hholds
  rw [List.length_append, hheader] at hsrcLen
  have hstream := (Memory.holds_append.mp hholds).2
  rw [hheader] at hstream
  have hbody := decoding_decompressBody hin hsrc hdst hlen hov hm hsrcLen.symm hstream
  obtain ⟨u, hreach, hdec, hbit⟩ := hbody.reaches_groups le_rfl hne (.inl rfl) (by simp [decompressBody, hdstLen])
  have hconsumed : u.srcPos = s.srcLen := BitVec.eq_of_toNat_eq (hdec.consumed.trans (by rw [hdec.frame.srcLen]; rfl))
  have hproduced : u.dstPos = s.dstLen := BitVec.eq_of_toNat_eq (hdec.produced.trans hdstLen.symm)
  have houtput := hdec.output
  rw [hdec.frame.dstBase] at houtput
  have hstart := step_startCommand_decompress hin hbusy hord hsrc hdst hlen hov
  refine ⟨_, _, rfl, .step hstart (hreach.trans (.step (hdec.step_end hbit) (.refl _))), ?_, hconsumed, hproduced,
    houtput⟩
  rw [endCommand_status, hdec.frame.status]
  rfl

end Sys2Proof.Machine
end

/-! # The statements of 42_encoder.md -/

section
namespace Sys2Proof.Machine

/-! ## The match search (R156) -/

/-- The bytes that `matchLength` counts match. -/
theorem matches_of_lt_matchLength {src : Nat → Byte} {limit p q j : Nat} (h : j < matchLength src p q limit) :
    src (p + j) = src (q + j) := by
  induction limit generalizing p q j with
  | zero => exact absurd h (Nat.not_lt_zero j)
  | succ limit ih =>
    rw [matchLength] at h
    split_ifs at h with heq
    · cases j with
      | zero => exact heq
      | succ j =>
        have hnext := ih (Nat.lt_of_succ_lt_succ h)
        rwa [Nat.succ_add_eq_add_succ, Nat.succ_add_eq_add_succ] at hnext
    · exact absurd h (Nat.not_lt_zero j)

/-- No longer run of bytes matches. -/
theorem le_matchLength {src : Nat → Byte} {limit p q l : Nat} (hl : l ≤ limit)
    (h : ∀ j < l, src (p + j) = src (q + j)) : l ≤ matchLength src p q limit := by
  induction limit generalizing p q l with
  | zero => exact hl
  | succ limit ih =>
    cases l with
    | zero => exact Nat.zero_le _
    | succ l =>
      have htail : ∀ j < l, src (p + 1 + j) = src (q + 1 + j) := fun j hj => by
        rw [Nat.succ_add_eq_add_succ, Nat.succ_add_eq_add_succ]
        exact h (j + 1) (Nat.succ_lt_succ hj)
      have hhead : src p = src q := h 0 (Nat.succ_pos l)
      rw [matchLength, if_pos hhead]
      exact Nat.succ_le_succ (ih (Nat.le_of_succ_le_succ hl) htail)

/-- `best` is what the search has found at `p` once it has tried the distances below `d`: the longest match, and the
nearest of the longest. -/
structure BestBelow (src : Nat → Byte) (p lmax d : Nat) (best : Nat × Nat) : Prop where
  tried : best.1 ≠ 0 → 1 ≤ best.2 ∧ best.2 < d
  noMatch : best.1 = 0 → best.2 = 0
  found : ∀ j < best.1, src (p + j) = src (p - best.2 + j)
  longest : ∀ d', 1 ≤ d' → d' < d → matchLength src p (p - d') lmax ≤ best.1
  nearest : ∀ d', 1 ≤ d' → d' < d → matchLength src p (p - d') lmax = best.1 → best.1 ≠ 0 → best.2 ≤ d'

/-- Nothing has been tried before distance 1. -/
theorem bestBelow_one (src : Nat → Byte) (p lmax : Nat) : BestBelow src p lmax 1 (0, 0) where
  tried h := absurd rfl h
  noMatch _ := rfl
  found j hj := absurd hj (Nat.not_lt_zero j)
  longest d' h1 h2 := by omega
  nearest d' h1 h2 := by omega

/-- One round of the search: a strictly longer match replaces the best. -/
theorem BestBelow.next {src : Nat → Byte} {p lmax d : Nat} {best : Nat × Nat} (h : BestBelow src p lmax d best)
    (hd : 1 ≤ d) :
    BestBelow src p lmax (d + 1)
      (if best.1 < matchLength src p (p - d) lmax then (matchLength src p (p - d) lmax, d) else best) := by
  have hcases : ∀ d' < d + 1, d' < d ∨ d' = d := fun d' h' => Nat.lt_succ_iff_lt_or_eq.mp h'
  split_ifs with hlonger
  · refine ⟨fun _ => ⟨hd, Nat.lt_succ_self d⟩, fun h0 => ?_, fun j hj => matches_of_lt_matchLength hj,
      fun d' h1 h2 => ?_, fun d' h1 h2 heq _ => ?_⟩
    · exact absurd h0 (Nat.ne_zero_of_lt hlonger)
    · obtain h2 | rfl := hcases d' h2
      · exact (h.longest d' h1 h2).trans hlonger.le
      · exact le_rfl
    · obtain h2 | rfl := hcases d' h2
      · exact absurd (heq.symm.trans_le (h.longest d' h1 h2)) (Nat.not_le.mpr hlonger)
      · exact le_rfl
  · refine ⟨fun h0 => ?_, h.noMatch, h.found, fun d' h1 h2 => ?_, fun d' h1 h2 heq h0 => ?_⟩
    · obtain ⟨h1, h2⟩ := h.tried h0
      exact ⟨h1, h2.trans (Nat.lt_succ_self d)⟩
    · obtain h2 | rfl := hcases d' h2
      · exact h.longest d' h1 h2
      · exact Nat.not_lt.mp hlonger
    · obtain h2 | rfl := hcases d' h2
      · exact h.nearest d' h1 h2 heq h0
      · exact (h.tried h0).2.le

/-- The search tries `fuel` distances more. -/
theorem BestBelow.searchFrom {src : Nat → Byte} {p lmax fuel d : Nat} {best : Nat × Nat}
    (h : BestBelow src p lmax d best) (hd : 1 ≤ d) :
    BestBelow src p lmax (d + fuel) (searchFrom src p lmax fuel d best) := by
  induction fuel generalizing d best with
  | zero => exact h
  | succ fuel ih =>
    rw [Nat.add_succ, ← Nat.succ_add]
    exact ih (h.next hd) (Nat.succ_pos d)

theorem bestBelow_bestMatch (src : Nat → Byte) (n p : Nat) :
    BestBelow src p (min 17 (n - p)) (1 + min p 4095) (bestMatch src n p) :=
  (bestBelow_one src p _).searchFrom le_rfl

/-- Settles O38: the search's invariant `BestBelow` holds before distance 1 and is kept by each round, and
`matchLength` is the longest run that matches at a distance. -/
theorem bestMatchIsLongestThenNearest : Obligations.BestMatchIsLongestThenNearest := by
  intro src n p l d hbest
  have h := bestBelow_bestMatch src n p
  have hle := bestMatch_le src n p
  rw [← hbest] at h hle
  refine ⟨fun hl => ?_, h.noMatch, hle, h.found, fun d' l' hd hd' hl' hmatch => ?_⟩
  · obtain ⟨h1, h2⟩ := h.tried hl
    exact ⟨h1, by omega⟩
  · have hlong := h.longest d' hd (by omega)
    have hrun := le_matchLength hl' hmatch
    exact ⟨hrun.trans hlong, fun heq hl => h.nearest d' hd (by omega) (le_antisymm hlong (heq ▸ hrun)) hl⟩

/-! ## The encoder's moves (R155) -/

theorem step_of_encRun {s : State} (hin : s.inputs = []) (hp : s.phase = .encRun) : step s = encodeStep s := by
  rw [step_of_no_inputs hin, coreStep, hp]

/-- What a full group's end leads to before the next token (R155): `encodeStep_of_fullGroup`. -/
def groupOpened (s : State) : State := openGroup (storeByte (s.dstBase.toNat + s.flagPos.toNat) s.flag s)

/-- What writing a token leads to (R155): `encodeStep_of_openGroup`. -/
def tokenWritten (t : Instr) (s : State) : State :=
  tokenAdvance t (noteSelector t (storeBytes (s.dstBase.toNat + s.dstPos.toNat) (encode t) s))

/-- What COMPRESS's last round leads to (R155): `encodeStep_of_end`. -/
def compressFinished (s : State) : State :=
  finish s.srcLen s.dstPos (storeByte (s.dstBase.toNat + s.flagPos.toNat) s.flag s)

theorem not_wraps_of_le {r : Region} (h : r.base + r.len ≤ addrSpace) : ¬ r.wraps = true := by
  simpa [Region.wraps] using h

theorem groupOpened_bit_ne (s : State) : (groupOpened s).bit ≠ 256 := (by decide : (1 : BitVec 9) ≠ 256)

section
variable {s : State} (hws : s.srcBase.toNat + s.srcLen.toNat ≤ addrSpace)
  (hwd : s.dstBase.toNat + s.dstLen.toNat ≤ addrSpace)
include hws hwd

theorem encodeStep_of_openGroup (hlt : s.srcPos.toNat < s.srcLen.toNat) (hbit : s.bit ≠ 256)
    (hroom : s.dstPos.toNat + (encode (tokenAt s)).length ≤ s.dstLen.toNat) :
    encodeStep s = .next (tokenWritten (tokenAt s) s) := by
  have hnowrap := not_wraps_of_le (r := s.srcRegion) hws
  rw [encodeStep, if_neg hnowrap, if_pos hlt, nextGroup, if_neg hbit, andThen_next, emitToken,
    dstWrites_ok _ hroom hwd, andThen_next]
  rfl

/-- With the group full, the step is that of the state with a new group opened. -/
theorem encodeStep_of_fullGroup (hlt : s.srcPos.toNat < s.srcLen.toNat) (hbit : s.bit = 256)
    (hroom : s.flagPos.toNat < s.dstLen.toNat) : encodeStep s = encodeStep (groupOpened s) := by
  have hnowrap := not_wraps_of_le (r := s.srcRegion) hws
  rw [encodeStep, if_neg hnowrap, if_pos hlt, nextGroup, if_pos hbit, dstWrite_ok _ hroom hwd, andThen_next,
    andThen_next, encodeStep, if_neg (by exact hnowrap), if_pos (by exact hlt), nextGroup,
    if_neg (groupOpened_bit_ne s), andThen_next]
  rfl

theorem encodeStep_of_end (hle : s.srcLen.toNat ≤ s.srcPos.toNat) (hroom : s.flagPos.toNat < s.dstLen.toNat) :
    encodeStep s = .next (compressFinished s) := by
  have hnowrap := not_wraps_of_le (r := s.srcRegion) hws
  rw [encodeStep, if_neg hnowrap, if_neg (Nat.not_lt.mpr hle), dstWrite_ok _ hroom hwd, andThen_next]
  rfl

end

theorem chooseToken_of_le {l d : Nat} (b : Byte) (h : 2 ≤ l) : chooseToken (l, d) b = .ref d l := if_pos h

theorem chooseToken_of_lt {l d : Nat} (b : Byte) (h : l < 2) : chooseToken (l, d) b = .lit b :=
  if_neg (Nat.not_le.mpr h)

/-- Settles O37: the three forms of the encoder's round, with the token chosen by the best match's length. -/
theorem encodeTokenStep : Obligations.EncodeTokenStep := by
  intro s l d hin hp hlt hws hwd hroom hflag hbest
  have hle := bestMatch_le s.srcByte s.srcLen.toNat s.srcPos.toNat
  rw [← hbest] at hle
  refine ⟨fun hbit => ?_, fun hbit hl => ?_, fun hbit hl => ?_⟩
  · rw [step_of_encRun hin hp, encodeStep_of_fullGroup hws hwd hlt hbit (by omega)]
    exact (step_of_encRun (s := groupOpened s) hin hp).symm
  · have htoken : tokenAt s = .ref d l := by rw [tokenAt, ← hbest, chooseToken_of_le _ hl]
    have hbytes := encode_ref (d := d) (l := l) (by omega)
    rw [step_of_encRun hin hp, encodeStep_of_openGroup hws hwd hlt hbit (by rw [htoken, hbytes]; exact hroom), htoken]
    simp [tokenWritten, tokenAdvance, noteSelector, selector, storeBytes, hbytes, Memory.writeList, doubleBit,
      tokenInput, BitVec.ofNat_add]
  · have htoken : tokenAt s = .lit (s.srcByte s.srcPos.toNat) := by rw [tokenAt, ← hbest, chooseToken_of_lt _ hl]
    rw [step_of_encRun hin hp,
      encodeStep_of_openGroup hws hwd hlt hbit (by rw [htoken]; exact (Nat.le_succ _).trans hroom), htoken]
    rfl

end Sys2Proof.Machine
end

/-! # DECOMPRESS of every assembled stream -/

section
namespace Sys2Proof.Machine

/-! ## The start of a reference (R124) -/

theorem fetch_reference {s : State} {d l : Nat} (hwf : (Instr.ref d l).wf = true)
    (hlt : s.srcPos.toNat + 2 ≤ s.srcLen.toNat) (hw : s.srcBase.toNat + s.srcLen.toNat ≤ addrSpace)
    (hbytes : s.mem.holds (s.srcBase.toNat + s.srcPos.toNat) (encode (.ref d l))) :
    fetch .reference s = .ok (.ok (.ref d l)) := by
  obtain ⟨-, hmin, hmax⟩ := wf_ref.mp hwf
  rw [encode_ref (by omega), Memory.holds_cons, Memory.holds_cons] at hbytes
  obtain ⟨hlow, hhigh, -⟩ := hbytes
  obtain ⟨hdist, hlen⟩ := reference_of_bytes hwf
  have hread : (List.range 2).map (fun k => s.mem.read (s.srcBase.toNat + s.srcPos.toNat + k)) =
      [BitVec.ofNat 8 (16 * d + (l - 2)), BitVec.ofNat 8 (d / 16)] := by
    rw [← hlow, ← hhigh]
    rfl
  have hsize : DecodeContext.reference.size = 2 := rfl
  rw [fetch, hsize, if_neg (Nat.not_lt.mpr hlt), srcReads_ok hlt hw, hread]
  simp only [decode_reference, hdist, hlen]

/-- What a valid reference's step leads to (R121, R124): `tokenStep_of_reference`. -/
def copyBegun (d l : Nat) (s : State) : State := beginCopy d l (consumeDescriptor (beginToken s))

theorem tokenStep_of_reference {s : State} {d l : Nat} (hsel : s.selectsLiteral = false)
    (hfetch : fetch .reference s = .ok (.ok (.ref d l))) (hlt : s.srcPos.toNat + 2 ≤ s.srcLen.toNat) (hd : 1 ≤ d)
    (hdist : d ≤ s.dstPos.toNat) : tokenStep s = .next (copyBegun d l s) := by
  have hplace : tokenContext s = .reference := by rw [tokenContext, hsel, if_neg Bool.false_ne_true]
  have hexec : execRef d l (beginToken s) = .next (copyBegun d l s) := by
    rw [execRef, if_neg (by exact Nat.not_lt.mpr hlt), if_neg (Nat.ne_zero_of_lt hd),
      if_neg (by exact Nat.not_lt.mpr hdist)]
    rfl
  have hphase : (copyBegun d l s).phase ≠ .decRun := by simp [copyBegun]
  rw [tokenStep, hplace, hfetch]
  simp only [withValue_ok, exec, hexec, andThen_next, endToken_of_not_decRun hphase]

/-! ## The copy (R127) -/

theorem step_of_decCopy {s : State} (hin : s.inputs = []) (hp : s.phase = .decCopy) : step s = copyStep s := by
  rw [step_of_no_inputs hin, coreStep, hp]

/-- What one copied byte leads to (R127): `copyStep_of_lt`. -/
def byteCopied (s : State) : State :=
  copyAdvance (storeByte (s.dstBase.toNat + s.dstPos.toNat) (s.mem.read (s.dstBase.toNat + s.copyFrom.toNat)) s)

theorem copyStep_of_lt {s : State} (hleft : 0 < s.copyLeft.toNat) (hroom : s.dstPos.toNat < s.dstLen.toNat)
    (hfrom : s.copyFrom.toNat < s.dstLen.toNat) (hw : s.dstBase.toNat + s.dstLen.toNat ≤ addrSpace) :
    copyStep s = .next (byteCopied s) := by
  have hmore : (0 < s.copyLeft.toNat && s.dstPos.toNat < s.dstLen.toNat) = true := by simp [hleft, hroom]
  rw [copyStep, if_pos hmore, dstRead_ok hfrom hw, withValue_ok, dstWrite_ok _ hroom hw, andThen_next]
  rfl

theorem copyStep_of_none_left {s : State} (h : s.copyLeft.toNat = 0) : copyStep s = .next (copyEnd s) := by
  rw [copyStep, h]
  rfl

/-! ## The copy between two steps -/

/-- One more byte of output, at `dst_pos`. -/
theorem Decoding.output_byte {s₀ s t : State} {rest out : List Byte} (h : Decoding s₀ rest out s) (b : Byte)
    (hroom : s.dstPos.toNat < s.dstLen.toNat) (hframe : SameFrame s t) (hphase : t.phase = s.phase)
    (hinputs : t.inputs = s.inputs) (hsrcPos : t.srcPos = s.srcPos) (hdstPos : t.dstPos = s.dstPos + 1)
    (hmem : t.mem = s.mem.write (s.dstBase.toNat + s.dstPos.toNat) b) : Decoding s₀ rest (out ++ [b]) t where
  legal := h.legal.of_sameFrame hframe
  frame := h.frame.trans hframe
  phase := hphase.trans h.phase
  inputs := hinputs.trans h.inputs
  memory := by
    obtain ⟨-, hwd, -⟩ := h.legal.regions
    rw [hmem]
    exact Memory.wf_write h.memory (by omega) b
  begun := hsrcPos ▸ h.begun
  consumed := by rw [hsrcPos, hframe.srcLen]; exact h.consumed
  unread := by
    rw [hmem, hframe.srcBase, hsrcPos]
    exact Memory.holds_write b h.unread fun i hi => h.unread_ne hi hroom
  produced := by rw [hdstPos, toNat_add_one_of_lt hroom, h.produced, List.length_append, List.length_singleton]
  output := by
    rw [hmem, hframe.dstBase, h.produced]
    exact Memory.holds_write_append h.memory b h.output

/-- The first bytes of what was still to be read are read. -/
theorem Decoding.read_bytes {s₀ s t : State} {bs rest out : List Byte} (h : Decoding s₀ (bs ++ rest) out s)
    (hframe : SameFrame s t) (hphase : t.phase = s.phase) (hinputs : t.inputs = s.inputs)
    (hsrcPos : t.srcPos.toNat = s.srcPos.toNat + bs.length) (hdstPos : t.dstPos = s.dstPos) (hmem : t.mem = s.mem) :
    Decoding s₀ rest out t where
  legal := h.legal.of_sameFrame hframe
  frame := h.frame.trans hframe
  phase := hphase.trans h.phase
  inputs := hinputs.trans h.inputs
  memory := hmem ▸ h.memory
  begun := by
    have hbegun := h.begun
    omega
  consumed := by
    have hconsumed := h.consumed
    rw [List.length_append] at hconsumed
    rw [hframe.srcLen]
    omega
  unread := by
    rw [hmem, hframe.srcBase, hsrcPos, ← Nat.add_assoc]
    exact (Memory.holds_append.mp h.unread).2
  produced := hdstPos ▸ h.produced
  output := by
    rw [hmem, hframe.dstBase]
    exact h.output

/-- A copy from `d` bytes back with `n` bytes left, which began in the token loop of `s₀`: once it ends, the loop has
produced `out` and `rest` is what it has still to read. -/
structure Copying (s₀ : State) (d n : Nat) (rest out : List Byte) (s : State) : Prop where
  loop : Decoding s₀ rest out (copyEnd s)
  phase : s.phase = .decCopy
  source : s.copyFrom.toNat + d = s.dstPos.toNat
  left : s.copyLeft.toNat = n

/-- The copy moves one byte (R127). -/
theorem Copying.step_byte {s₀ s : State} {d n : Nat} {rest out : List Byte} (h : Copying s₀ d (n + 1) rest out s)
    (hd : 1 ≤ d) (hroom : out.length < s₀.dstLen.toNat) :
    step s = .next (byteCopied s) ∧
      Copying s₀ d n rest (out ++ [out.getD (out.length - d) 0]) (byteCopied s) := by
  have hin : s.inputs = [] := h.loop.inputs
  have hsource := h.source
  have hleft := h.left
  have hproduced : s.dstPos.toNat = out.length := h.loop.produced
  have hframe : SameFrame (copyEnd s) (copyEnd (byteCopied s)) := by constructor <;> simp [byteCopied]
  have hdst : s.dstPos.toNat < s.dstLen.toNat := by
    rw [hproduced, show s.dstLen = s₀.dstLen from h.loop.frame.dstLen]
    exact hroom
  have hfrom : s.copyFrom.toNat < s.dstPos.toNat := by omega
  have hread : s.mem.read (s.dstBase.toNat + s.copyFrom.toNat) = out.getD (out.length - d) 0 := by
    have houtput : s.mem.holds s.dstBase.toNat out := h.loop.output
    rw [houtput _ (by omega), show s.copyFrom.toNat = out.length - d by omega]
  obtain ⟨-, hwd, -⟩ := h.loop.legal.regions
  refine ⟨by rw [step_of_decCopy hin h.phase, copyStep_of_lt (by omega) hdst (by omega) hwd],
    h.loop.output_byte _ hdst hframe rfl rfl rfl rfl ?_, h.phase, ?_, ?_⟩
  · rw [← hread]
    rfl
  · show (s.copyFrom + 1).toNat + d = (s.dstPos + 1).toNat
    rw [toNat_add_one_of_lt hdst, toNat_add_one_of_lt hfrom]
    omega
  · show (s.copyLeft - 1).toNat = n
    rw [BitVec.toNat_sub_of_le (by rw [BitVec.le_def, hleft]; exact Nat.succ_le_succ (Nat.zero_le n)), hleft]
    rfl

/-- The copy moves all its bytes, and the token loop goes on (R127, R134). -/
theorem Copying.reaches_end {s₀ s : State} {d n : Nat} {rest out : List Byte} (h : Copying s₀ d n rest out s)
    (hd : 1 ≤ d) (hroom : out.length + n ≤ s₀.dstLen.toNat) :
    ∃ u, Reaches s u ∧ Decoding s₀ rest (copyBytes d n out) u ∧ u.bit = s.bit <<< 1 ∧
      u.flag = s.flag := by
  induction n generalizing s out with
  | zero =>
    have hin : s.inputs = [] := h.loop.inputs
    have hstep := (step_of_decCopy hin h.phase).trans (copyStep_of_none_left h.left)
    exact ⟨copyEnd s, .step hstep (.refl _), h.loop, rfl, rfl⟩
  | succ n ih =>
    obtain ⟨hstep, hnext⟩ := h.step_byte hd (by omega)
    obtain ⟨u, hreach, hu⟩ := ih hnext (by rw [List.length_append, List.length_singleton]; omega)
    exact ⟨u, .step hstep hreach, hu⟩

/-! ## The token loop over any tokens -/

theorem assembleGroups_of_ne_nil {ts : List Instr} (h : ts ≠ []) (fuel : Nat) :
    assembleGroups (fuel + 1) ts =
      BitVec.ofNat 8 (groupFlag (ts.take 8)) :: ((ts.take 8).flatMap encode ++ assembleGroups fuel (ts.drop 8)) := by
  cases ts with
  | nil => exact absurd rfl h
  | cons t ts => rfl

theorem InGroup.selectsReference {s : State} {k d l : Nat} {ts : List Instr} (h : InGroup k (.ref d l :: ts) s)
    (hk : k < 8) : s.selectsLiteral = false := by
  rw [Bool.eq_false_iff, ne_eq, selectsLiteral_iff hk h.cursor, h.flags, groupFlag, selector]
  omega

/-- The cursor of a group with room for a token is not the full group's. -/
theorem twoPow_ne_full {k : Nat} (hk : k < 8) : BitVec.twoPow 9 k ≠ 256 := by
  have hplaces : ∀ k < 8, BitVec.twoPow 9 k ≠ 256 := by decide
  exact hplaces k hk

namespace Decoding

variable {s₀ s : State} {rest out final : List Byte}

/-- The loop starts a reference's copy (R121, R124). -/
theorem step_reference {d l : Nat} (h : Decoding s₀ (encode (.ref d l) ++ rest) out s) (hpos : 8 < s.srcPos.toNat)
    (hbit : s.bit ≠ 256) (hsel : s.selectsLiteral = false) (hwf : (Instr.ref d l).wf = true) (hd : 1 ≤ d)
    (hdist : d ≤ out.length) (hroom : out.length < s₀.dstLen.toNat) :
    step s = .next (copyBegun d l s) ∧ Copying s₀ d l rest out (copyBegun d l s) := by
  obtain ⟨-, -, hmax⟩ := wf_ref.mp hwf
  obtain ⟨hws, -⟩ := h.legal.regions
  have hbytes := (Memory.holds_append.mp h.unread).1
  have hsize : (encode (.ref d l)).length = 2 := Laws.EncodedSize.ref d l
  have hconsumed := h.consumed
  rw [List.length_append, hsize] at hconsumed
  rw [← h.produced] at hdist hroom
  rw [← h.frame.dstLen] at hroom
  have hguard : s.loopGuard = true := loopGuard_iff.mpr ⟨by omega, hroom⟩
  have hpos8 : s.srcPos ≠ 8 := fun e => by rw [e] at hpos; exact absurd hpos (by decide)
  have hread : (s.srcPos + 2).toNat = s.srcPos.toNat + (encode (.ref d l)).length := by
    have hsrcLen := s.srcLen.isLt
    rw [hsize]
    exact BitVec.toNat_add_of_lt (by show s.srcPos.toNat + 2 < _; omega)
  refine ⟨by rw [step_of_decRun h.inputs h.phase, decodeStep_of_token hpos8 hbit hguard,
    tokenStep_of_reference hsel (fetch_reference hwf (by omega) hws hbytes) (by omega) hd hdist], ?_⟩
  exact {
    loop := h.read_bytes (by constructor <;> simp [copyBegun]) (by simp [copyBegun, h.phase]) (by simp [copyBegun])
      (by simpa [copyBegun] using hread) (by simp [copyBegun]) (by simp [copyBegun])
    phase := by simp [copyBegun]
    source := by
      have hdstPos := s.dstPos.isLt
      simp only [copyBegun, beginCopy_copyFrom, beginCopy_dstPos, consumeDescriptor_dstPos, beginToken_dstPos,
        BitVec.toNat_ofNat]
      omega
    left := by
      rw [copyBegun, beginCopy_copyLeft, BitVec.toNat_ofNat, Nat.mod_eq_of_lt (by omega)] }

/-- Between two points of the loop `src_pos` moves over the bytes read. -/
theorem srcPos_of_read {u : State} {bs out' : List Byte} (h : Decoding s₀ (bs ++ rest) out s)
    (hu : Decoding s₀ rest out' u) : u.srcPos.toNat = s.srcPos.toNat + bs.length := by
  have hbefore := h.consumed
  have hafter := hu.consumed
  rw [h.frame.srcLen, List.length_append] at hbefore
  rw [hu.frame.srcLen] at hafter
  omega

/-- The loop runs one token, a reference with its whole copy (R121 to R127). -/
theorem reaches_token {t : Instr} {ts vs : List Instr} {k : Nat} (h : Decoding s₀ (encode t ++ rest) out s)
    (hgroup : InGroup k (t :: ts) s) (hk : k < 8) (hpos : 8 < s.srcPos.toNat)
    (hwf : ∀ i ∈ t :: vs, i.wf = true) (hexpand : expand (t :: vs) out = some final)
    (hroom : final.length ≤ s₀.dstLen.toNat) :
    ∃ u out', Reaches s u ∧ Decoding s₀ rest out' u ∧ InGroup (k + 1) ts u ∧ expand vs out' = some final := by
  obtain ⟨ht, hvs⟩ := List.forall_mem_cons.mp hwf
  have hbit : s.bit ≠ 256 := hgroup.cursor ▸ twoPow_ne_full hk
  obtain ⟨b, rfl, hnext⟩ | ⟨d, l, rfl, hd, hdist, hnext⟩ := expand_cons hexpand
  · have hsize := length_flatMap_encode_le_of_expand hvs hnext
    have hlit : Decoding s₀ (b :: rest) out s := h
    rw [List.length_append, List.length_singleton] at hsize
    obtain ⟨hstep, hdec⟩ := hlit.step_literal (fun e => by rw [e] at hpos; exact absurd hpos (by decide)) hbit
      (hgroup.selectsLiteral hk) (by rw [h.frame.dstLen]; omega)
    exact ⟨_, _, .step hstep (.refl _), hdec, hgroup.next rfl rfl, hnext⟩
  · have hsize := length_flatMap_encode_le_of_expand hvs hnext
    obtain ⟨-, hmin, -⟩ := wf_ref.mp ht
    rw [length_copyBytes] at hsize
    obtain ⟨hstep, hcopy⟩ := h.step_reference hpos hbit (hgroup.selectsReference hk) ht hd hdist (by omega)
    obtain ⟨u, hreach, hdec, hcursor, hflag⟩ := hcopy.reaches_end hd (by omega)
    exact ⟨u, _, .step hstep hreach, hdec, hgroup.next hcursor hflag, hnext⟩

/-- The loop runs the tokens of one group, or what is left of it. -/
theorem reaches_tokens {ts vs : List Instr} {k : Nat} (h : Decoding s₀ (ts.flatMap encode ++ rest) out s)
    (hgroup : InGroup k ts s) (hpos : 8 < s.srcPos.toNat) (hk : k + ts.length ≤ 8)
    (hwf : ∀ i ∈ ts ++ vs, i.wf = true) (hexpand : expand (ts ++ vs) out = some final)
    (hroom : final.length ≤ s₀.dstLen.toNat) :
    ∃ u out', Reaches s u ∧ Decoding s₀ rest out' u ∧ u.bit = BitVec.twoPow 9 (k + ts.length) ∧
      expand vs out' = some final := by
  induction ts generalizing s out k with
  | nil => exact ⟨s, out, .refl s, h, hgroup.cursor, hexpand⟩
  | cons t ts ih =>
    rw [List.length_cons] at hk
    rw [List.flatMap_cons, List.append_assoc] at h
    obtain ⟨v, out', hreach, hdec, hnext, hrest⟩ := h.reaches_token hgroup (by omega) hpos hwf hexpand hroom
    have hpos' := h.srcPos_of_read hdec
    obtain ⟨u, out'', hreach', hu, hcursor, hfinal⟩ := ih hdec hnext (by omega) (by omega)
      (List.forall_mem_cons.mp hwf).2 hrest
    rw [Nat.add_assoc, Nat.add_comm 1] at hcursor
    exact ⟨u, out'', hreach.trans hreach', hu, hcursor, hfinal⟩

/-- The loop runs all groups of a stream (R121). -/
theorem reaches_tokenGroups {ts : List Instr} {fuel : Nat} (hfuel : ts.length ≤ fuel)
    (h : Decoding s₀ (assembleGroups fuel ts) out s) (hne : ts ≠ []) (hturn : s.srcPos = 8 ∨ s.bit = 256)
    (hts : ∀ t ∈ ts, t.isToken = true ∧ t.wf = true) (hexpand : expand ts out = some final)
    (hroom : final.length ≤ s₀.dstLen.toNat) :
    ∃ u, Reaches s u ∧ Decoding s₀ [] final u ∧ u.bit ≠ 1 := by
  induction fuel generalizing s out ts with
  | zero => exact absurd (List.eq_nil_of_length_eq_zero (Nat.le_zero.mp hfuel)) hne
  | succ fuel ih =>
    have hpositive := List.length_pos_iff.mpr hne
    have hwf : ∀ t ∈ ts, t.wf = true := fun t ht => (hts t ht).2
    have hsize := length_flatMap_encode_le_of_expand hwf hexpand
    rw [length_flatMap_encode fun t ht => (hts t ht).1] at hsize
    rw [assembleGroups_of_ne_nil hne] at h
    have htake : (ts.take 8).length = min 8 ts.length := List.length_take
    have hdrop : (ts.drop 8).length = ts.length - 8 := List.length_drop
    obtain ⟨hflag, hnext⟩ := h.step_flagByte
      (hturn.imp_right fun hbit => ⟨hbit, by rw [h.produced, h.frame.dstLen]; omega⟩)
    have hpos : 8 < (s.srcPos + 1).toNat := by
      have hbegun := h.begun
      rw [h.toNat_srcPos_succ]
      omega
    rw [← List.take_append_drop 8 ts] at hwf hexpand
    obtain ⟨v, out', hreach, hdec, hcursor, hrest⟩ := hnext.reaches_tokens (h.inGroup_flagsDone (by omega)) hpos
      (by omega) hwf hexpand hroom
    rw [Nat.zero_add, htake] at hcursor
    by_cases hlast : ts.length ≤ 8
    · have hnotOne : ∀ k < 9, 0 < k → BitVec.twoPow 9 k ≠ 1 := by decide
      rw [List.drop_eq_nil_of_le hlast, assembleGroups_nil] at hdec
      rw [List.drop_eq_nil_of_le hlast] at hrest
      cases hrest
      exact ⟨v, .step hflag hreach, hdec, hcursor ▸ hnotOne _ (by omega) (by omega)⟩
    · obtain ⟨u, hreach', hu⟩ := ih (ts := ts.drop 8) (by omega) hdec (List.ne_nil_of_length_pos (by omega))
        (.inr (by rw [hcursor, min_eq_left (by omega)]; rfl)) (fun t ht => hts t (List.mem_of_mem_drop ht)) hrest
      exact ⟨u, .step hflag (hreach.trans hreach'), hu⟩

/-- The loop runs a whole stream behind its header; one with no token is a flag byte alone (R121, R88). -/
theorem reaches_streamEnd {ts : List Instr}
    (h : Decoding s₀ (if ts.isEmpty then [0x00] else assembleGroups ts.length ts) out s) (hpos : s.srcPos = 8)
    (hts : ∀ t ∈ ts, t.isToken = true ∧ t.wf = true) (hexpand : expand ts out = some final)
    (hroom : final.length ≤ s₀.dstLen.toNat) :
    ∃ u, Reaches s u ∧ Decoding s₀ [] final u ∧ u.srcPos ≠ 8 ∧ u.tokenDue = false := by
  by_cases hne : ts = []
  · subst hne
    cases hexpand
    obtain ⟨hflag, hnext⟩ := Decoding.step_flagByte (b := 0x00) (rest := []) h (.inl hpos)
    have hnine : (flagsDone s).srcPos = 9 := by rw [flagsDone, hpos]; rfl
    exact ⟨_, .step hflag (.refl _), hnext, by rw [hnine]; decide, by rw [State.tokenDue, hnine]; rfl⟩
  · rw [List.isEmpty_eq_false_iff.mpr hne, if_neg Bool.false_ne_true] at h
    obtain ⟨u, hreach, hu, hbit⟩ := h.reaches_tokenGroups le_rfl hne (.inl hpos) hts hexpand hroom
    have hconsumed : u.srcPos.toNat = u.srcLen.toNat := hu.consumed
    obtain ⟨-, -, -, hlen⟩ := hu.legal.regions
    refine ⟨u, hreach, hu, fun e => ?_, by rw [State.tokenDue, beq_false_of_ne hbit, Bool.false_and]⟩
    rw [← hconsumed, e] at hlen
    exact absurd hlen (by decide)

/-- A stream read to its end, with no token due, ends the command (R129, R188). -/
theorem step_streamEnd (h : Decoding s₀ [] out s) (hpos : s.srcPos ≠ 8) (hdue : s.tokenDue = false) :
    step s = .next (endCommand .done s.srcPos s.dstPos s) := by
  have hend : s.srcPos.toNat = s.srcLen.toNat := h.consumed
  have hguard : s.loopGuard = false := Bool.eq_false_iff.mpr fun hg => by
    obtain ⟨hlt, -⟩ := loopGuard_iff.mp hg
    omega
  rw [step_of_decRun h.inputs h.phase, decodeStep, if_neg hpos, hdue, hguard, if_neg Bool.false_ne_true,
    if_neg Bool.false_ne_true, decompressFinish, finish, conclude_of_untainted h.legal.untainted]

end Decoding

/-- DECOMPRESS of an assembled stream, from its CMD write to its end: DONE, with the stream consumed and DST filled
with what the tokens stand for (R120, R150 item 5). -/
theorem reaches_decompressed {s : State} {header : List Byte} {ts : List Instr} {out : List Byte}
    (hin : s.inputs = []) (hbusy : s.busy = false) (hm : s.mem.wf = true) (hord : s.ordinary opDecompress)
    (hheader : header.length = 8) (hts : ∀ t ∈ ts, t.isToken = true ∧ t.wf = true) (hexpand : expand ts [] = some out)
    (hsrcLen : s.srcLen.toNat = (assemble header ts).length) (hdstLen : s.dstLen.toNat = out.length)
    (hsrc : s.srcBase.toNat + s.srcLen.toNat ≤ 4294967296) (hdst : s.dstBase.toNat + s.dstLen.toNat ≤ 4294967296)
    (hov : s.srcRegion.overlaps s.dstRegion = false) (hholds : s.mem.holds s.srcBase.toNat (assemble header ts)) :
    ∃ u, Reaches (startCommand opDecompress s) u ∧
      u.status = { state := .done, cause := none, lastOp := opDecompress } ∧ u.srcPosReg = s.srcLen ∧
      u.dstPosReg = s.dstLen ∧ u.mem.holds s.dstBase.toNat out := by
  have hsize := length_assemble header ts
  have hlen : 9 ≤ s.srcLen.toNat := by omega
  rw [assemble, List.length_append, hheader] at hsrcLen
  rw [assemble, Memory.holds_append, hheader] at hholds
  have hbody := decoding_decompressBody hin hsrc hdst hlen hov hm hsrcLen.symm hholds.2
  obtain ⟨u, hreach, hdec, hpos, hdue⟩ := hbody.reaches_streamEnd rfl hts hexpand hdstLen.ge
  have hconsumed : u.srcPos = s.srcLen := BitVec.eq_of_toNat_eq (hdec.consumed.trans (by rw [hdec.frame.srcLen]; rfl))
  have hproduced : u.dstPos = s.dstLen := BitVec.eq_of_toNat_eq (hdec.produced.trans hdstLen.symm)
  have houtput := hdec.output
  rw [hdec.frame.dstBase] at houtput
  have hstart := step_startCommand_decompress hin hbusy hord hsrc hdst hlen hov
  refine ⟨_, .step hstart (hreach.trans (.step (hdec.step_streamEnd hpos hdue) (.refl _))), ?_, hconsumed, hproduced,
    houtput⟩
  rw [endCommand_status, hdec.frame.status]
  rfl

end Sys2Proof.Machine
end

/-! # COMPRESS's output, and the round trip -/

section
namespace Sys2Proof.Machine

/-! ## Streams as they are written, group by group (R97) -/

/-- Fuel beyond the number of tokens changes nothing. -/
theorem assembleGroups_congr {fuel fuel' : Nat} {ts : List Instr} (h : ts.length ≤ fuel) (h' : ts.length ≤ fuel') :
    assembleGroups fuel ts = assembleGroups fuel' ts := by
  induction fuel generalizing fuel' ts with
  | zero =>
    rw [List.eq_nil_of_length_eq_zero (Nat.le_zero.mp h), assembleGroups_nil, assembleGroups_nil]
  | succ fuel ih =>
    by_cases hne : ts = []
    · rw [hne, assembleGroups_nil, assembleGroups_nil]
    · have hpositive := List.length_pos_iff.mpr hne
      have hdrop : (ts.drop 8).length = ts.length - 8 := List.length_drop
      cases fuel' with
      | zero => omega
      | succ fuel' =>
        rw [assembleGroups_of_ne_nil hne, assembleGroups_of_ne_nil hne,
          ih (fuel' := fuel') (by omega) (by omega)]

/-- The flag bytes and tokens of a stream, without its header. -/
def groupBytes (ts : List Instr) : List Byte := assembleGroups ts.length ts

theorem groupBytes_of_ne_nil {ts : List Instr} (h : ts ≠ []) :
    groupBytes ts =
      BitVec.ofNat 8 (groupFlag (ts.take 8)) :: ((ts.take 8).flatMap encode ++ groupBytes (ts.drop 8)) := by
  have hpositive := List.length_pos_iff.mpr h
  have hdrop : (ts.drop 8).length = ts.length - 8 := List.length_drop
  obtain ⟨fuel, hfuel⟩ := Nat.exists_eq_succ_of_ne_zero hpositive.ne'
  rw [groupBytes, hfuel, assembleGroups_of_ne_nil h, groupBytes, assembleGroups_congr (fuel' := (ts.drop 8).length)
    (by omega) le_rfl]

/-- One group. -/
theorem groupBytes_of_group {ts : List Instr} (h : ts ≠ []) (hlen : ts.length ≤ 8) :
    groupBytes ts = BitVec.ofNat 8 (groupFlag ts) :: ts.flatMap encode := by
  rw [groupBytes_of_ne_nil h, List.take_of_length_le hlen, List.drop_eq_nil_of_le hlen, groupBytes,
    assembleGroups_nil, List.append_nil]

/-- Tokens after full groups begin a group of their own. -/
theorem groupBytes_append {ts us : List Instr} (h : 8 ∣ ts.length) :
    groupBytes (ts ++ us) = groupBytes ts ++ groupBytes us := by
  obtain ⟨k, hk⟩ := h
  induction k generalizing ts with
  | zero =>
    rw [List.eq_nil_of_length_eq_zero hk]
    rfl
  | succ k ih =>
    have hne : ts ≠ [] := List.ne_nil_of_length_pos (by omega)
    have hdrop : (ts.drop 8).length = 8 * k := by rw [List.length_drop, hk]; omega
    rw [groupBytes_of_ne_nil (List.append_ne_nil_of_left_ne_nil hne us), groupBytes_of_ne_nil hne,
      List.take_append_of_le_length (by omega), List.drop_append_of_le_length (by omega), ih hdrop,
      List.cons_append, List.append_assoc]

/-- The stream whose last group, `cur`, follows the full groups of `old`. -/
theorem assemble_of_groups (header : List Byte) {old cur : List Instr} (hwhole : 8 ∣ old.length)
    (hsmall : cur.length ≤ 8) (hlast : cur = [] → old = []) :
    assemble header (old ++ cur) =
      header ++ groupBytes old ++ BitVec.ofNat 8 (groupFlag cur) :: cur.flatMap encode := by
  by_cases hcur : cur = []
  · simp [hcur, hlast hcur, assemble, groupBytes, assembleGroups, groupFlag]
  · have hne : old ++ cur ≠ [] := List.append_ne_nil_of_right_ne_nil old hcur
    rw [assemble, List.isEmpty_eq_false_iff.mpr hne, if_neg Bool.false_ne_true, ← groupBytes, groupBytes_append hwhole,
      groupBytes_of_group hcur hsmall, List.append_assoc]

theorem groupFlag_append (ts us : List Instr) :
    groupFlag (ts ++ us) = groupFlag ts + 2 ^ ts.length * groupFlag us := by
  induction ts with
  | nil => simp [groupFlag]
  | cons t ts ih => rw [List.cons_append, groupFlag, groupFlag, ih, List.length_cons, Nat.pow_succ]; ring

/-! ## Tokens that stand for the input's first bytes -/

theorem expand_append (ts us : List Instr) (out : List Byte) :
    expand (ts ++ us) out = (expand ts out).bind (expand us) := by
  induction ts generalizing out with
  | nil => rfl
  | cons t ts ih =>
    cases t with
    | lit b => exact ih _
    | ref d l =>
      rw [List.cons_append, expand, expand]
      split_ifs
      · exact ih _
      · rfl
    | flags f => rfl
    | mask => rfl
    | decompress => rfl
    | compress => rfl

/-- A reference that agrees with the input copies its next bytes. -/
theorem copyBytes_take {input : List Byte} {d l p : Nat} (hd : 1 ≤ d) (hp : d ≤ p) (hl : p + l ≤ input.length)
    (hmatch : ∀ j < l, input.getD (p + j) 0 = input.getD (p - d + j) 0) :
    copyBytes d l (input.take p) = input.take (p + l) := by
  induction l generalizing p with
  | zero => rfl
  | succ l ih =>
    have hlen : (input.take p).length = p := List.length_take_of_le (by omega)
    have hbyte : (input.take p).getD ((input.take p).length - d) 0 = input[p] := by
      have hfirst := hmatch 0 (Nat.succ_pos l)
      rw [Nat.add_zero, Nat.add_zero, List.getD_eq_getElem _ _ (by omega), List.getD_eq_getElem _ _ (by omega)]
        at hfirst
      rw [hlen, List.getD_eq_getElem _ _ (by omega), List.getElem_take, hfirst]
    rw [copyBytes, hbyte, List.take_append_getElem (by omega), ih (by omega) (by omega) fun j hj => ?_]
    · congr 1
      omega
    · have hnext := hmatch (j + 1) (by omega)
      rw [show p + (j + 1) = p + 1 + j by omega, show p - d + (j + 1) = p + 1 - d + j by omega] at hnext
      exact hnext

/-- More tokens in bounds, behind tokens in bounds that have produced `final`. -/
theorem refsBounded_append {n q : Nat} {ts us : List Instr} {out final : List Byte} (hq : out.length = q)
    (h : refsBounded n q ts) (hexpand : expand ts out = some final) (hus : refsBounded n final.length us) :
    refsBounded n q (ts ++ us) := by
  induction ts generalizing q out with
  | nil => cases hexpand; exact hq ▸ hus
  | cons t ts ih =>
    obtain ⟨b, rfl, hnext⟩ | ⟨d, l, rfl, -, -, hnext⟩ := expand_cons hexpand
    · have hlen : (out ++ [b]).length = q + 1 := by rw [List.length_append, hq, List.length_singleton]
      exact ih hlen h hnext
    · obtain ⟨hd, hdist, hmin, hmax, h⟩ := h
      have hlen : (copyBytes d l out).length = q + l := by rw [length_copyBytes, hq]
      exact ⟨hd, hdist, hmin, hmax, ih hlen h hnext⟩

/-- Tokens in bounds are literals and references with an encoding. -/
theorem wf_of_refsBounded {n q : Nat} {ts : List Instr} (h : refsBounded n q ts) :
    ∀ t ∈ ts, t.isToken = true ∧ t.wf = true := by
  induction ts generalizing q with
  | nil => exact fun t ht => absurd ht List.not_mem_nil
  | cons t ts ih =>
    cases t with
    | lit b => exact List.forall_mem_cons.mpr ⟨⟨rfl, rfl⟩, ih h⟩
    | ref d l =>
      obtain ⟨-, hd, hmin, hmax, h⟩ := h
      have hwf : (Instr.ref d l).wf = true :=
        wf_ref.mpr ⟨hd.trans (min_le_right _ _), hmin, hmax.trans (min_le_left _ _)⟩
      exact List.forall_mem_cons.mpr ⟨⟨rfl, hwf⟩, ih h⟩
    | flags f => exact h.elim
    | mask => exact h.elim
    | decompress => exact h.elim
    | compress => exact h.elim

/-- The tokens stand for the first `p` bytes of the input, with references in bounds (R150 items 4 and 5). -/
structure TokensFor (input : List Byte) (p : Nat) (ts : List Instr) : Prop where
  expands : expand ts [] = some (input.take p)
  bounded : refsBounded input.length 0 ts

theorem TokensFor.append_literal {input : List Byte} {p : Nat} {ts : List Instr} (h : TokensFor input p ts)
    (hp : p < input.length) : TokensFor input (p + 1) (ts ++ [.lit input[p]]) where
  expands := by
    rw [expand_append, h.expands, Option.bind_some, expand, List.take_append_getElem hp]
    rfl
  bounded := refsBounded_append rfl h.bounded h.expands trivial

theorem TokensFor.append_reference {input : List Byte} {p d l : Nat} {ts : List Instr} (h : TokensFor input p ts)
    (hd : 1 ≤ d) (hdist : d ≤ min p 4095) (hmin : 2 ≤ l) (hmax : l ≤ min 17 (input.length - p))
    (hmatch : ∀ j < l, input.getD (p + j) 0 = input.getD (p - d + j) 0) :
    TokensFor input (p + l) (ts ++ [.ref d l]) where
  expands := by
    have hlen : (input.take p).length = p := List.length_take_of_le (by omega)
    rw [expand_append, h.expands, Option.bind_some, expand, if_pos ⟨hd, by omega⟩,
      copyBytes_take hd (by omega) (by omega) hmatch]
    rfl
  bounded := by
    have hlen : (input.take p).length = p := List.length_take_of_le (by omega)
    refine refsBounded_append rfl h.bounded h.expands ?_
    rw [hlen]
    exact ⟨hd, hdist, hmin, hmax, trivial⟩

/-- The stream of tokens for `p` bytes is within R152's bound for `p` bytes. -/
theorem TokensFor.length_assemble_le {input header : List Byte} {p : Nat} {ts : List Instr} (h : TokensFor input p ts)
    (hp : p ≤ input.length) (hheader : header.length = 8) :
    (assemble header ts).length ≤ 8 + p + max 1 ((p + 7) / 8) := by
  obtain ⟨-, -, hbound, -⟩ := streamSize header ts _ hheader (wf_of_refsBounded h.bounded) h.expands
  rwa [List.length_take_of_le hp] at hbound

/-- The policy's token at a place of the input goes on from there (R156, R157). -/
theorem TokensFor.append_chosen {input : List Byte} {src : Nat → Byte} {p : Nat} {ts : List Instr} {t : Instr}
    (h : TokensFor input p ts) (hp : p < input.length) (hsrc : ∀ i < input.length, src i = input.getD i 0)
    (ht : t = chooseToken (bestMatch src input.length p) (src p)) :
    TokensFor input (p + tokenInput t) (ts ++ [t]) ∧ p < p + tokenInput t ∧ p + tokenInput t ≤ input.length := by
  obtain ⟨l, d, hbest⟩ : ∃ l d, (l, d) = bestMatch src input.length p := ⟨_, _, rfl⟩
  obtain ⟨hfar, -, hlong, hmatch, -⟩ := bestMatchIsLongestThenNearest src input.length p l d hbest
  rw [← hbest] at ht
  by_cases hl : 2 ≤ l
  · obtain ⟨hd, hdist⟩ := hfar (by omega)
    rw [ht, chooseToken_of_le _ hl, tokenInput]
    refine ⟨h.append_reference hd hdist hl hlong fun j hj => ?_, by omega, by omega⟩
    rw [← hsrc _ (by omega), ← hsrc _ (by omega)]
    exact hmatch j hj
  · rw [ht, chooseToken_of_lt _ (Nat.not_le.mp hl), hsrc p hp, List.getD_eq_getElem _ _ hp]
    exact ⟨h.append_literal hp, Nat.lt_succ_self p, hp⟩

/-! ## Several bytes in memory -/

/-- Writes elsewhere keep the bytes. -/
theorem Memory.holds_writeList {m : Memory} {a x : Nat} {bs cs : List Byte} (h : m.holds a bs)
    (hx : ∀ i < bs.length, ¬ (x ≤ a + i ∧ a + i < x + cs.length)) : (m.writeList x cs).holds a bs := by
  intro i hi
  rw [Memory.read_writeList_outside (hx i hi), h i hi]

/-- Bytes written behind the bytes are more of them. -/
theorem Memory.holds_writeList_append {m : Memory} (hm : m.wf = true) {a : Nat} {bs cs : List Byte}
    (ha : a + bs.length + cs.length ≤ addrSpace) (h : m.holds a bs) :
    (m.writeList (a + bs.length) cs).holds a (bs ++ cs) := by
  refine Memory.holds_append.mpr ⟨Memory.holds_writeList h fun i hi => by omega, fun i hi => ?_⟩
  rw [Memory.read_writeList hm ha, if_pos ⟨by omega, by omega⟩, Nat.add_sub_cancel_left]

/-! ## The flag byte under construction (R155) -/

/-- A literal's bit goes into the flag byte, a reference's is 0 already. -/
theorem noteSelector_flag_eq {s : State} {ts : List Instr} (t : Instr) (hlen : ts.length < 8)
    (hbit : s.bit = BitVec.twoPow 9 ts.length) (hflag : s.flag = BitVec.ofNat 8 (groupFlag ts)) :
    (noteSelector t s).flag = BitVec.ofNat 8 (groupFlag (ts ++ [t])) := by
  have hcursor : ∀ k < 8, (BitVec.twoPow 9 k).setWidth 8 = BitVec.ofNat 8 (2 ^ k) := by decide
  have hor : groupFlag ts ||| 2 ^ ts.length = groupFlag ts + 2 ^ ts.length := by
    have hadd := Nat.two_pow_add_eq_or_of_lt (groupFlag_lt ts) 1
    rw [Nat.mul_one] at hadd
    rw [Nat.or_comm, ← hadd, Nat.add_comm]
  have hsel := selector_le_one t
  rw [groupFlag_append, groupFlag, groupFlag, noteSelector_flag]
  split_ifs with hone
  · rw [hone, Nat.mul_zero, Nat.mul_one, ← hor, BitVec.ofNat_or, ← hcursor _ hlen, ← hflag, ← hbit]
  · rw [show selector t = 0 by omega, hflag, Nat.mul_zero, Nat.add_zero]

/-! ## What a written token leaves in each field (R155) -/

section
variable (t : Instr) (s : State)

@[simp] theorem tokenWritten_phase : (tokenWritten t s).phase = s.phase := noteSelector_phase _ t

@[simp] theorem tokenWritten_inputs : (tokenWritten t s).inputs = s.inputs := noteSelector_inputs _ t

@[simp] theorem tokenWritten_flagPos : (tokenWritten t s).flagPos = s.flagPos := noteSelector_flagPos _ t

@[simp] theorem tokenWritten_mem :
    (tokenWritten t s).mem = s.mem.writeList (s.dstBase.toNat + s.dstPos.toNat) (encode t) := noteSelector_mem _ t

@[simp] theorem tokenWritten_bit : (tokenWritten t s).bit = s.bit <<< 1 := by
  rw [tokenWritten, tokenAdvance_bit, noteSelector_bit, storeBytes]

@[simp] theorem tokenWritten_srcPos : (tokenWritten t s).srcPos = s.srcPos + BitVec.ofNat 32 (tokenInput t) := by
  rw [tokenWritten, tokenAdvance_srcPos, noteSelector_srcPos, storeBytes]

@[simp] theorem tokenWritten_dstPos : (tokenWritten t s).dstPos = s.dstPos + BitVec.ofNat 32 (encode t).length := by
  rw [tokenWritten, tokenAdvance_dstPos, noteSelector_dstPos, storeBytes]

theorem sameFrame_tokenWritten : SameFrame s (tokenWritten t s) where
  status := noteSelector_status _ t
  srcBase := noteSelector_srcBase _ t
  srcLen := noteSelector_srcLen _ t
  dstBase := noteSelector_dstBase _ t
  dstLen := noteSelector_dstLen _ t
  offset := noteSelector_offset _ t
  claim := noteSelector_claim _ t
  tainted := noteSelector_tainted _ t

variable {t s}

theorem toNat_tokenWritten_srcPos (h : s.srcPos.toNat + tokenInput t ≤ s.srcLen.toNat) :
    (tokenWritten t s).srcPos.toNat = s.srcPos.toNat + tokenInput t := by
  have hlen := s.srcLen.isLt
  rw [tokenWritten_srcPos, BitVec.toNat_add, BitVec.toNat_ofNat]
  omega

theorem toNat_tokenWritten_dstPos (h : s.dstPos.toNat + (encode t).length ≤ s.dstLen.toNat) :
    (tokenWritten t s).dstPos.toNat = s.dstPos.toNat + (encode t).length := by
  have hlen := s.dstLen.isLt
  rw [tokenWritten_dstPos, BitVec.toNat_add, BitVec.toNat_ofNat]
  omega

end

/-! ## The encoder's loop between two steps -/

/-- COMPRESS of `input` with arguments that have passed its checks (R183), whose buffers are left alone (R220). -/
structure CompressJob (s : State) (input : List Byte) : Prop where
  command : s.isCompress = true
  checks : failedCheck s = none
  untainted : s.tainted = false
  memory : s.mem.wf = true
  size : input.length = s.srcLen.toNat
  source : s.mem.holds s.srcBase.toNat input

theorem CompressJob.regions {s : State} {input : List Byte} (h : CompressJob s input) :
    s.srcBase.toNat + s.srcLen.toNat ≤ addrSpace ∧ s.dstBase.toNat + s.dstLen.toNat ≤ addrSpace ∧
      s.srcRegion.overlaps s.dstRegion = false ∧
      8 + input.length + max 1 ((input.length + 7) / 8) ≤ s.dstLen.toNat := by
  obtain ⟨hws, hdst, -, -, hroom, -⟩ := checks_regions h.checks
  obtain ⟨hwd, hov⟩ := hdst (.inr h.command)
  rw [h.size]
  exact ⟨hws, hwd, hov, hroom h.command⟩

/-- The COMPRESS that began in `s₀` has written the full groups of `old` and, but for its flag byte, the open group
`cur` (R155). -/
structure Encoding (s₀ : State) (input : List Byte) (old cur : List Instr) (s : State) : Prop where
  job : CompressJob s₀ input
  frame : SameFrame s₀ s
  phase : s.phase = .encRun
  inputs : s.inputs = []
  memory : s.mem.wf = true
  inside : s.srcPos.toNat ≤ input.length
  tokens : TokensFor input s.srcPos.toNat (old ++ cur)
  whole : 8 ∣ old.length
  small : cur.length ≤ 8
  cursor : s.bit = BitVec.twoPow 9 cur.length
  flag : s.flag = BitVec.ofNat 8 (groupFlag cur)
  flagPlace : s.flagPos.toNat = (s₀.headerBytes ++ groupBytes old).length
  place : s.dstPos.toNat = s.flagPos.toNat + 1 + (cur.flatMap encode).length
  room : s.dstPos.toNat ≤ s.dstLen.toNat
  closed : s.mem.holds s.dstBase.toNat (s₀.headerBytes ++ groupBytes old)
  opened : s.mem.holds (s.dstBase.toNat + s.flagPos.toNat + 1) (cur.flatMap encode)
  kept : ∀ a, ¬ (s.dstBase.toNat ≤ a ∧ a < s.dstBase.toNat + s.dstPos.toNat) → s.mem.read a = s₀.mem.read a

namespace Encoding

variable {s₀ s : State} {input : List Byte} {old cur : List Instr}

theorem regions (h : Encoding s₀ input old cur s) :
    s.srcBase.toNat + s.srcLen.toNat ≤ addrSpace ∧ s.dstBase.toNat + s.dstLen.toNat ≤ addrSpace ∧
      s.srcRegion.overlaps s.dstRegion = false ∧ input.length = s.srcLen.toNat ∧
      8 + input.length + max 1 ((input.length + 7) / 8) ≤ s.dstLen.toNat := by
  obtain ⟨hws, hwd, hov, hroom⟩ := h.job.regions
  have hsize := h.job.size
  rw [State.srcRegion, State.dstRegion] at hov ⊢
  rw [h.frame.srcBase, h.frame.srcLen, h.frame.dstBase, h.frame.dstLen]
  exact ⟨hws, hwd, hov, hsize, hroom⟩

/-- SRC still holds the input (R152). -/
theorem srcByte (h : Encoding s₀ input old cur s) {i : Nat} (hi : i < input.length) : s.srcByte i = input.getD i 0 := by
  obtain ⟨-, -, hov, hsize, -⟩ := h.regions
  have hroom := h.room
  have hoff : ¬ (s.dstBase.toNat ≤ s.srcBase.toNat + i ∧ s.srcBase.toNat + i < s.dstBase.toNat + s.dstPos.toNat) := by
    rintro ⟨hlo, hhi⟩
    refine Region.ne_of_not_overlaps hov (i := i) (j := s.srcBase.toNat + i - s.dstBase.toNat) ?_ ?_ ?_
    · show i < s.srcLen.toNat
      omega
    · show s.srcBase.toNat + i - s.dstBase.toNat < s.dstLen.toNat
      omega
    · show s.srcBase.toNat + i = s.dstBase.toNat + (s.srcBase.toNat + i - s.dstBase.toNat)
      omega
  rw [State.srcByte, h.kept _ hoff, h.frame.srcBase]
  exact h.job.source i hi

/-- With the open group's flag byte stored, DST holds the stream of all tokens so far (R97, R155). -/
theorem holds_stream (h : Encoding s₀ input old cur s) :
    (s.mem.write (s.dstBase.toNat + s.flagPos.toNat) s.flag).holds s.dstBase.toNat
      (s₀.headerBytes ++ groupBytes old ++ BitVec.ofNat 8 (groupFlag cur) :: cur.flatMap encode) := by
  rw [List.append_cons, ← h.flag]
  refine Memory.holds_append.mpr ⟨?_, Memory.holds_write _ ?_ fun i hi => ?_⟩
  · rw [h.flagPlace]
    exact Memory.holds_write_append h.memory s.flag h.closed
  · rw [List.length_append, ← h.flagPlace, List.length_singleton, ← Nat.add_assoc]
    exact h.opened
  · rw [List.length_append, ← h.flagPlace, List.length_singleton]
    omega

theorem place_of_last (h : Encoding s₀ input old cur s) (hlast : cur = [] → old = []) :
    s.dstPos.toNat = (assemble s₀.headerBytes (old ++ cur)).length := by
  rw [assemble_of_groups _ h.whole h.small hlast, List.length_append, ← h.flagPlace, h.place, List.length_cons]
  omega

/-- A full group's flag byte is stored and the next group opened (R155). -/
theorem groupOpened (h : Encoding s₀ input old cur s) (hlt : s.srcPos.toNat < input.length) (hfull : cur.length = 8) :
    Encoding s₀ input (old ++ cur) [] (groupOpened s) := by
  obtain ⟨-, hwd, -, -, hroom⟩ := h.regions
  have hne : cur ≠ [] := List.ne_nil_of_length_pos (by omega)
  have hstream : s₀.headerBytes ++ groupBytes (old ++ cur) =
      s₀.headerBytes ++ groupBytes old ++ BitVec.ofNat 8 (groupFlag cur) :: cur.flatMap encode := by
    rw [groupBytes_append h.whole, groupBytes_of_group hne h.small, List.append_assoc]
  have hplace := h.place_of_last fun e => absurd e hne
  have hbound := h.tokens.length_assemble_le h.inside (header := s₀.headerBytes) rfl
  have hflagPlace := h.place
  have hnext : (s.dstPos + 1).toNat = s.dstPos.toNat + 1 := toNat_add_one_of_lt (y := s.dstLen) (by omega)
  have hframe : SameFrame s (Machine.groupOpened s) := ⟨rfl, rfl, rfl, rfl, rfl, rfl, rfl, rfl⟩
  exact {
    job := h.job
    frame := h.frame.trans hframe
    phase := h.phase
    inputs := h.inputs
    memory := Memory.wf_write h.memory (by omega) _
    inside := h.inside
    tokens := by rw [List.append_nil]; exact h.tokens
    whole := by rw [List.length_append, hfull]; exact Nat.dvd_add h.whole (dvd_refl 8)
    small := Nat.zero_le 8
    cursor := rfl
    flag := rfl
    flagPlace := by
      rw [hstream, List.length_append, ← h.flagPlace, List.length_cons]
      show s.dstPos.toNat = _
      omega
    place := hnext
    room := by show (s.dstPos + 1).toNat ≤ s.dstLen.toNat; omega
    closed := by rw [hstream]; exact h.holds_stream
    opened := fun i hi => absurd hi (Nat.not_lt_zero i)
    kept := fun a ha => by
      have hout : ¬ (s.dstBase.toNat ≤ a ∧ a < s.dstBase.toNat + (s.dstPos + 1).toNat) := ha
      rw [← h.kept a (by omega)]
      exact Memory.read_write_ne (by omega) _ }

/-- The policy's token goes on from the tokens so far (R156, R157). -/
theorem chosen (h : Encoding s₀ input old cur s) (hlt : s.srcPos.toNat < input.length) :
    TokensFor input (s.srcPos.toNat + tokenInput (tokenAt s)) (old ++ (cur ++ [tokenAt s])) ∧
      s.srcPos.toNat < s.srcPos.toNat + tokenInput (tokenAt s) ∧
      s.srcPos.toNat + tokenInput (tokenAt s) ≤ input.length := by
  obtain ⟨-, -, -, hsize, -⟩ := h.regions
  rw [← List.append_assoc]
  exact h.tokens.append_chosen hlt (fun i hi => h.srcByte hi) (by rw [tokenAt, hsize])

/-- DST has room for it (R152). -/
theorem token_fits (h : Encoding s₀ input old cur s) (hlt : s.srcPos.toNat < input.length) (hopen : cur.length < 8) :
    s.dstPos.toNat + (encode (tokenAt s)).length ≤ s.dstLen.toNat := by
  obtain ⟨-, -, -, -, hroom⟩ := h.regions
  obtain ⟨htokens, -, hinside⟩ := h.chosen hlt
  have hsmall : (cur ++ [tokenAt s]).length ≤ 8 := by rw [List.length_append, List.length_singleton]; exact hopen
  have hne : cur ++ [tokenAt s] ≠ [] := List.append_ne_nil_of_right_ne_nil _ (List.cons_ne_nil _ _)
  have hbound := htokens.length_assemble_le hinside (header := s₀.headerBytes) rfl
  rw [assemble_of_groups _ h.whole hsmall fun e => absurd e hne, List.length_append, ← h.flagPlace, List.length_cons,
    List.flatMap_append, List.flatMap_singleton, List.length_append] at hbound
  have hplace := h.place
  omega

/-- The policy's token is written to the open group (R155). -/
theorem tokenWritten (h : Encoding s₀ input old cur s) (hlt : s.srcPos.toNat < input.length) (hopen : cur.length < 8) :
    s.srcPos.toNat < (tokenWritten (tokenAt s) s).srcPos.toNat ∧
      Encoding s₀ input old (cur ++ [tokenAt s]) (Machine.tokenWritten (tokenAt s) s) := by
  obtain ⟨-, hwd, -, hsize, -⟩ := h.regions
  obtain ⟨htokens, hmore, hinside⟩ := h.chosen hlt
  have hfits := h.token_fits hlt hopen
  generalize tokenAt s = t at htokens hmore hinside hfits ⊢
  have hsrcPos := toNat_tokenWritten_srcPos (hsize ▸ hinside)
  have hdstPos := toNat_tokenWritten_dstPos hfits
  have hplace := h.place
  have hbytes : (cur ++ [t]).flatMap encode = cur.flatMap encode ++ encode t := by
    rw [List.flatMap_append, List.flatMap_singleton]
  refine ⟨by omega, ?_⟩
  exact {
    job := h.job
    frame := h.frame.trans (sameFrame_tokenWritten t s)
    phase := by rw [tokenWritten_phase, h.phase]
    inputs := by rw [tokenWritten_inputs, h.inputs]
    memory := by rw [tokenWritten_mem]; exact Memory.wf_writeList h.memory (by omega)
    inside := hsrcPos ▸ hinside
    tokens := hsrcPos ▸ htokens
    whole := h.whole
    small := by rw [List.length_append, List.length_singleton]; exact hopen
    cursor := by
      rw [tokenWritten_bit, h.cursor, BitVec.twoPow_eq, BitVec.twoPow_eq, List.length_append, List.length_singleton,
        BitVec.shiftLeft_add]
    flag := noteSelector_flag_eq (s := storeBytes _ _ s) t hopen h.cursor h.flag
    flagPlace := by rw [tokenWritten_flagPos, h.flagPlace]
    place := by rw [hdstPos, tokenWritten_flagPos, hbytes, List.length_append]; omega
    room := by rw [hdstPos, (sameFrame_tokenWritten t s).dstLen]; exact hfits
    closed := by
      rw [tokenWritten_mem, (sameFrame_tokenWritten t s).dstBase]
      refine Memory.holds_writeList h.closed fun i hi => ?_
      rw [← h.flagPlace] at hi
      omega
    opened := by
      have hend : s.dstBase.toNat + s.dstPos.toNat =
          s.dstBase.toNat + s.flagPos.toNat + 1 + (cur.flatMap encode).length := by omega
      rw [tokenWritten_mem, (sameFrame_tokenWritten t s).dstBase, tokenWritten_flagPos, hbytes, hend]
      exact Memory.holds_writeList_append h.memory (by omega) h.opened
    kept := fun a ha => by
      rw [(sameFrame_tokenWritten t s).dstBase, hdstPos] at ha
      rw [tokenWritten_mem, Memory.read_writeList_outside (by omega)]
      exact h.kept a (by omega) }

/-- One round of the loop with input left (R155): a token is written, in a new group when the last is full. -/
theorem step_token (h : Encoding s₀ input old cur s) (hlt : s.srcPos.toNat < input.length) :
    ∃ t old' cur', step s = .next t ∧ s.srcPos.toNat < t.srcPos.toNat ∧ Encoding s₀ input old' cur' t ∧
      cur' ≠ [] := by
  obtain ⟨hws, hwd, -, hsize, -⟩ := h.regions
  have hleft : s.srcPos.toNat < s.srcLen.toNat := hsize ▸ hlt
  have hplace := h.place
  have hroom := h.room
  rw [step_of_encRun h.inputs h.phase]
  by_cases hfull : cur.length = 8
  · have hgroup := h.groupOpened hlt hfull
    have hfits := hgroup.token_fits hlt (by decide)
    obtain ⟨hmore, hnext⟩ := hgroup.tokenWritten hlt (by decide)
    have hbit : s.bit = 256 := by rw [h.cursor, hfull]; rfl
    rw [encodeStep_of_fullGroup hws hwd hleft hbit (by omega),
      encodeStep_of_openGroup (s := Machine.groupOpened s) hws hwd hleft (groupOpened_bit_ne s) hfits]
    exact ⟨_, _, _, rfl, hmore, hnext, List.append_ne_nil_of_right_ne_nil _ (List.cons_ne_nil _ _)⟩
  · have hopen : cur.length < 8 := Nat.lt_of_le_of_ne h.small hfull
    have hfits := h.token_fits hlt hopen
    obtain ⟨hmore, hnext⟩ := h.tokenWritten hlt hopen
    rw [encodeStep_of_openGroup hws hwd hleft (h.cursor ▸ twoPow_ne_full hopen) hfits]
    exact ⟨_, _, _, rfl, hmore, hnext, List.append_ne_nil_of_right_ne_nil _ (List.cons_ne_nil _ _)⟩

/-- The loop consumes all of the input (R155). -/
theorem reaches_inputEnd (h : Encoding s₀ input old cur s) (hlast : cur = [] → old = []) :
    ∃ u old' cur', Reaches s u ∧ Encoding s₀ input old' cur' u ∧ (cur' = [] → old' = []) ∧
      u.srcPos.toNat = input.length := by
  induction hn : input.length - s.srcPos.toNat using Nat.strong_induction_on generalizing s old cur with
  | _ n ih =>
    have hinside := h.inside
    by_cases hlt : s.srcPos.toNat < input.length
    · obtain ⟨t, old', cur', hstep, hmore, hnext, hne⟩ := h.step_token hlt
      obtain ⟨u, old'', cur'', hreach, hu⟩ := ih (input.length - t.srcPos.toNat) (by omega) hnext
        (fun e => absurd e hne) rfl
      exact ⟨u, old'', cur'', .step hstep hreach, hu⟩
    · exact ⟨s, old, cur, .refl s, h, hlast, by omega⟩

end Encoding

/-! ## The whole command (R155) -/

/-- The end of a COMPRESS of `input` that began in `s`, with the tokens it chose (R150, R152, R155). -/
structure Compressed (s : State) (input : List Byte) (tokens : List Instr) (u : State) : Prop where
  status : u.status = { state := .done, cause := none, lastOp := s.status.lastOp }
  consumed : u.srcPosReg = s.srcLen
  produced : u.dstPosReg.toNat = (assemble s.headerBytes tokens).length
  tokensFor : TokensFor input input.length tokens
  memory : u.mem.wf = true
  output : u.mem.holds s.dstBase.toNat (assemble s.headerBytes tokens)
  kept : ∀ a, ¬ (s.dstBase.toNat ≤ a ∧ a < s.dstBase.toNat + (assemble s.headerBytes tokens).length) →
    u.mem.read a = s.mem.read a

/-- The last group's flag byte is stored and the command ends (R155, R188). -/
theorem Encoding.step_end {s₀ s : State} {input : List Byte} {old cur : List Instr}
    (h : Encoding s₀ input old cur s) (hlast : cur = [] → old = []) (hend : s.srcPos.toNat = input.length) :
    step s = .next (compressFinished s) ∧ Compressed s₀ input (old ++ cur) (compressFinished s) := by
  obtain ⟨hws, hwd, -, hsize, -⟩ := h.regions
  have hplace := h.place
  have hroom := h.room
  have huntainted : s.tainted = false := h.frame.tainted.trans h.job.untainted
  have hfinish : compressFinished s = endCommand .done s.srcLen s.dstPos
      (storeByte (s.dstBase.toNat + s.flagPos.toNat) s.flag s) :=
    conclude_of_untainted (s := storeByte _ _ s) huntainted _ _ _
  have hoff : ∀ a, ¬ (s₀.dstBase.toNat ≤ a ∧ a < s₀.dstBase.toNat + s.dstPos.toNat) →
      (compressFinished s).mem.read a = s₀.mem.read a := fun a ha => by
    rw [← h.frame.dstBase] at ha
    rw [hfinish, ← h.kept a ha]
    exact Memory.read_write_ne (by omega) _
  refine ⟨by rw [step_of_encRun h.inputs h.phase, encodeStep_of_end hws hwd (by omega) (by omega)], ?_⟩
  rw [h.place_of_last hlast] at hoff
  exact {
    status := by rw [hfinish, endCommand_status, storeByte_status, h.frame.status]; rfl
    consumed := by rw [hfinish]; exact h.frame.srcLen
    produced := by rw [hfinish]; exact h.place_of_last hlast
    tokensFor := hend ▸ h.tokens
    memory := by rw [hfinish]; exact Memory.wf_write h.memory (by omega) _
    output := by
      rw [hfinish, assemble_of_groups _ h.whole h.small hlast, ← h.frame.dstBase]
      exact h.holds_stream
    kept := hoff }

/-- Arguments that pass every check of COMPRESS (R183). -/
theorem failedCheck_of_lastOp_compress {s : State} (h : s.status.lastOp = opCompress)
    (hsrc : s.srcBase.toNat + s.srcLen.toNat ≤ 4294967296) (hdst : s.dstBase.toNat + s.dstLen.toNat ≤ 4294967296)
    (hroom : 8 + s.srcLen.toNat + max 1 ((s.srcLen.toNat + 7) / 8) ≤ s.dstLen.toNat)
    (hov : s.srcRegion.overlaps s.dstRegion = false) : failedCheck s = none := by
  have hknown : s.opKnown = true := by rw [State.opKnown, h]; rfl
  have hmask : s.isMask = false := by rw [State.isMask, h]; rfl
  have hdec : s.isDecompress = false := by rw [State.isDecompress, h]; rfl
  have henc : s.isCompress = true := by rw [State.isCompress, h]; rfl
  have hws : s.srcRegion.wraps = false := by simpa [Region.wraps, State.srcRegion] using hsrc
  have hwd : s.dstRegion.wraps = false := by simpa [Region.wraps, State.dstRegion] using hdst
  have hsmall : ¬ s.dstLen.toNat < outputBound s.srcLen.toNat := Nat.not_lt.mpr hroom
  simp only [failedCheck, argumentChecks, firstFailing, hknown, hmask, hdec, henc, hws, hwd, hov, hsmall]
  rfl

theorem beginBody_of_compress {s : State} (h : s.status.lastOp = opCompress) (hord : s.overDevice = false) :
    beginBody s = compressBegin s := by
  have hmask : s.isMask = false := by rw [State.isMask, h]; rfl
  have hdec : s.isDecompress = false := by rw [State.isDecompress, h]; rfl
  rw [beginBody, hord, hmask, hdec, if_neg Bool.false_ne_true, if_neg Bool.false_ne_true, if_neg Bool.false_ne_true]

/-- COMPRESS's body as its passed checks leave it, with the header written and a first group open (R155, R160):
`step_of_compressJob`. -/
def compressBody (s : State) : State :=
  { s with
    mem := s.mem.writeList s.dstBase.toNat s.headerBytes
    flagPos := 8
    flag := 0
    bit := 1
    dstPos := 9
    srcPos := 0
    phase := .encRun }

section
variable {s : State} {input : List Byte} (h : CompressJob s input)
include h

theorem step_of_compressJob (hin : s.inputs = []) (hp : s.phase = .check) (hord : s.ordinary opCompress) :
    step s = .next (compressBody s) := by
  obtain ⟨-, hwd, -, hroom⟩ := h.regions
  have hop : s.status.lastOp = opCompress := eq_of_beq h.command
  have hlen : s.headerBytes.length = 8 := rfl
  rw [step_of_no_inputs hin, coreStep, hp]
  simp only []
  rw [checkStep_of_passed h.checks, beginBody_of_compress hop (overDevice_eq_false_iff.mpr (hop ▸ hord)), compressBegin,
    dstWrites_ok _ (by omega) hwd, andThen_next]
  rfl

/-- The body begins with no input consumed and an empty first group. -/
theorem encoding_compressBody (hin : s.inputs = []) : Encoding s input [] [] (compressBody s) := by
  obtain ⟨-, hwd, -, hroom⟩ := h.regions
  have hlen : s.headerBytes.length = 8 := rfl
  have hnine : (9#32).toNat = 9 := rfl
  exact {
    job := h
    frame := ⟨rfl, rfl, rfl, rfl, rfl, rfl, rfl, rfl⟩
    phase := rfl
    inputs := hin
    memory := Memory.wf_writeList h.memory (by omega)
    inside := Nat.zero_le _
    tokens := ⟨rfl, trivial⟩
    whole := dvd_zero 8
    small := Nat.zero_le 8
    cursor := rfl
    flag := rfl
    flagPlace := rfl
    place := rfl
    room := by show (9#32).toNat ≤ s.dstLen.toNat; omega
    closed := Memory.holds_writeList_append (a := s.dstBase.toNat) (bs := []) h.memory (by rw [List.length_nil]; omega)
      fun i hi => absurd hi (Nat.not_lt_zero i)
    opened := fun i hi => absurd hi (Nat.not_lt_zero i)
    kept := fun a ha => by
      have hout : ¬ (s.dstBase.toNat ≤ a ∧ a < s.dstBase.toNat + (9#32).toNat) := ha
      exact Memory.read_writeList_outside (by omega) }

/-- COMPRESS from its argument checks to its end (R155). -/
theorem reaches_compressed (hin : s.inputs = []) (hp : s.phase = .check) (hord : s.ordinary opCompress) :
    ∃ u tokens, Reaches s u ∧ Compressed s input tokens u := by
  obtain ⟨v, old, cur, hreach, hend, hlast, hpos⟩ := (encoding_compressBody h hin).reaches_inputEnd fun _ => rfl
  obtain ⟨hstep, hdone⟩ := hend.step_end hlast hpos
  exact ⟨_, _, .step (step_of_compressJob h hin hp hord) (hreach.trans (.step hstep (.refl _))), hdone⟩

end

/-- A CMD write of COMPRESS with legal arguments. -/
theorem compressJob_startCommand {s : State} {input : List Byte} (hbusy : s.busy = false) (hm : s.mem.wf = true)
    (hsrc : s.srcBase.toNat + s.srcLen.toNat ≤ 4294967296) (hdst : s.dstBase.toNat + s.dstLen.toNat ≤ 4294967296)
    (hroom : 8 + s.srcLen.toNat + max 1 ((s.srcLen.toNat + 7) / 8) ≤ s.dstLen.toNat)
    (hov : s.srcRegion.overlaps s.dstRegion = false) (hsize : input.length = s.srcLen.toNat)
    (hsource : s.mem.holds s.srcBase.toNat input) : CompressJob (startCommand opCompress s) input := by
  rw [startCommand_of_not_busy hbusy]
  exact ⟨rfl, failedCheck_of_lastOp_compress rfl hsrc hdst hroom hov, rfl, hm, hsize, hsource⟩

/-- The tokens that COMPRESS chose make its output conforming (R150). -/
theorem Compressed.conforming {s u : State} {input : List Byte} {tokens : List Instr}
    (h : Compressed s input tokens u) : Conforming s.headerBytes input (assemble s.headerBytes tokens) := by
  refine ⟨tokens, fun t ht => (wf_of_refsBounded h.tokensFor.bounded t ht).1, rfl, h.tokensFor.bounded, ?_⟩
  rw [h.tokensFor.expands, List.take_length]

/-! ## The statement -/

/-- Settles O57: COMPRESS writes the assembled stream of tokens that stand for the input (`reaches_compressed`), and
DECOMPRESS of an assembled stream gives what its tokens stand for (`reaches_decompressed`). -/
theorem roundTrip : Obligations.RoundTrip := by
  intro s input hin hbusy hm hord hsrc hdst hroom hov hsize hsource
  have hjob := compressJob_startCommand hbusy hm hsrc hdst hroom hov hsize hsource
  have hstart := startCommand_of_not_busy hbusy opCompress
  obtain ⟨u, tokens, hreach, hdone⟩ := reaches_compressed hjob (by rw [hstart]; exact hin) (by rw [hstart])
    (by rw [hstart]; exact hord)
  have hheader : (startCommand opCompress s).headerBytes = s.headerBytes := by rw [hstart]; rfl
  have hbase : (startCommand opCompress s).dstBase = s.dstBase := by rw [hstart]
  have hconforming := hdone.conforming
  have hproduced := hdone.produced
  have houtput := hdone.output
  rw [hheader] at hconforming hproduced houtput
  rw [hbase] at houtput
  refine ⟨_, u, _, rfl, hreach, by rw [hdone.status], hconforming, hproduced, houtput, ?_⟩
  intro v hvin hvbusy hvmem hvord hvsrcBase hvsrcLen hvdstLen hvdst hvov
  have hexpand := hdone.tokensFor.expands
  rw [List.take_length] at hexpand
  rw [← hvmem, ← hvsrcBase] at houtput
  rw [← hvsrcLen] at hproduced
  have hvsrc : v.srcBase.toNat + v.srcLen.toNat ≤ 4294967296 := by
    obtain ⟨-, -, hbound, -⟩ := streamSize s.headerBytes tokens input rfl
      (wf_of_refsBounded hdone.tokensFor.bounded) hexpand
    rw [hvsrcBase, hproduced]
    omega
  obtain ⟨y, hy, hstatus, hsrcPos, hdstPos, hholds⟩ := reaches_decompressed hvin hvbusy (hvmem ▸ hdone.memory) hvord rfl
    (wf_of_refsBounded hdone.tokensFor.bounded) hexpand hproduced (by rw [hvdstLen, hsize]) hvsrc hvdst hvov houtput
  exact ⟨_, y, rfl, hy, hstatus, hsrcPos, hdstPos, hholds⟩

end Sys2Proof.Machine
end

/-! # The statements of 60_exceptions.md -/

section
namespace Sys2Proof.Machine

/-! ## The list of checks, one check at a time -/

/-- Phase Check over the checks `cs` that are still to be evaluated: the first that fails is raised, and the body
begins when none does (R183). `checkStep` is this over all seven: `checkStep_eq_raiseFirst`. -/
def raiseFirst (cs : List (Bool × InvalidReason)) (s : State) : Result :=
  match firstFailing cs with
  | some r => .next (raiseInvalid r s)
  | none => beginBody s

theorem checkStep_eq_raiseFirst (s : State) : checkStep s = raiseFirst (argumentChecks s) s := rfl

theorem raiseFirst_nil (s : State) : raiseFirst [] s = beginBody s := rfl

theorem raiseFirst_cons (failed : Bool) (r : InvalidReason) (cs : List (Bool × InvalidReason)) (s : State) :
    raiseFirst ((failed, r) :: cs) s = if failed = true then .next (raiseInvalid r s) else raiseFirst cs s := by
  cases failed with
  | true => rfl
  | false => rfl

theorem step_of_check {s : State} (hphase : s.phase = .check) (hin : s.inputs = []) : step s = checkStep s := by
  rw [step_of_no_inputs hin, coreStep, hphase]

/-! ## What each check compares (R95, R65, R120, R152) -/

theorem isMask_iff {s : State} : s.isMask = true ↔ s.status.lastOp = 0x01 := beq_iff_eq

theorem isDecompress_iff {s : State} : s.isDecompress = true ↔ s.status.lastOp = 0x02 := beq_iff_eq

theorem isCompress_iff {s : State} : s.isCompress = true ↔ s.status.lastOp = 0x03 := beq_iff_eq

theorem not_opKnown_iff {s : State} :
    (!s.opKnown) = true ↔ s.status.lastOp ≠ 0x01 ∧ s.status.lastOp ≠ 0x02 ∧ s.status.lastOp ≠ 0x03 := by
  have hknown : s.opKnown = (s.isMask || s.isDecompress || s.isCompress) := rfl
  rw [hknown, Bool.not_eq_true', ← Bool.not_eq_true, Bool.or_eq_true, Bool.or_eq_true, isMask_iff, isDecompress_iff,
    isCompress_iff, not_or, not_or, and_assoc]

theorem srcRegion_wraps_iff {s : State} :
    s.srcRegion.wraps = true ↔ 4294967296 < s.srcBase.toNat + s.srcLen.toNat := decide_eq_true_iff

theorem dstRegion_wraps_iff {s : State} :
    s.dstRegion.wraps = true ↔ 4294967296 < s.dstBase.toNat + s.dstLen.toNat := decide_eq_true_iff

theorem Region.overlaps_iff {a b : Region} :
    a.overlaps b = true ↔ a.len ≠ 0 ∧ b.len ≠ 0 ∧ a.base < b.base + b.len ∧ b.base < a.base + a.len := by
  simp only [Region.overlaps, Bool.and_eq_true, bne_iff_ne, decide_eq_true_eq, and_assoc]

theorem srcRegion_overlaps_dstRegion_iff {s : State} :
    s.srcRegion.overlaps s.dstRegion = true ↔ s.srcLen.toNat ≠ 0 ∧ s.dstLen.toNat ≠ 0 ∧
      s.srcBase.toNat < s.dstBase.toNat + s.dstLen.toNat ∧ s.dstBase.toNat < s.srcBase.toNat + s.srcLen.toNat :=
  Region.overlaps_iff

theorem outputBound_eq (n : Nat) : outputBound n = 8 + n + max 1 ((n + 7) / 8) := rfl

/-! ## The statement -/

/-- Settles O20: the list of checks is the statement's chain of seven links (`raiseFirst_cons`), and each link's test
is its comparison on unbounded integers. -/
theorem argumentChecksInOrder : Obligations.ArgumentChecksInOrder := by
  intro s hphase hin
  rw [step_of_check hphase hin, checkStep_eq_raiseFirst, argumentChecks]
  simp only [raiseFirst_cons, raiseFirst_nil, Bool.and_eq_true, Bool.or_eq_true, decide_eq_true_eq, gt_iff_lt,
    not_opKnown_iff, isMask_iff, isDecompress_iff, isCompress_iff, srcRegion_wraps_iff, dstRegion_wraps_iff,
    srcRegion_overlaps_dstRegion_iff, outputBound_eq]

end Sys2Proof.Machine
end

/-! # The statements of 70_reset_and_hazards.md -/

section
namespace Sys2Proof.Machine

/-! ## Host writes to the register block -/

theorem alignedWord_word {off : BitVec 6} (h : off.toNat % 4 = 0) : alignedWord off .word = true := by
  simp [alignedWord, h]

theorem step_of_wordWrite {s : State} {off : BitVec 6} {v : Word} {rest : List Input}
    (hin : s.inputs = .regWrite off .word v :: rest) (hoff : off.toNat % 4 = 0) :
    step s = hostRegWrite off v (s.withInputs rest) := by
  rw [step_of_input hin, hostStep, if_pos (alignedWord_word hoff)]

theorem commandWrite_of_busy {s : State} (h : s.busy = true) (v : Word) : commandWrite v s = .next s := by
  obtain ⟨op, hstart⟩ := commandWrite_cases v s
  rw [hstart, startCommand_of_busy h]

theorem writeReg_of_busy {s : State} (h : s.busy = true) (r : HostReg) (v : Word) : writeReg r v s = s :=
  if_pos h

/-- CMD and the other registers alike drop the write (R224). -/
theorem hostRegWrite_of_busy {s : State} (h : s.busy = true) (off : BitVec 6) (v : Word) :
    hostRegWrite off v s = .next s := by
  unfold hostRegWrite
  split
  · exact commandWrite_of_busy h v
  · rw [writeReg_of_busy h]

/-! ## The statement -/

/-- Settles O11: an aligned word write is the register's write, and while BUSY that drops it at every offset
(`hostRegWrite_of_busy`). -/
theorem writesWhileBusyAreLost : Obligations.WritesWhileBusyAreLost := by
  intro s off v rest hin hoff hbusy
  rw [step_of_wordWrite hin hoff]
  exact hostRegWrite_of_busy (s := s.withInputs rest) hbusy off v

end Sys2Proof.Machine
end

/-! # Decoding and encoding, every instruction (30_encoding.md) -/

section
namespace Sys2Proof.Machine

/-- Two bytes are those of the reference that they decode to (R86). -/
theorem encode_of_reference_bytes (low high : Byte) :
    encode (.ref (16 * high.toNat + low.toNat / 16) (low.toNat % 16 + 2)) = [low, high] := by
  have hlow := low.isLt
  have hhigh := high.isLt
  have hfirst : BitVec.ofNat 8 (16 * (16 * high.toNat + low.toNat / 16) + (low.toNat % 16 + 2 - 2)) = low :=
    BitVec.eq_of_toNat_eq (by rw [BitVec.toNat_ofNat]; omega)
  have hsecond : BitVec.ofNat 8 ((16 * high.toNat + low.toNat / 16) / 16) = high :=
    BitVec.eq_of_toNat_eq (by rw [BitVec.toNat_ofNat]; omega)
  rw [encode_ref (by omega), hfirst, hsecond]

/-- The code of a CMD word is its low byte, and the other three bytes are ignored (R95). -/
theorem decode_wordBytes (w : Word) :
    decode .command (wordBytes w) =
      if w.toNat % 256 = 1 then .ok (.mask, [])
      else if w.toNat % 256 = 2 then .ok (.decompress, [])
      else if w.toNat % 256 = 3 then .ok (.compress, [])
      else .error (.badCommand (BitVec.ofNat 8 w.toNat)) := by
  have hmask : BitVec.ofNat 8 w.toNat = 0x01 ↔ w.toNat % 256 = 1 := ofNat8_eq_iff w.toNat 1 (by decide)
  have hdecompress : BitVec.ofNat 8 w.toNat = 0x02 ↔ w.toNat % 256 = 2 := ofNat8_eq_iff w.toNat 2 (by decide)
  have hcompress : BitVec.ofNat 8 w.toNat = 0x03 ↔ w.toNat % 256 = 3 := ofNat8_eq_iff w.toNat 3 (by decide)
  simp only [wordBytes, littleEndian, decode, decodeOp, hmask, hdecompress, hcompress]
  split_ifs <;> rfl

/-! ## The statements -/

/-- Settles O1: a reference's two bytes name it (`reference_of_bytes`), and the other instructions' bytes are read back
as they stand. -/
theorem decodeOfEncode : Obligations.DecodeOfEncode := by
  intro i rest hwf
  cases i with
  | ref d l =>
    obtain ⟨-, hmin, hmax⟩ := wf_ref.mp hwf
    obtain ⟨hdist, hlen⟩ := reference_of_bytes hwf
    have hbytes : encode (.ref d l) ++ rest =
        BitVec.ofNat 8 (16 * d + (l - 2)) :: BitVec.ofNat 8 (d / 16) :: rest := by rw [encode_ref (by omega)]; rfl
    rw [hbytes, Instr.context, decode_reference, hdist, hlen]
  | flags f => rfl
  | lit b => rfl
  | mask => rfl
  | decompress => rfl
  | compress => rfl

/-- Settles O2: the reference that two bytes decode to has an encoding (`decode_reference_wf`), and it is the two bytes
(`encode_of_reference_bytes`). -/
theorem referenceBytesComeBack : Obligations.ReferenceBytesComeBack := by
  intro low high
  have hdecode := decode_reference low high []
  exact ⟨_, _, hdecode, decode_reference_wf hdecode, encode_of_reference_bytes low high⟩

/-- Settles O4: each of the ten words is decoded. -/
theorem wordsWrittenOut : Obligations.WordsWrittenOut := by
  unfold Obligations.WordsWrittenOut
  decide

end Sys2Proof.Machine
end

/-! # The invariant of every step -/

section
namespace Sys2Proof.Machine

/-! ## A core at rest -/

theorem busy_iff_phase {s : State} (h : Inv s) : s.busy = true ↔ s.phase.isBusy = true := by
  rw [State.busy_iff, h.statusFollowsPhase]
  cases s.phase <;> decide

theorem coreStep_of_rest {s : State} (h : s.phase.isBusy = false) : coreStep s = .next s := by
  cases hp : s.phase <;> rw [hp] at h
  case idle | done | fault => rw [coreStep, hp]
  all_goals cases h

theorem coreStep_of_not_busy {s : State} (h : Inv s) (hbusy : s.busy = false) : coreStep s = .next s := by
  refine coreStep_of_rest ?_
  rw [← Bool.not_eq_true, ← busy_iff_phase h, hbusy]
  exact Bool.false_ne_true

/-! ## CORE's own step and the host's actions -/

theorem inv_withInputs {s : State} (h : Inv s) (rest : List Input) : Inv (s.withInputs rest) :=
  inv_bookkeeping h ⟨_, _, _, _, _, rfl, h.memory⟩

theorem inv_record {s : State} (h : Inv s) (e : Event) : Inv (record e s) :=
  inv_bookkeeping h ⟨_, _, _, _, _, rfl, h.memory⟩

theorem inv_useDraw {s : State} (h : Inv s) : Inv (useDraw s) :=
  inv_bookkeeping h ⟨_, _, _, _, _, rfl, h.memory⟩

theorem inv_storeByte {s : State} (h : Inv s) {a : Nat} (ha : a < addrSpace) (v : Byte) : Inv (storeByte a v s) :=
  inv_bookkeeping h ⟨_, _, _, _, _, rfl, Memory.wf_write h.memory ha v⟩

/-- A launch over memory that is not ordinary is refused (R74). -/
theorem beginBody_of_overDevice {s : State} (h : s.overDevice = true) : beginBody s = .refused .nonOrdinaryMemory :=
  if_pos h

/-- A launch on ordinary memory, with the checks passed, is not (R74). -/
theorem beginBody_ne_refused {s : State} (hck : failedCheck s = none) (hdevice : s.overDevice = false) (e : Refusal) :
    beginBody s ≠ .refused e := by
  obtain ⟨-, hdst, -, -, hroom, hop⟩ := checks_regions hck
  rw [beginBody, hdevice, if_neg Bool.false_ne_true]
  split_ifs with hmask hdec
  · exact fun h => nomatch h
  · exact fun h => nomatch h
  · have henc : s.isCompress = true := (hop.resolve_left hmask).resolve_left hdec
    have hlen : s.headerBytes.length = 8 := rfl
    have hsize := hroom henc
    rw [compressBegin, dstWrites_ok _ (by omega) (hdst (.inr henc)).1, andThen_next]
    exact fun h => nomatch h

/-- CORE's own step goes on, unless it is a launch over memory that is not ordinary. -/
theorem coreStep_goes_on {s : State} (h : Inv s) :
    (s.overDevice = true ∧ coreStep s = .refused .nonOrdinaryMemory) ∨ GoesOn (coreStep s) := by
  cases hp : s.phase <;> rw [coreStep, hp] <;> simp only
  case idle | done | fault => exact .inr ⟨s, rfl, h⟩
  case check =>
    cases hck : failedCheck s with
    | some r =>
      rw [checkStep_of_failed hck]
      exact .inr ⟨_, rfl, inv_conclude h.memory h.cursorOneHot h.copyLeftSmall _ _ _⟩
    | none =>
      rw [checkStep_of_passed hck]
      cases hdevice : s.overDevice with
      | true => exact .inl ⟨rfl, beginBody_of_overDevice hdevice⟩
      | false => exact .inr ((begin_goes_on h hp hck).resolve_left (beginBody_ne_refused hck hdevice _))
  case maskRun => exact .inr (mask_goes_on h hp)
  case decRun => exact .inr (decode_goes_on h hp)
  case decCopy => exact .inr (copy_goes_on h hp)
  case encRun => exact .inr (encode_goes_on h hp)

/-- A step is refused, or goes on and keeps the invariant: it never stops with a fault of the model. -/
def RefusedOrGoesOn (r : Result) : Prop := (∃ e, r = .refused e) ∨ GoesOn r

theorem RefusedOrGoesOn.of_inv {s : State} (h : Inv s) : RefusedOrGoesOn (.next s) := .inr ⟨s, rfl, h⟩

theorem coreStep_refusedOrGoesOn {s : State} (h : Inv s) : RefusedOrGoesOn (coreStep s) :=
  (coreStep_goes_on h).imp_left fun hrefused => ⟨_, hrefused.2⟩

theorem inv_writeReg {s : State} (h : Inv s) (r : HostReg) (v : Word) : Inv (writeReg r v s) := by
  cases hbusy : s.busy with
  | true => rw [writeReg_of_busy hbusy]; exact h
  | false =>
    cases r <;> simp only [writeReg, hbusy, Bool.false_eq_true, if_false]
    case cmd | status | srcPos | dstPos | reserved => exact h
    all_goals exact inv_quiet h hbusy rfl rfl h.memory rfl rfl rfl

theorem hostRegWrite_goes_on {s : State} (h : Inv s) (off : BitVec 6) (v : Word) :
    RefusedOrGoesOn (hostRegWrite off v s) := by
  unfold hostRegWrite
  split
  · obtain ⟨op, hstart⟩ := commandWrite_cases v s
    rw [hstart]
    exact .of_inv (inv_start h op)
  · exact .of_inv (inv_writeReg h _ v)

theorem not_busy_of_ended {s : State} (h : s.ended = true) : s.busy = false := by
  simp only [State.ended, Bool.or_eq_true, beq_iff_eq] at h
  rcases h with h | h <;> rw [State.busy, h] <;> rfl

theorem inv_hostRegRead {s : State} (h : Inv s) (off : BitVec 6) : Inv (hostRegRead off s) := by
  unfold hostRegRead
  split_ifs with hfree hstatus
  · exact inv_useDraw (inv_record h _)
  · rw [Bool.and_eq_true] at hstatus
    exact inv_quiet h (not_busy_of_ended hstatus.2) rfl rfl h.memory rfl rfl rfl
  · exact inv_record h _

/-- A command that is marked goes on as before (R220). -/
theorem inv_taint {s : State} (h : Inv s) (hbusy : s.busy = true) : Inv (taint s) where
  memory := h.memory
  statusFollowsPhase := h.statusFollowsPhase
  causeOnlyOnFault := h.causeOnlyOnFault
  cursorOneHot := h.cursorOneHot
  copyLeftSmall := h.copyLeftSmall
  claimHeld := h.claimHeld
  taintedBusy _ := hbusy
  checksHold := h.checksHold
  ranges := h.ranges

theorem inv_noteHostWrite {s : State} (h : Inv s) (a : Nat) : Inv (noteHostWrite a s) := by
  unfold noteHostWrite violate
  split_ifs with hguard hbusy
  · exact inv_taint h hbusy
  · exact inv_disturb h.memory h.cursorOneHot h.copyLeftSmall
  · exact h

/-- An idle core whose cursor and `copy_left` are as after reset. -/
theorem inv_of_idle {s : State} (hm : s.mem.wf = true) (hphase : s.phase = .idle) (hstate : s.status.state = .idle)
    (hcause : s.status.cause = none) (hbit : s.bit = 1) (hleft : s.copyLeft = 0) (ht : s.tainted = false) : Inv s := by
  have hbusy : s.busy = false := by rw [State.busy, hstate]; rfl
  exact {
    memory := hm
    statusFollowsPhase := by rw [hstate, hphase]; rfl
    causeOnlyOnFault := by rw [hcause, hphase]; rfl
    cursorOneHot := by rw [hbit]; rfl
    copyLeftSmall := by rw [hleft]; exact Nat.zero_le _
    claimHeld := fun h => absurd (hbusy.symm.trans h) Bool.false_ne_true
    taintedBusy := fun h => absurd (ht.symm.trans h) Bool.false_ne_true
    checksHold := fun h => by rw [State.inBody, hphase] at h; cases h
    ranges := by rw [WorkingRanges, hphase]; trivial }

theorem inv_applyReset {s : State} (h : s.mem.wf = true) : Inv (applyReset s) := by
  have hmem : (applyReset s).mem.wf = true := by
    show (if s.busy = true then drawWriteRegion s.stream s.draws s.claim s.mem else s.mem).wf = true
    split_ifs
    · exact drawWriteRegion_wf h _ _ _
    · exact h
  exact inv_of_idle hmem rfl rfl rfl rfl rfl rfl

theorem hostStep_goes_on {s : State} (h : Inv s) (i : Input) : RefusedOrGoesOn (hostStep i s) := by
  cases i with
  | turn => exact coreStep_refusedOrGoesOn h
  | regWrite off w v =>
    rw [hostStep]
    split_ifs
    · exact hostRegWrite_goes_on h off v
    · exact .inl ⟨_, rfl⟩
  | regRead off w =>
    rw [hostStep]
    split_ifs
    · exact .of_inv (inv_hostRegRead h off)
    · exact .inl ⟨_, rfl⟩
  | memWrite a v =>
    rw [hostStep, hostMemWrite]
    split_ifs
    · exact .inl ⟨_, rfl⟩
    · exact .of_inv (inv_noteHostWrite (inv_storeByte h a.isLt v) _)
  | memRead a =>
    rw [hostStep, hostMemRead]
    split_ifs
    · exact .inl ⟨_, rfl⟩
    · exact .of_inv (inv_useDraw (inv_record h _))
    · exact .of_inv (inv_record h _)
  | reset => exact .of_inv (inv_applyReset h.memory)

theorem step_goes_on {s : State} (h : Inv s) : RefusedOrGoesOn (step s) := by
  cases hin : s.inputs with
  | nil => rw [step_of_no_inputs hin]; exact coreStep_refusedOrGoesOn h
  | cons i rest => rw [step_of_input hin]; exact hostStep_goes_on (inv_withInputs h rest) i

/-! ## The statements -/

/-- Settles O46: every clause of the invariant is about a field whose value `State.reset` gives. -/
theorem resetMeetsInv : Obligations.ResetMeetsInv := inv_of_idle rfl rfl rfl rfl rfl rfl rfl

/-- Settles O47: what a step leads to is the state of `step_goes_on`. -/
theorem stepKeepsInv : Obligations.StepKeepsInv := by
  intro s t h hstep
  obtain ⟨e, hrefused⟩ | ⟨u, hnext, hu⟩ := step_goes_on h
  · rw [hrefused] at hstep
    cases hstep
  · rw [hnext] at hstep
    cases hstep
    exact hu

/-- Settles O48: a step is refused or goes on (`step_goes_on`). -/
theorem stepNeverFaults : Obligations.StepNeverFaults := by
  intro s f h hstep
  obtain ⟨e, hrefused⟩ | ⟨u, hnext, -⟩ := step_goes_on h
  · rw [hrefused] at hstep
    cases hstep
  · rw [hnext] at hstep
    cases hstep

/-- Settles O22: with the checks passed, the body begins unless a region is over a device (`beginBody_ne_refused`). -/
theorem nonOrdinaryLaunchIsRefused : Obligations.NonOrdinaryLaunchIsRefused := by
  intro s hp hin hck
  rw [step_of_check hp hin, checkStep_of_passed hck, ← overDevice_eq_false_iff]
  cases hdevice : s.overDevice with
  | true => exact ⟨fun _ h => Bool.noConfusion h, fun _ => beginBody_of_overDevice hdevice⟩
  | false => exact ⟨fun h => absurd h (beginBody_ne_refused hck hdevice _), fun h => absurd rfl h⟩

/-- Settles O39: outside the BUSY phases CORE's own step does nothing (`coreStep_of_not_busy`). -/
theorem restIsStill : Obligations.RestIsStill :=
  fun _ h hin hbusy => (step_of_no_inputs hin).trans (coreStep_of_not_busy h hbusy)

end Sys2Proof.Machine
end

/-! # What a running command's own step does -/

section
namespace Sys2Proof.Machine

/-! ## Stores to a buffer, and the end of a command -/

theorem Region.contains_iff {r : Region} {a : Nat} : r.contains a = true ↔ r.base ≤ a ∧ a < r.base + r.len := by
  rw [Region.contains, Bool.and_eq_true, decide_eq_true_eq, decide_eq_true_eq]

theorem dstRegion_contains {s : State} {j : Nat} (h : j < s.dstLen.toNat) :
    s.dstRegion.contains (s.dstBase.toNat + j) = true :=
  Region.contains_iff.mpr ⟨Nat.le_add_right _ _, Nat.add_lt_add_left h _⟩

theorem maskedRegion_contains {s : State} (hoff : s.offset.toNat ≤ s.srcPos.toNat)
    (hlt : s.srcPos.toNat < s.srcLen.toNat) : s.maskedRegion.contains (s.srcBase.toNat + s.srcPos.toNat) = true := by
  rw [Region.contains_iff]
  show s.srcBase.toNat + s.offset.toNat ≤ _ ∧
    _ < s.srcBase.toNat + s.offset.toNat + (s.srcLen.toNat - s.offset.toNat)
  omega

/-- A store to DST changes memory only, and only in DST (R10). -/
theorem dstWrite_keeps {s t : State} {j : Nat} {v : Byte} (h : dstWrite j v s = .next t) :
    t = { s with mem := t.mem } ∧ ∀ a, s.dstRegion.contains a = false → t.mem.read a = s.mem.read a := by
  obtain ⟨x, hx, rfl⟩ := dstWrite_eq_next.mp h
  obtain ⟨hj, -, rfl⟩ := bufferAddr_eq_ok.mp hx
  refine ⟨rfl, fun a ha => Memory.read_write_ne (fun e => ?_) v⟩
  have hin : s.dstRegion.contains (s.dstRegion.base + j) = true := dstRegion_contains hj
  rw [e, hin] at ha
  cases ha

theorem dstWrites_eq_storeBytes {bs : List Byte} {s t : State} {j : Nat} (h : dstWrites j bs s = .next t) :
    t = storeBytes (s.dstBase.toNat + j) bs s := by
  induction bs generalizing s j with
  | nil => cases h; rfl
  | cons b bs ih =>
    obtain ⟨u, hu, ht⟩ := andThen_eq_next.mp h
    obtain ⟨x, hx, rfl⟩ := dstWrite_eq_next.mp hu
    obtain ⟨-, -, rfl⟩ := bufferAddr_eq_ok.mp hx
    exact ih ht

theorem dstWrites_keeps {bs : List Byte} {s t : State} {j : Nat} (h : dstWrites j bs s = .next t) :
    t = { s with mem := t.mem } ∧ ∀ a, s.dstRegion.contains a = false → t.mem.read a = s.mem.read a := by
  induction bs generalizing s j with
  | nil => cases h; exact ⟨rfl, fun _ _ => rfl⟩
  | cons b bs ih =>
    obtain ⟨u, hu, ht⟩ := andThen_eq_next.mp h
    obtain ⟨hsame, hfirst⟩ := dstWrite_keeps hu
    obtain ⟨hsame', hrest⟩ := ih ht
    have hregion : u.dstRegion = s.dstRegion := by rw [hsame]; rfl
    rw [hregion] at hrest
    exact ⟨by rw [hsame', hsame], fun a ha => (hrest a ha).trans (hfirst a ha)⟩

theorem bufWrite_eq_next {s t : State} {i : Nat} {v : Byte} :
    bufWrite i v s = .next t ↔ ∃ a, bufferAddr s.srcRegion i = .ok a ∧ t = storeByte a v s := by
  simp only [bufWrite, withValue_eq_next, Host.Outcome.next.injEq, eq_comm (a := t)]

/-- Every end of a command, a marked one's too, is `endCommand` of some outcome after a change of the claim's write
region at most (R182, R185, R188, R220). -/
theorem conclude_eq_endCommand (how : Ending) (p q : Word) (s : State) :
    ∃ how' p' q' m d, conclude how p q s = endCommand how' p' q' { s with mem := m, draws := d, tainted := false } ∧
      ∀ c, s.claim = some c → ∀ a, c.writes.contains a = false → m.read a = s.mem.read a := by
  obtain ⟨ht, h⟩ | ⟨-, h⟩ := conclude_cases how p q s
  · refine ⟨how, p, q, s.mem, s.draws, ?_, fun _ _ _ _ => rfl⟩
    rw [h, ← ht]
  · refine ⟨_, _, _, _, _, h, fun c hc a ha => ?_⟩
    rw [hc]
    refine Memory.read_fill_outside _ fun hin => ?_
    rw [Region.contains_iff.mpr hin] at ha
    cases ha

theorem conclude_phase_isBusy (how : Ending) (p q : Word) (s : State) :
    (conclude how p q s).phase.isBusy = false := by
  obtain ⟨how', _, _, _, _, h, -⟩ := conclude_eq_endCommand how p q s
  rw [h, endCommand_phase]
  cases how' <;> rfl

theorem endToken_conclude (how : Ending) (p q : Word) (s : State) :
    endToken (conclude how p q s) = conclude how p q s :=
  endToken_of_not_decRun fun e => absurd (conclude_phase_isBusy how p q s) (by rw [e]; decide)

/-! ## The two forms of a step -/

/-- What a running command's own step leaves as it was: the registers of its frame, the model's bookkeeping, and every
byte outside the command's write region (R64, R113, R152). -/
structure Confined (s t : State) : Prop where
  frame : SameFrame s t
  history : t.history = s.history
  inputs : t.inputs = s.inputs
  devices : t.devices = s.devices
  memory : ∀ a, (claimFor s.status.lastOp s).writes.contains a = false → t.mem.read a = s.mem.read a

/-- A change of the working registers alone is confined. -/
theorem confined_of_working {s t : State}
    (h : t = { s with
      phase := t.phase, srcPos := t.srcPos, dstPos := t.dstPos, flag := t.flag, bit := t.bit, keyIdx := t.keyIdx
      copyFrom := t.copyFrom, copyLeft := t.copyLeft, tokStart := t.tokStart, flagPos := t.flagPos }) :
    Confined s t := by
  rw [h]
  exact ⟨⟨rfl, rfl, rfl, rfl, rfl, rfl, rfl, rfl⟩, rfl, rfl, rfl, fun _ _ => rfl⟩

theorem Confined.refl (s : State) : Confined s s := confined_of_working rfl

theorem Confined.trans {s t u : State} (h : Confined s t) (h' : Confined t u) : Confined s u where
  frame := h.frame.trans h'.frame
  history := h'.history.trans h.history
  inputs := h'.inputs.trans h.inputs
  devices := h'.devices.trans h.devices
  memory a ha := by
    have hmem := h'.memory a
    rw [h.frame.claimFor, h.frame.status] at hmem
    exact (hmem ha).trans (h.memory a ha)

/-- What is left of the running command: more than the steps it still takes. -/
def State.work (s : State) : Nat :=
  match s.phase with
  | .idle | .done | .fault => 0
  | .check => 2 * s.srcLen.toNat + s.dstLen.toNat + 3
  | .maskRun | .encRun => s.srcLen.toNat - s.srcPos.toNat + 1
  | .decRun => 2 * (s.srcLen.toNat - s.srcPos.toNat) + (s.dstLen.toNat - s.dstPos.toNat) + 1
  | .decCopy => 2 * (s.srcLen.toNat - s.srcPos.toNat) + (s.dstLen.toNat - s.dstPos.toNat) + 2

/-- The phase is one of the running command's, and MASK is past OFFSET: what `Inv` says of a command, as far as it
decides where the command writes. -/
def State.onCourse (s : State) : Prop :=
  match s.phase with
  | .idle | .check | .done | .fault => True
  | .maskRun => s.isMask = true ∧ s.offset.toNat ≤ s.srcPos.toNat
  | .decRun | .decCopy => s.isDecompress = true
  | .encRun => s.isCompress = true

theorem onCourse_of_inv {s : State} (h : Inv s) : s.onCourse := by
  have hranges := h.ranges
  unfold State.onCourse
  cases hp : s.phase <;> simp only [WorkingRanges, hp] at hranges ⊢
  case maskRun => exact ⟨hranges.1, hranges.2.1⟩
  case decRun | decCopy | encRun => exact hranges.1

/-- The command is still running after the step, and nearer to its end. -/
structure Continues (s t : State) : Prop extends Confined s t where
  onCourse : t.onCourse
  running : t.phase.isBusy = true
  shorter : t.work < s.work

/-- The step ended the command. -/
def Ends (s t : State) : Prop := ∃ u how p q, Confined s u ∧ t = conclude how p q u

theorem writes_of_dst {s : State} (h : s.isDecompress = true ∨ s.isCompress = true) :
    (claimFor s.status.lastOp s).writes = s.dstRegion := by
  obtain h | h := h
  · rw [isDecompress_iff.mp h]; rfl
  · rw [isCompress_iff.mp h]; rfl

theorem writes_of_mask {s : State} (h : s.isMask = true) :
    (claimFor s.status.lastOp s).writes = s.maskedRegion := by
  rw [isMask_iff.mp h]; rfl

theorem confined_of_dst {s t : State} (h : s.isDecompress = true ∨ s.isCompress = true)
    (ht : t = { s with mem := t.mem } ∧ ∀ a, s.dstRegion.contains a = false → t.mem.read a = s.mem.read a) :
    Confined s t := by
  obtain ⟨hsame, hmem⟩ := ht
  refine ⟨?_, ?_, ?_, ?_, by rwa [writes_of_dst h]⟩
  · constructor <;> rw [hsame]
  all_goals rw [hsame]

/-! ## The fetch -/

/-- The decoder reads an instruction of the place it is told (R87). -/
theorem context_of_decode {c : DecodeContext} {bytes rest : List Byte} {i : Instr}
    (h : decode c bytes = .ok (i, rest)) : i.context = c := by
  unfold decode at h
  split at h
  · split at h
    · rename_i hop
      cases h
      unfold decodeOp at hop
      split_ifs at hop <;> cases hop <;> rfl
    · cases h
  all_goals cases h
  all_goals rfl

theorem fetch_eq_ok {c : DecodeContext} {s : State} {i : Instr} (h : fetch c s = .ok (.ok i)) :
    s.srcPos.toNat + c.size ≤ s.srcLen.toNat ∧ i.context = c := by
  unfold fetch at h
  split_ifs at h with hlt
  · cases h
  · split at h
    · cases h
    · split at h
      · cases h
      · rename_i hdecode
        cases h
        exact ⟨Nat.not_lt.mp hlt, context_of_decode hdecode⟩

theorem toNat_add_ofNat {x y : Word} {k : Nat} (h : x.toNat + k ≤ y.toNat) :
    (x + BitVec.ofNat 32 k).toNat = x.toNat + k := by
  have hy := y.isLt
  rw [BitVec.toNat_add, BitVec.toNat_ofNat]
  omega

/-! ## Each phase's step -/

theorem checkStep_cases {s t : State} (hp : s.phase = .check) (h : checkStep s = .next t) :
    Continues s t ∨ Ends s t := by
  have hwork : s.work = 2 * s.srcLen.toNat + s.dstLen.toNat + 3 := by rw [State.work, hp]
  cases hck : failedCheck s with
  | some r =>
    rw [checkStep_of_failed hck] at h
    cases h
    exact .inr ⟨s, _, _, _, .refl s, rfl⟩
  | none =>
    obtain ⟨-, -, -, -, -, hop⟩ := checks_regions hck
    rw [checkStep_of_passed hck, beginBody] at h
    left
    split_ifs at h with hdevice hmask hdec
    · cases h
      refine ⟨confined_of_working rfl, ⟨hmask, le_rfl⟩, rfl, ?_⟩
      rw [hwork]
      show s.srcLen.toNat - s.offset.toNat + 1 < _
      omega
    · cases h
      refine ⟨confined_of_working rfl, hdec, rfl, ?_⟩
      rw [hwork]
      show 2 * (s.srcLen.toNat - 8) + (s.dstLen.toNat - 0) + 1 < _
      omega
    · have henc : s.isCompress = true := (hop.resolve_left hmask).resolve_left hdec
      obtain ⟨u, hu, ht⟩ := andThen_eq_next.mp h
      cases ht
      have hheader := confined_of_dst (.inr henc) (dstWrites_keeps hu)
      have hcompress : u.isCompress = true := by rw [State.isCompress, hheader.frame.status]; exact henc
      refine ⟨hheader.trans (confined_of_working rfl),
        hcompress, rfl, ?_⟩
      rw [hwork, ← hheader.frame.srcLen]
      show u.srcLen.toNat - 0 + 1 < _
      omega

theorem maskStep_cases {s t : State} (hp : s.phase = .maskRun) (hmask : s.isMask = true)
    (hoff : s.offset.toNat ≤ s.srcPos.toNat) (h : maskStep s = .next t) : Continues s t ∨ Ends s t := by
  unfold maskStep at h
  split_ifs at h with hlt
  · obtain ⟨b, -, hb⟩ := withValue_eq_next.mp h
    obtain ⟨u, hu, ht⟩ := andThen_eq_next.mp hb
    obtain ⟨x, hx, rfl⟩ := bufWrite_eq_next.mp hu
    obtain ⟨-, -, rfl⟩ := bufferAddr_eq_ok.mp hx
    cases ht
    have hnext : (s.srcPos + 1).toNat = s.srcPos.toNat + 1 := toNat_add_one_of_lt hlt
    refine .inl ⟨⟨⟨rfl, rfl, rfl, rfl, rfl, rfl, rfl, rfl⟩, rfl, rfl, rfl, fun a ha => ?_⟩, ?_, ?_, ?_⟩
    · rw [writes_of_mask hmask] at ha
      refine Memory.read_write_ne (fun e => ?_) _
      have hin : s.maskedRegion.contains (s.srcRegion.base + s.srcPos.toNat) = true := maskedRegion_contains hoff hlt
      rw [e, hin] at ha
      cases ha
    · simp only [State.onCourse, maskAdvance_phase, storeByte_phase, hp, maskAdvance_srcPos, storeByte_srcPos]
      exact ⟨hmask, by rw [hnext]; exact Nat.le_succ_of_le hoff⟩
    · simp only [maskAdvance_phase, storeByte_phase, hp, Phase.isBusy]
    · simp only [State.work, maskAdvance_phase, storeByte_phase, hp, maskAdvance_srcPos, storeByte_srcPos,
        maskAdvance_srcLen, storeByte_srcLen, hnext]
      omega
  · cases h
    exact .inr ⟨s, _, _, _, .refl s, rfl⟩

theorem copyStep_cases {s t : State} (hp : s.phase = .decCopy) (hdec : s.isDecompress = true)
    (h : copyStep s = .next t) : Continues s t ∨ Ends s t := by
  unfold copyStep at h
  left
  split_ifs at h with hmore
  · rw [Bool.and_eq_true, decide_eq_true_eq, decide_eq_true_eq] at hmore
    obtain ⟨b, -, hb⟩ := withValue_eq_next.mp h
    obtain ⟨u, hu, ht⟩ := andThen_eq_next.mp hb
    cases ht
    have hstore := confined_of_dst (.inl hdec) (dstWrite_keeps hu)
    obtain ⟨x, -, rfl⟩ := dstWrite_eq_next.mp hu
    have hnext : (s.dstPos + 1).toNat = s.dstPos.toNat + 1 := toNat_add_one_of_lt hmore.2
    refine ⟨hstore.trans (confined_of_working rfl), ?_, ?_, ?_⟩
    · simp only [State.onCourse, copyAdvance_phase, storeByte_phase, hp]
      exact hdec
    · simp only [copyAdvance_phase, storeByte_phase, hp, Phase.isBusy]
    · simp only [State.work, copyAdvance_phase, storeByte_phase, hp, copyAdvance_dstPos, storeByte_dstPos,
        copyAdvance_srcPos, storeByte_srcPos, copyAdvance_srcLen, storeByte_srcLen, copyAdvance_dstLen,
        storeByte_dstLen, hnext]
      omega
  · cases h
    refine ⟨confined_of_working rfl, hdec, rfl, ?_⟩
    simp only [State.work, copyEnd_phase, hp, copyEnd_srcPos, copyEnd_srcLen, copyEnd_dstPos, copyEnd_dstLen]
    omega

theorem flagsStep_cases {s t : State} (hp : s.phase = .decRun) (hdec : s.isDecompress = true)
    (h : flagsStep s = .next t) : Continues s t ∨ Ends s t := by
  obtain ⟨r, hfetch, hr⟩ := withValue_eq_next.mp h
  cases r with
  | error e => cases hr
  | ok i =>
    obtain ⟨hlt, hplace⟩ := fetch_eq_ok hfetch
    have hnext : (s.srcPos + 1).toNat = s.srcPos.toNat + 1 := toNat_add_one_of_lt hlt
    cases i with
    | flags f =>
      cases hr
      refine .inl ⟨confined_of_working rfl, ?_, ?_, ?_⟩
      · simp only [State.onCourse, hp]
        exact hdec
      · simp only [hp, Phase.isBusy]
      · simp only [State.work, hp, hnext]
        simp only [DecodeContext.size] at hlt
        omega
    | lit b => cases hplace
    | ref d l => cases hplace
    | mask => cases hplace
    | decompress => cases hplace
    | compress => cases hplace

theorem tokenContext_ne (s : State) : tokenContext s ≠ .command ∧ tokenContext s ≠ .flagByte := by
  unfold tokenContext
  split_ifs <;> decide

theorem confined_beginToken (s : State) : Confined s (beginToken s) := confined_of_working rfl

/-- A literal whose byte is in SRC (R123). -/
theorem execLit_cases {b : Byte} {s t : State} (hp : s.phase = .decRun) (hdec : s.isDecompress = true)
    (hlt : s.srcPos.toNat < s.srcLen.toNat) (h : execLit b (beginToken s) = .next t) : Continues s (endToken t) := by
  have hsrc : (s.srcPos + 1).toNat = s.srcPos.toNat + 1 := toNat_add_one_of_lt hlt
  rw [execLit, if_neg (by exact Nat.not_le.mpr hlt)] at h
  obtain ⟨u, hu, ht⟩ := andThen_eq_next.mp h
  cases ht
  have hstore := (confined_beginToken s).trans (confined_of_dst (.inl hdec) (dstWrite_keeps hu))
  obtain ⟨x, hx, rfl⟩ := dstWrite_eq_next.mp hu
  obtain ⟨hroom, -, -⟩ := bufferAddr_eq_ok.mp hx
  have hdst : (s.dstPos + 1).toNat = s.dstPos.toNat + 1 := toNat_add_one_of_lt (y := s.dstLen) hroom
  rw [endToken_of_decRun (by exact hp)]
  refine ⟨hstore.trans (confined_of_working rfl), ?_, ?_, ?_⟩
  · simp only [State.onCourse, doubleBit_phase, literalAdvance_phase, storeByte_phase, beginToken_phase, hp]
    exact hdec
  · simp only [doubleBit_phase, literalAdvance_phase, storeByte_phase, beginToken_phase, hp, Phase.isBusy]
  · simp only [State.work, doubleBit_phase, literalAdvance_phase, storeByte_phase, beginToken_phase, hp,
      doubleBit_srcPos, doubleBit_srcLen, doubleBit_dstPos, doubleBit_dstLen, literalAdvance_srcPos,
      literalAdvance_srcLen, literalAdvance_dstPos, literalAdvance_dstLen, storeByte_srcPos, storeByte_srcLen,
      storeByte_dstPos, storeByte_dstLen, beginToken_srcPos, beginToken_srcLen, beginToken_dstPos, beginToken_dstLen,
      hsrc, hdst]
    omega

/-- A reference whose bytes are in SRC: one of its faults, or its copy's start (R124, R125). -/
theorem execRef_cases {d l : Nat} {s t : State} (hp : s.phase = .decRun) (hdec : s.isDecompress = true)
    (hlt : s.srcPos.toNat + 2 ≤ s.srcLen.toNat) (h : execRef d l (beginToken s) = .next t) :
    Continues s (endToken t) ∨ Ends s (endToken t) := by
  have hsrc : (s.srcPos + 2).toNat = s.srcPos.toNat + 2 := toNat_add_ofNat hlt
  have hconsume : Confined s (consumeDescriptor (beginToken s)) := confined_of_working rfl
  rw [execRef, if_neg (by exact Nat.not_lt.mpr hlt)] at h
  split_ifs at h with hzero hfar <;> cases h
  · exact .inr ⟨_, _, _, _, hconsume, endToken_conclude _ _ _ _⟩
  · exact .inr ⟨_, _, _, _, hconsume, endToken_conclude _ _ _ _⟩
  · rw [endToken_of_not_decRun (by simp)]
    refine .inl ⟨hconsume.trans (confined_of_working rfl), hdec, rfl, ?_⟩
    simp only [State.work, beginCopy_phase, beginCopy_srcPos, beginCopy_srcLen, beginCopy_dstPos, beginCopy_dstLen,
      consumeDescriptor_srcPos, consumeDescriptor_srcLen, consumeDescriptor_dstPos, consumeDescriptor_dstLen,
      beginToken_srcPos, beginToken_srcLen, beginToken_dstPos, beginToken_dstLen, hp, hsrc]
    omega

/-- A token that runs is a literal or a reference (R121). -/
theorem execToken_cases {i : Instr} {s t : State} (hp : s.phase = .decRun) (hdec : s.isDecompress = true)
    (hplace : i.context = tokenContext s) (hlt : s.srcPos.toNat + i.context.size ≤ s.srcLen.toNat)
    (h : exec i (beginToken s) = .next t) : Continues s (endToken t) ∨ Ends s (endToken t) := by
  obtain ⟨hcommand, hflagByte⟩ := tokenContext_ne s
  rw [← hplace] at hcommand hflagByte
  cases i with
  | lit b => exact .inl (execLit_cases hp hdec hlt h)
  | ref d l => exact execRef_cases hp hdec hlt h
  | flags f => exact absurd rfl hflagByte
  | mask => exact absurd rfl hcommand
  | decompress => exact absurd rfl hcommand
  | compress => exact absurd rfl hcommand

theorem tokenStep_cases {s t : State} (hp : s.phase = .decRun) (hdec : s.isDecompress = true)
    (h : tokenStep s = .next t) : Continues s t ∨ Ends s t := by
  obtain ⟨r, hfetch, hr⟩ := withValue_eq_next.mp h
  cases r with
  | error e =>
    cases hr
    exact .inr ⟨beginToken s, _, _, _,
      confined_of_working rfl, rfl⟩
  | ok i =>
    obtain ⟨hlt, hplace⟩ := fetch_eq_ok hfetch
    obtain ⟨u, hu, ht⟩ := andThen_eq_next.mp hr
    cases ht
    exact execToken_cases hp hdec hplace (hplace ▸ hlt) hu

theorem decodeStep_cases {s t : State} (hp : s.phase = .decRun) (hdec : s.isDecompress = true)
    (h : decodeStep s = .next t) : Continues s t ∨ Ends s t := by
  unfold decodeStep at h
  split_ifs at h
  · exact flagsStep_cases hp hdec h
  · exact tokenStep_cases hp hdec h
  · exact flagsStep_cases hp hdec h
  · exact tokenStep_cases hp hdec h
  · cases h
    exact .inr ⟨s, _, _, _, .refl s, rfl⟩

theorem nextGroup_keeps {s t : State} (henc : s.isCompress = true) (h : nextGroup s = .next t) :
    Confined s t ∧ t.phase = s.phase ∧ t.srcPos = s.srcPos := by
  unfold nextGroup at h
  split_ifs at h
  · obtain ⟨u, hu, ht⟩ := andThen_eq_next.mp h
    cases ht
    have hstore := confined_of_dst (.inr henc) (dstWrite_keeps hu)
    obtain ⟨x, -, rfl⟩ := dstWrite_eq_next.mp hu
    exact ⟨hstore.trans (confined_of_working rfl), rfl, rfl⟩
  · cases h
    exact ⟨.refl s, rfl, rfl⟩

theorem confined_tokenWritten {s : State} (henc : s.isCompress = true) (t : Instr)
    (hmem : ∀ a, s.dstRegion.contains a = false → (tokenWritten t s).mem.read a = s.mem.read a) :
    Confined s (tokenWritten t s) where
  frame := sameFrame_tokenWritten t s
  history := noteSelector_history _ t
  inputs := tokenWritten_inputs t s
  devices := noteSelector_devices _ t
  memory := by rwa [writes_of_dst (.inr henc)]

/-- The policy's token stands for at least one byte of the input, and for no more than are left (R156, R157). -/
theorem tokenInput_tokenAt {s : State} (hlt : s.srcPos.toNat < s.srcLen.toNat) :
    1 ≤ tokenInput (tokenAt s) ∧ s.srcPos.toNat + tokenInput (tokenAt s) ≤ s.srcLen.toNat := by
  have hbest := bestMatch_le s.srcByte s.srcLen.toNat s.srcPos.toNat
  unfold tokenAt chooseToken
  split_ifs with hlong
  · simp only [Config.lenMin] at hlong
    simp only [tokenInput]
    omega
  · exact ⟨le_rfl, hlt⟩

theorem encodeStep_cases {s t : State} (hp : s.phase = .encRun) (henc : s.isCompress = true)
    (h : encodeStep s = .next t) : Continues s t ∨ Ends s t := by
  unfold encodeStep at h
  split_ifs at h with hwraps hlt
  · obtain ⟨u, hu, ht⟩ := andThen_eq_next.mp h
    obtain ⟨v, hv, ht⟩ := andThen_eq_next.mp ht
    obtain ⟨hgroup, hphase, hsrcPos⟩ := nextGroup_keeps henc hu
    have hcompress : u.isCompress = true := by rw [State.isCompress, hgroup.frame.status]; exact henc
    have hwritten : t = tokenWritten (tokenAt u) u := by
      rw [dstWrites_eq_storeBytes hv] at ht
      cases ht
      rfl
    have hleft : u.srcPos.toNat < u.srcLen.toNat := by rw [hsrcPos, hgroup.frame.srcLen]; exact hlt
    obtain ⟨hsome, hinside⟩ := tokenInput_tokenAt hleft
    have hmem : ∀ a, u.dstRegion.contains a = false → (tokenWritten (tokenAt u) u).mem.read a = u.mem.read a := by
      have hstores := (dstWrites_keeps hv).2
      rw [dstWrites_eq_storeBytes hv] at hstores
      rwa [tokenWritten_mem]
    have hconfined := confined_tokenWritten hcompress (tokenAt u) hmem
    subst hwritten
    refine .inl ⟨hgroup.trans hconfined, ?_, ?_, ?_⟩
    · simp only [State.onCourse, tokenWritten_phase, hphase, hp]
      rw [State.isCompress, hconfined.frame.status]
      exact hcompress
    · rw [tokenWritten_phase, hphase, hp]
      rfl
    · simp only [State.work, tokenWritten_phase, hphase, hp, toNat_tokenWritten_srcPos hinside, hconfined.frame.srcLen,
        hgroup.frame.srcLen, hsrcPos]
      omega
  · obtain ⟨u, hu, ht⟩ := andThen_eq_next.mp h
    cases ht
    exact .inr ⟨u, _, _, _, confined_of_dst (.inr henc) (dstWrite_keeps hu), rfl⟩

/-- Everything a running command's own step can do: it goes on with the command, nearer to its end, or it ends it; and
it writes in the command's write region only. -/
theorem coreStep_cases {s t : State} (hbusy : s.phase.isBusy = true) (hcourse : s.onCourse)
    (h : coreStep s = .next t) : Continues s t ∨ Ends s t := by
  unfold State.onCourse at hcourse
  cases hp : s.phase <;> simp only [coreStep, hp] at h hbusy hcourse
  case idle | done | fault => cases hbusy
  case check => exact checkStep_cases hp h
  case maskRun => exact maskStep_cases hp hcourse.1 hcourse.2 h
  case decRun => exact decodeStep_cases hp hcourse h
  case decCopy => exact copyStep_cases hp hcourse h
  case encRun => exact encodeStep_cases hp hcourse h

end Sys2Proof.Machine
end

/-! # What a running command leaves, and that it ends -/

section
namespace Sys2Proof.Machine

/-! ## From the two forms of a step -/

theorem Ends.not_busy {s t : State} (h : Ends s t) : t.busy = false := by
  obtain ⟨u, how, p, q, -, rfl⟩ := h
  obtain ⟨how', _, _, _, _, hend, -⟩ := conclude_eq_endCommand how p q u
  rw [hend]
  cases how' <;> rfl

theorem Ends.phase_isBusy {s t : State} (h : Ends s t) : t.phase.isBusy = false := by
  obtain ⟨u, how, p, q, -, rfl⟩ := h
  exact conclude_phase_isBusy how p q u

theorem Ends.inputs {s t : State} (h : Ends s t) : t.inputs = s.inputs := by
  obtain ⟨u, how, p, q, hu, rfl⟩ := h
  obtain ⟨_, _, _, _, _, hend, -⟩ := conclude_eq_endCommand how p q u
  rw [hend]
  exact hu.inputs

/-- The history's new entry and STATUS agree on how the command ended (R190). -/
theorem Ends.recorded {s t : State} (h : Ends s t) :
    ∃ how, t.history = .ended s.status.lastOp how t.srcPosReg t.dstPosReg :: s.history ∧
      t.status = { state := Ending.commandState how, cause := Ending.cause how, lastOp := s.status.lastOp } := by
  obtain ⟨u, how, p, q, hu, rfl⟩ := h
  obtain ⟨how', _, _, _, _, hend, -⟩ := conclude_eq_endCommand how p q u
  refine ⟨how', ?_, ?_⟩
  · rw [hend, endCommand_history, ← hu.frame.status, ← hu.history]
    rfl
  · rw [hend, endCommand_status, ← hu.frame.status]

theorem Ends.memory {s t : State} (h : Ends s t) (hclaim : s.claim = some (claimFor s.status.lastOp s)) {a : Nat}
    (ha : (claimFor s.status.lastOp s).writes.contains a = false) : t.mem.read a = s.mem.read a := by
  obtain ⟨u, how, p, q, hu, rfl⟩ := h
  obtain ⟨_, _, _, _, _, hend, hmem⟩ := conclude_eq_endCommand how p q u
  rw [hend, ← hu.memory a ha]
  exact hmem _ (hu.frame.claim.trans hclaim) a ha

theorem Continues.busy {s t : State} (h : Continues s t) (hbusy : s.busy = true) : t.busy = true := by
  rw [State.busy, h.frame.status]
  exact hbusy

theorem Confined.ordinary {s t : State} (h : Confined s t) :
    t.ordinary t.status.lastOp ↔ s.ordinary s.status.lastOp := by
  rw [State.ordinary, State.ordinary, h.frame.status, h.frame.claimFor, h.devices]

/-- The two forms of a BUSY core's own step, under the invariant. -/
theorem coreStep_cases_of_inv {s t : State} (h : Inv s) (hbusy : s.busy = true) (hstep : coreStep s = .next t) :
    Continues s t ∨ Ends s t :=
  coreStep_cases ((busy_iff_phase h).mp hbusy) (onCourse_of_inv h) hstep

/-! ## What the host's actions leave of an outcome -/

/-- The outcome that the host can read, and the phase (R189). -/
structure SameOutcome (s t : State) : Prop where
  status : t.status = s.status
  srcPosReg : t.srcPosReg = s.srcPosReg
  dstPosReg : t.dstPosReg = s.dstPosReg
  phase : t.phase = s.phase

theorem sameOutcome_writeReg (r : HostReg) (v : Word) (s : State) : SameOutcome s (writeReg r v s) := by
  unfold writeReg
  split_ifs
  · exact ⟨rfl, rfl, rfl, rfl⟩
  · cases r <;> exact ⟨rfl, rfl, rfl, rfl⟩

theorem sameOutcome_hostRegRead (off : BitVec 6) (s : State) : SameOutcome s (hostRegRead off s) := by
  unfold hostRegRead
  split_ifs <;> exact ⟨rfl, rfl, rfl, rfl⟩

theorem regAt_ne_cmd {off : BitVec 6} (h : off.toNat ≠ 0) (hword : off.toNat % 4 = 0) : regAt off ≠ .cmd := by
  unfold regAt
  split
  · omega
  all_goals exact fun e => nomatch e

/-- A host action leaves the outcome, unless it is a reset, the CMD write of a core that is not BUSY, or a store to a
lent byte after the command's end (R189, R220). -/
theorem sameOutcome_hostStep {i : Input} {s t : State} (h : hostStep i s = .next t) (hturn : i ≠ .turn)
    (hreset : i ≠ .reset) (hcmd : ∀ off v, i = .regWrite off .word v → s.busy = true ∨ off.toNat ≠ 0)
    (hstore : ∀ a v, i = .memWrite a v → s.busy = true ∨ s.guards a.toNat = false) : SameOutcome s t := by
  cases i with
  | turn => exact absurd rfl hturn
  | reset => exact absurd rfl hreset
  | regWrite off w v =>
    rw [hostStep] at h
    split_ifs at h with haligned
    simp only [alignedWord, Bool.and_eq_true, beq_iff_eq] at haligned
    obtain ⟨rfl, hword⟩ := haligned
    obtain hbusy | hoff := hcmd off v rfl
    · rw [hostRegWrite_of_busy hbusy] at h
      cases h
      exact ⟨rfl, rfl, rfl, rfl⟩
    · unfold hostRegWrite at h
      split at h
      · exact absurd ‹_› (regAt_ne_cmd hoff hword)
      · cases h
        exact sameOutcome_writeReg _ v s
  | regRead off w =>
    rw [hostStep] at h
    split_ifs at h
    cases h
    exact sameOutcome_hostRegRead off s
  | memWrite a v =>
    rw [hostStep, hostMemWrite] at h
    split_ifs at h
    cases h
    unfold noteHostWrite violate
    split_ifs with hguards hbusy
    · exact ⟨rfl, rfl, rfl, rfl⟩
    · have hfree := (hstore a v rfl).resolve_left hbusy
      exact absurd (hfree.symm.trans hguards) Bool.false_ne_true
    · exact ⟨rfl, rfl, rfl, rfl⟩
  | memRead a =>
    rw [hostStep, hostMemRead] at h
    split_ifs at h <;> cases h <;> exact ⟨rfl, rfl, rfl, rfl⟩

/-! ## Along a run -/

/-- What every step keeps, a run keeps. -/
theorem Reaches.keeps {P : State → Prop} (hkeep : ∀ s t, P s → Machine.step s = .next t → P t) {s t : State}
    (h : Reaches s t) (hs : P s) : P t := by
  obtain ⟨n, hn⟩ := h
  induction n generalizing s with
  | zero => cases hn; exact hs
  | succ n ih =>
    obtain ⟨u, hu, hn⟩ := run_succ_eq_next hn
    exact ih (hkeep s u hs hu) hn

/-- A core left alone, whose command, while it runs, writes `r` only; outside `r` memory is still `m`. -/
structure WritesOnly (r : Region) (m : Memory) (s : State) : Prop where
  inputs : s.inputs = []
  onCourse : s.onCourse
  claim : s.phase.isBusy = true → s.claim = some (claimFor s.status.lastOp s)
  region : s.phase.isBusy = true → (claimFor s.status.lastOp s).writes = r
  kept : ∀ a, r.contains a = false → s.mem.read a = m.read a

theorem WritesOnly.step {r : Region} {m : Memory} {s t : State} (h : WritesOnly r m s) (hstep : step s = .next t) :
    WritesOnly r m t := by
  rw [step_of_no_inputs h.inputs] at hstep
  cases hbusy : s.phase.isBusy with
  | false =>
    rw [coreStep_of_rest hbusy] at hstep
    cases hstep
    exact h
  | true =>
    have hclaim := h.claim hbusy
    have hregion := h.region hbusy
    obtain ht | ht := coreStep_cases hbusy h.onCourse hstep
    · have hlent : claimFor t.status.lastOp t = claimFor s.status.lastOp s := by
        rw [ht.frame.claimFor, ht.frame.status]
      exact {
        inputs := ht.inputs.trans h.inputs
        onCourse := ht.onCourse
        claim := fun _ => by rw [ht.frame.claim, hlent, hclaim]
        region := fun _ => by rw [hlent, hregion]
        kept := fun a ha => (ht.memory a (by rw [hregion, ha])).trans (h.kept a ha) }
    · have hrest := ht.phase_isBusy
      exact {
        inputs := ht.inputs.trans h.inputs
        onCourse := by
          unfold State.onCourse
          cases hp : t.phase <;> rw [hp] at hrest
          case idle | done | fault => trivial
          all_goals cases hrest
        claim := fun h => absurd (hrest.symm.trans h) Bool.false_ne_true
        region := fun h => absurd (hrest.symm.trans h) Bool.false_ne_true
        kept := fun a ha => (ht.memory hclaim (by rw [hregion, ha])).trans (h.kept a ha) }

theorem WritesOnly.of_reaches {r : Region} {m : Memory} {s t : State} (hs : WritesOnly r m s) (h : Reaches s t) :
    WritesOnly r m t :=
  h.keeps (fun _ _ => WritesOnly.step) hs

/-- A CMD write lends the command the region that it then writes only (R28, R220). -/
theorem writesOnly_startCommand {s : State} (hin : s.inputs = []) (hbusy : s.busy = false) (op : Byte) :
    WritesOnly (claimFor op s).writes s.mem (startCommand op s) := by
  rw [startCommand_of_not_busy hbusy]
  exact ⟨hin, trivial, fun _ => rfl, fun _ => rfl, fun _ _ => rfl⟩

/-- Left alone on ordinary memory, a BUSY core comes to rest (R227). -/
theorem reaches_rest {s : State} (h : Inv s) (hin : s.inputs = []) (hbusy : s.busy = true)
    (hord : s.ordinary s.status.lastOp) : ∃ t, Reaches s t ∧ t.busy = false := by
  induction hwork : s.work using Nat.strong_induction_on generalizing s with
  | _ n ih =>
    have hdevice : ¬ s.overDevice = true := by rw [overDevice_eq_false_iff.mpr hord]; exact Bool.false_ne_true
    obtain ⟨t, hnext, ht⟩ := (coreStep_goes_on h).resolve_left fun hrefused => hdevice hrefused.1
    have hstep : step s = .next t := (step_of_no_inputs hin).trans hnext
    obtain hcont | hend := coreStep_cases_of_inv h hbusy hnext
    · obtain ⟨u, hreach, hu⟩ := ih t.work (hwork ▸ hcont.shorter) ht (hcont.inputs.trans hin) (hcont.busy hbusy)
        (hcont.ordinary.mpr hord) rfl
      exact ⟨u, .step hstep hreach, hu⟩
    · exact ⟨t, .step hstep (.refl t), hend.not_busy⟩

/-! ## The statements -/

/-- Settles O49: a BUSY core's step has one of two forms (`coreStep_cases`), and both leave the bytes outside the
command's write region. -/
theorem writesStayInRegion : Obligations.WritesStayInRegion := by
  intro s t a h hin hstep hchanged
  rw [step_of_no_inputs hin] at hstep
  cases hbusy : s.busy with
  | false =>
    rw [coreStep_of_not_busy h hbusy] at hstep
    cases hstep
    exact absurd rfl hchanged
  | true =>
    refine ⟨rfl, ?_⟩
    rw [← Bool.not_eq_false]
    intro hout
    obtain ht | ht := coreStep_cases_of_inv h hbusy hstep
    · exact hchanged (ht.memory a hout)
    · exact hchanged (ht.memory (h.claimHeld hbusy) hout)

/-- Settles O58: each step leaves less of the command to do (`Continues.shorter`), so it comes to rest
(`reaches_rest`). -/
theorem everyCommandEnds : Obligations.EveryCommandEnds :=
  fun _ h hin hbusy hord => reaches_rest h hin hbusy hord

/-- Settles O50: only CORE's own step ends a command, and it does so by `conclude`, which records the outcome
(`Ends.recorded`). -/
theorem outcomeIsRecorded : Obligations.OutcomeIsRecorded := by
  intro s t h hbusy hreset hstep hrest
  have hmove : ∀ u, Inv u → u.busy = true → coreStep u = .next t → Ends u t := fun u hu hub hcore =>
    (coreStep_cases_of_inv hu hub hcore).resolve_left fun hcont =>
      absurd ((hcont.busy hub).symm.trans hrest) Bool.noConfusion
  cases hin : s.inputs with
  | nil =>
    rw [step_of_no_inputs hin] at hstep
    exact (hmove s h hbusy hstep).recorded
  | cons i rest =>
    rw [step_of_input hin] at hstep
    by_cases hturn : i = .turn
    · subst hturn
      exact (hmove _ (inv_withInputs h rest) hbusy hstep).recorded
    · have hsame := sameOutcome_hostStep hstep hturn (fun e => hreset rest (e ▸ hin)) (fun _ _ _ => .inl hbusy)
        (fun _ _ _ => .inl hbusy)
      rw [State.busy, hsame.status] at hrest
      exact absurd (hbusy.symm.trans hrest) Bool.noConfusion

/-- Settles O17: a core at rest does nothing by itself, and the host actions that are left change no outcome
(`sameOutcome_hostStep`). -/
theorem faultRecordStays : Obligations.FaultRecordStays := by
  intro s t h hbusy hstep hcmd hreset hstore
  cases hin : s.inputs with
  | nil =>
    rw [step_of_no_inputs hin, coreStep_of_not_busy h hbusy] at hstep
    cases hstep
    exact ⟨rfl, rfl, rfl, rfl⟩
  | cons i rest =>
    rw [step_of_input hin] at hstep
    by_cases hturn : i = .turn
    · subst hturn
      rw [hostStep, coreStep_of_not_busy (inv_withInputs h rest) hbusy] at hstep
      cases hstep
      exact ⟨rfl, rfl, rfl, rfl⟩
    · obtain ⟨hstatus, hsrc, hdst, hphase⟩ := sameOutcome_hostStep hstep hturn (fun e => hreset rest (e ▸ hin))
        (fun off v e => .inr (hcmd off v rest (e ▸ hin))) (fun a v e => .inr (hstore a v rest (e ▸ hin)))
      exact ⟨hstatus, hsrc, hdst, hphase⟩

/-- Settles O54: DECOMPRESS gives what the tokens stand for (`reaches_decompressed`), and its steps write DST only
(`WritesOnly.of_reaches`). -/
theorem decompressExpandsTokens : Obligations.DecompressExpandsTokens := by
  intro s header ts out hin hbusy hm hord hheader hts hexpand hsrcLen hdstLen hsrc hdst hov hholds
  obtain ⟨u, hreach, hstatus, hsrcPos, hdstPos, houtput⟩ := reaches_decompressed hin hbusy hm hord hheader hts hexpand
    hsrcLen hdstLen hsrc hdst hov hholds
  have honly := (writesOnly_startCommand hin hbusy opDecompress).of_reaches hreach
  refine ⟨_, u, rfl, hreach, hstatus, hsrcPos, hdstPos, houtput, fun a ha => honly.kept a ?_⟩
  rw [← Bool.not_eq_true, Region.contains_iff]
  exact ha

/-- Settles O56: COMPRESS writes the assembled stream of tokens that stand for the input (`reaches_compressed`), and no
stream of such tokens is longer than the bound (`TokensFor.length_assemble_le`). -/
theorem compressConforms : Obligations.CompressConforms := by
  intro s input hin hbusy hm hord hsrc hdst hroom hov hsize hsource
  have hjob := compressJob_startCommand hbusy hm hsrc hdst hroom hov hsize hsource
  have hstart := startCommand_of_not_busy hbusy opCompress
  obtain ⟨u, tokens, hreach, hdone⟩ := reaches_compressed hjob (by rw [hstart]; exact hin) (by rw [hstart])
    (by rw [hstart]; exact hord)
  refine ⟨_, u, assemble s.headerBytes tokens, rfl, hreach, ?_⟩
  rw [hstart] at hdone
  exact ⟨hdone.status, hdone.consumed, hdone.produced,
    hsize ▸ hdone.tokensFor.length_assemble_le le_rfl rfl, hdone.conforming, hdone.output, hdone.kept⟩

end Sys2Proof.Machine
end

/-! # The token instructions and the copy (41_decoder.md) -/

section
namespace Sys2Proof.Machine

/-! ## The start of a reference, and one round of its copy (R124, R127) -/

theorem execRef_of_valid {s : State} {d : Nat} (l : Nat) (hlt : s.srcPos.toNat + 2 ≤ s.srcLen.toNat) (hd : 1 ≤ d)
    (hdist : d ≤ s.dstPos.toNat) : execRef d l s = .next (beginCopy d l (consumeDescriptor s)) := by
  rw [execRef, if_neg (Nat.not_lt.mpr hlt), if_neg (Nat.ne_zero_of_lt hd), if_neg (Nat.not_lt.mpr hdist)]

theorem toNat_beginCopy_copyFrom (d l : Nat) (s : State) : (beginCopy d l s).copyFrom.toNat = s.dstPos.toNat - d := by
  have hpos := s.dstPos.isLt
  rw [beginCopy_copyFrom, BitVec.toNat_ofNat]
  omega

theorem toNat_beginCopy_copyLeft {d l : Nat} (hwf : (Instr.ref d l).wf = true) (s : State) :
    (beginCopy d l s).copyLeft.toNat = l := by
  obtain ⟨-, -, hmax⟩ := wf_ref.mp hwf
  rw [beginCopy_copyLeft, BitVec.toNat_ofNat, Nat.mod_eq_of_lt (by omega)]

/-- With nothing left, or DST full, the copy is over (R127). -/
theorem copyStep_of_over {s : State} (h : s.copyLeft.toNat = 0 ∨ s.dstLen.toNat ≤ s.dstPos.toNat) :
    copyStep s = .next (copyEnd s) := by
  have hover : ¬ (0 < s.copyLeft.toNat && s.dstPos.toNat < s.dstLen.toNat) = true := by
    rw [Bool.and_eq_true, decide_eq_true_eq, decide_eq_true_eq]
    omega
  exact if_neg hover

/-! ## `k` rounds of a copy (R127, R134) -/

/-- `k` bytes of the copy that began in `s₀`, from `d` bytes back, have been written. -/
structure CopiedFor (s₀ : State) (d k : Nat) (s : State) : Prop where
  frame : s = { s₀ with mem := s.mem, copyFrom := s.copyFrom, dstPos := s.dstPos, copyLeft := s.copyLeft }
  place : s.dstPos.toNat = s₀.dstPos.toNat + k
  source : s.copyFrom.toNat + d = s.dstPos.toNat
  left : s.copyLeft.toNat + k = s₀.copyLeft.toNat
  memory : s.mem.wf = true
  copied : ∀ j < k, s.mem.read (s₀.dstBase.toNat + s₀.dstPos.toNat + j) =
    s₀.mem.read (s₀.dstBase.toNat + (s₀.dstPos.toNat - d) + j % d)
  kept : ∀ a, ¬ (s₀.dstBase.toNat + s₀.dstPos.toNat ≤ a ∧ a < s₀.dstBase.toNat + s₀.dstPos.toNat + k) →
    s.mem.read a = s₀.mem.read a

/-- The overlap law's one step: the byte `d` back is one of the `d` before the copy, at `k mod d` (R134). -/
theorem CopiedFor.read_source {s₀ s : State} {d k : Nat} (h : CopiedFor s₀ d k s) (hd : 1 ≤ d)
    (hdist : d ≤ s₀.dstPos.toNat) :
    s.mem.read (s₀.dstBase.toNat + s.copyFrom.toNat) =
      s₀.mem.read (s₀.dstBase.toNat + (s₀.dstPos.toNat - d) + k % d) := by
  have hplace := h.place
  have hsource := h.source
  by_cases hk : k < d
  · rw [h.kept _ (by omega), Nat.mod_eq_of_lt hk]
    congr 1
    omega
  · have hearlier := h.copied (k - d) (by omega)
    rw [← Nat.mod_eq_sub_mod (Nat.not_lt.mp hk)] at hearlier
    rw [← hearlier]
    congr 1
    omega

theorem CopiedFor.step {s₀ s : State} {d k : Nat} (h : CopiedFor s₀ d k s) (hin : s₀.inputs = [])
    (hp : s₀.phase = .decCopy) (hd : 1 ≤ d) (hdist : d ≤ s₀.dstPos.toNat)
    (hw : s₀.dstBase.toNat + s₀.dstLen.toNat ≤ addrSpace) (hleft : k < s₀.copyLeft.toNat)
    (hroom : s₀.dstPos.toNat + k < s₀.dstLen.toNat) :
    step s = .next (byteCopied s) ∧ CopiedFor s₀ d (k + 1) (byteCopied s) := by
  have hplace := h.place
  have hsource := h.source
  have hrest := h.left
  have hframe := h.frame
  have hinputs : s.inputs = [] := by rw [hframe]; exact hin
  have hphase : s.phase = .decCopy := by rw [hframe]; exact hp
  have hbase : s.dstBase = s₀.dstBase := by rw [hframe]
  have hlen : s.dstLen = s₀.dstLen := by rw [hframe]
  have hdst : s.dstPos.toNat < s.dstLen.toNat := by rw [hlen]; omega
  have hread := h.read_source hd hdist
  have hmem : (byteCopied s).mem = s.mem.write (s₀.dstBase.toNat + s₀.dstPos.toNat + k)
      (s₀.mem.read (s₀.dstBase.toNat + (s₀.dstPos.toNat - d) + k % d)) := by
    rw [← hread, ← hbase, Nat.add_assoc, ← hplace]
    rfl
  refine ⟨by rw [step_of_decCopy hinputs hphase, copyStep_of_lt (by omega) hdst (by omega) (by rwa [hbase, hlen])], ?_⟩
  exact {
    frame := by rw [byteCopied, hframe]; rfl
    place := by
      show (s.dstPos + 1).toNat = _
      rw [toNat_add_one_of_lt hdst, hplace, Nat.add_assoc]
    source := by
      show (s.copyFrom + 1).toNat + d = (s.dstPos + 1).toNat
      rw [toNat_add_one_of_lt hdst, toNat_add_one_of_lt (y := s.dstLen) (by omega)]
      omega
    left := by
      show (s.copyLeft - 1).toNat + (k + 1) = _
      rw [BitVec.toNat_sub_of_le (by rw [BitVec.le_def]; exact Nat.succ_le_of_lt (by omega))]
      show s.copyLeft.toNat - 1 + (k + 1) = _
      omega
    memory := by rw [hmem]; exact Memory.wf_write h.memory (by omega) _
    copied := fun j hj => by
      rw [hmem, Memory.read_write h.memory]
      split_ifs with hlast
      · rw [Nat.add_left_cancel hlast]
      · exact h.copied j (by omega)
    kept := fun a ha => by
      rw [hmem, Memory.read_write_ne (by omega)]
      exact h.kept a (by omega) }

theorem CopiedFor.run {s₀ : State} {d n : Nat} (hm : s₀.mem.wf = true) (hin : s₀.inputs = [])
    (hp : s₀.phase = .decCopy) (hd : 1 ≤ d) (hfrom : s₀.copyFrom.toNat + d = s₀.dstPos.toNat)
    (hw : s₀.dstBase.toNat + s₀.dstLen.toNat ≤ addrSpace) (hleft : n ≤ s₀.copyLeft.toNat)
    (hroom : s₀.dstPos.toNat + n ≤ s₀.dstLen.toNat) :
    ∃ u : State, Host.Core.run Sys2Proof.core n s₀ = .next u ∧ CopiedFor s₀ d n u := by
  induction n with
  | zero =>
    exact ⟨s₀, rfl, rfl, rfl, hfrom, rfl, hm, fun j hj => absurd hj (Nat.not_lt_zero j), fun _ _ => rfl⟩
  | succ n ih =>
    obtain ⟨u, hrun, hu⟩ := ih (by omega) (by omega)
    obtain ⟨hstep, hnext⟩ := hu.step hin hp hd (by omega) hw (by omega) (by omega)
    exact ⟨_, by rw [run_add 1 hrun, run_succ hstep]; rfl, hnext⟩

/-! ## What a fault of a token changes (R128, R185) -/

/-- The end of a command with CorruptData, raised by a token (R185). -/
def tokenFault (r : CorruptReason) (s : State) : State :=
  endCommand (.fault (.corruptData r)) s.tokStart s.dstPos s

theorem execLit_of_truncated {s : State} (b : Byte) (h : s.srcLen.toNat ≤ s.srcPos.toNat) (ht : s.tainted = false) :
    execLit b s = .next (tokenFault .truncatedToken s) := by
  rw [execLit, if_pos h, raiseCorrupt_of_untainted ht, tokenFault]

/-- A reference's three faults in their order, and its start (R184). -/
theorem execRef_of_untainted {s : State} (ht : s.tainted = false) (d l : Nat) :
    execRef d l s =
      if s.srcLen.toNat < s.srcPos.toNat + 2 then .next (tokenFault .truncatedToken s)
      else if d = 0 then .next (tokenFault .zeroDistance (consumeDescriptor s))
      else if s.dstPos.toNat < d then .next (tokenFault .distanceBeyondOutput (consumeDescriptor s))
      else .next (beginCopy d l (consumeDescriptor s)) := by
  have ht' : (consumeDescriptor s).tainted = false := ht
  rw [execRef, raiseCorrupt_of_untainted ht, raiseCorrupt_of_untainted ht', raiseCorrupt_of_untainted ht']
  rfl

/-! ## The statements -/

/-- Settles O53: the copy's rounds keep `CopiedFor`, whose one step is the overlap law (`CopiedFor.read_source`), and
the round after the last ends it. -/
theorem referenceCopies : Obligations.ReferenceCopies := by
  intro d l n s hwf hin hm hlt hw hd hdist hroom hn
  have hleft := toNat_beginCopy_copyLeft hwf (consumeDescriptor s)
  have hfrom := toNat_beginCopy_copyFrom d l (consumeDescriptor s)
  rw [consumeDescriptor_dstPos] at hfrom
  obtain ⟨u, hrun, hu⟩ := CopiedFor.run (s₀ := beginCopy d l (consumeDescriptor s)) (n := n) hm hin rfl hd
    (by rw [hfrom]; exact Nat.sub_add_cancel hdist) hw (by omega) (by show s.dstPos.toNat + n ≤ s.dstLen.toNat; omega)
  have hplace : u.dstPos.toNat = s.dstPos.toNat + n := hu.place
  have hrest := hu.left
  have hframe := hu.frame
  have hinputs : u.inputs = [] := by rw [hframe]; exact hin
  have hphase : u.phase = .decCopy := by rw [hframe]; rfl
  have hlen : u.dstLen = s.dstLen := by rw [hframe]; rfl
  have hsrcPos : u.srcPos = s.srcPos + 2 := by rw [hframe]; rfl
  have hbit : u.bit = s.bit := by rw [hframe]; rfl
  have hflag : u.flag = s.flag := by rw [hframe]; rfl
  have hstatus : u.status = s.status := by rw [hframe]; rfl
  have hover : u.copyLeft.toNat = 0 ∨ u.dstLen.toNat ≤ u.dstPos.toNat := by rw [hlen]; omega
  have hend : step u = .next (copyEnd u) := by rw [step_of_decCopy hinputs hphase, copyStep_of_over hover]
  refine ⟨_, copyEnd u, execRef_of_valid l hlt hd hdist, by rw [run_add 1 hrun, run_succ hend]; rfl, rfl, hplace,
    hsrcPos, by rw [copyEnd_bit, hbit], hflag, hstatus, hu.copied, hu.kept⟩

/-- Settles O36: the two forms of a round are `copyStep_of_lt` and `copyStep_of_over`. -/
theorem copyByteStep : Obligations.CopyByteStep := by
  intro s hin hp hw hfrom
  rw [step_of_decCopy hin hp]
  exact ⟨fun hleft hroom => copyStep_of_lt (Nat.pos_of_ne_zero hleft) hroom (hfrom.trans hroom) hw, copyStep_of_over⟩

/-- Settles O23: FLAGS has one form. -/
theorem flagsEffect : Obligations.FlagsEffect := fun _ _ => rfl

/-- Settles O24: it is `execLit_of_lt`. -/
theorem literalEffect : Obligations.LiteralEffect := fun b _ hlt hroom hw => execLit_of_lt b hlt hroom hw

/-- Settles O25: it is `execLit_of_truncated`. -/
theorem literalTruncated : Obligations.LiteralTruncated := fun b _ hlt ht => execLit_of_truncated b hlt ht

/-- Settles O26: a reference that passes R184's checks starts its copy (`execRef_of_valid`). -/
theorem referenceEffect : Obligations.ReferenceEffect := by
  intro d l s hwf hlt hd hdist
  exact ⟨_, execRef_of_valid l hlt hd hdist, rfl, toNat_beginCopy_copyFrom d l _, toNat_beginCopy_copyLeft hwf _⟩

/-- Settles O27: the first of R184's checks that fails is raised (`execRef_of_untainted`). -/
theorem referenceFaults : Obligations.ReferenceFaults := by
  intro d l s ht hfault
  rw [exec, execRef_of_untainted ht]
  split_ifs with hshort hzero hfar
  · exact ⟨_, _, rfl, rfl, rfl, rfl, rfl, rfl, rfl⟩
  · exact ⟨_, _, rfl, rfl, rfl, rfl, rfl, rfl, rfl⟩
  · exact ⟨_, _, rfl, rfl, rfl, rfl, rfl, rfl, rfl⟩
  · exact absurd hfault (not_or.mpr ⟨hshort, not_or.mpr ⟨hzero, hfar⟩⟩)

end Sys2Proof.Machine
end

/-! # The steps of the token loop, and what they do not depend on (41_decoder.md) -/

section
namespace Sys2Proof.Machine

/-! ## Which step is next (R121) -/

theorem tokenDue_iff {s : State} : s.tokenDue = true ↔ s.bit = 1 ∧ s.srcPos ≠ 9 := by
  rw [State.tokenDue, Bool.and_eq_true, beq_iff_eq, bne_iff_ne]

/-- The iteration's guard holds, or its flag byte was just fetched (R121). -/
theorem decodeStep_of_tokenTurn {s : State} (hpos : s.srcPos ≠ 8) (hbit : s.bit ≠ 256)
    (hturn : s.srcPos.toNat < s.srcLen.toNat ∧ s.dstPos.toNat < s.dstLen.toNat ∨ s.bit = 1 ∧ s.srcPos ≠ 9) :
    decodeStep s = tokenStep s := by
  obtain hguard | hdue := hturn
  · exact decodeStep_of_token hpos hbit (loopGuard_iff.mpr hguard)
  · rw [decodeStep, if_neg hpos, if_pos (tokenDue_iff.mpr hdue)]

theorem decodeStep_of_over {s : State} (hpos : s.srcPos ≠ 8) (hdue : ¬ (s.bit = 1 ∧ s.srcPos ≠ 9))
    (hover : s.srcLen.toNat ≤ s.srcPos.toNat ∨ s.dstLen.toNat ≤ s.dstPos.toNat) :
    decodeStep s = .next (decompressFinish s) := by
  have hguard : ¬ s.loopGuard = true := by rw [loopGuard_iff]; omega
  rw [decodeStep, if_neg hpos, if_neg (mt tokenDue_iff.mp hdue), if_neg hguard]

theorem tokenContext_eq (s : State) :
    tokenContext s = if s.flag.setWidth 9 &&& s.bit = 0 then .reference else .literal := by
  by_cases hflag : s.flag.setWidth 9 &&& s.bit = 0
  · rw [tokenContext, State.selectsLiteral, hflag, if_pos rfl]
    rfl
  · rw [tokenContext, State.selectsLiteral, if_pos (bne_iff_ne.mpr hflag), if_neg hflag]

/-! ## The fetch of a token (R88, R89) -/

theorem fetch_of_decode {s : State} {c : DecodeContext} {i : Instr} (hlt : s.srcPos.toNat + c.size ≤ s.srcLen.toNat)
    (hw : s.srcBase.toNat + s.srcLen.toNat ≤ addrSpace)
    (hi : decode c ((List.range c.size).map fun k => s.mem.read (s.srcBase.toNat + s.srcPos.toNat + k)) = .ok (i, [])) :
    fetch c s = .ok (.ok i) := by
  rw [fetch, if_neg (Nat.not_lt.mpr hlt), srcReads_ok hlt hw]
  simp only [hi]

theorem fetch_of_truncated {s : State} {c : DecodeContext} (h : s.srcLen.toNat < s.srcPos.toNat + c.size) :
    fetch c s = .ok (.error .truncated) := if_pos h

/-! ## What a token instruction leaves unchanged -/

/-- The conclusion of `Obligations.TokenFrame`. -/
def KeepsTokenFrame (i : Instr) (s t : State) : Prop :=
  (t.srcBase = s.srcBase ∧ t.srcLen = s.srcLen ∧ t.dstBase = s.dstBase ∧ t.dstLen = s.dstLen ∧
    t.offset = s.offset ∧ t.hdrLo = s.hdrLo ∧ t.hdrHi = s.hdrHi ∧ t.status.lastOp = s.status.lastOp) ∧
  (t.keyIdx = s.keyIdx ∧ t.tokStart = s.tokStart ∧ t.flagPos = s.flagPos ∧ t.inputs = s.inputs ∧
    t.draws = s.draws ∧ t.stream = s.stream ∧ t.claim = s.claim ∧ t.devices = s.devices ∧ t.tainted = false) ∧
  (i.isToken = true → t.flag = s.flag ∧ t.bit = s.bit) ∧
  ((∀ d l, i ≠ .ref d l) → t.copyFrom = s.copyFrom ∧ t.copyLeft = s.copyLeft) ∧
  ((∀ b, i ≠ .lit b) → t.dstPos = s.dstPos) ∧
  (t.phase ≠ .fault → t.status = s.status ∧ t.srcPosReg = s.srcPosReg ∧ t.dstPosReg = s.dstPosReg ∧
    t.history = s.history) ∧
  (∀ a : Nat, ((∃ b, i = .lit b) → bufferAddr s.dstRegion s.dstPos.toNat ≠ .ok a) → t.mem.read a = s.mem.read a)

/-- A token's fault, before or after its bytes are consumed, changes the outcome only. -/
theorem keepsTokenFrame_tokenFault (i : Instr) {s : State} (ht : s.tainted = false) (r : CorruptReason) (p : Word) :
    KeepsTokenFrame i s (tokenFault r { s with srcPos := p }) :=
  ⟨⟨rfl, rfl, rfl, rfl, rfl, rfl, rfl, rfl⟩, ⟨rfl, rfl, rfl, rfl, rfl, rfl, rfl, rfl, ht⟩, fun _ => ⟨rfl, rfl⟩,
    fun _ => ⟨rfl, rfl⟩, fun _ => rfl, fun h => absurd rfl h, fun _ _ => rfl⟩

theorem keepsTokenFrame_flags (f : Byte) {s : State} (ht : s.tainted = false) :
    KeepsTokenFrame (.flags f) s { s with bit := 1, flag := f, srcPos := s.srcPos + 1 } :=
  ⟨⟨rfl, rfl, rfl, rfl, rfl, rfl, rfl, rfl⟩, ⟨rfl, rfl, rfl, rfl, rfl, rfl, rfl, rfl, ht⟩,
    fun h => absurd h Bool.false_ne_true, fun _ => ⟨rfl, rfl⟩, fun _ => rfl, fun _ => ⟨rfl, rfl, rfl, rfl⟩,
    fun _ _ => rfl⟩

/-- A literal stores to the address of DST offset `dst_pos`. -/
theorem keepsTokenFrame_literal (b : Byte) {s : State} (ht : s.tainted = false) {x : Nat}
    (hx : bufferAddr s.dstRegion s.dstPos.toNat = .ok x) :
    KeepsTokenFrame (.lit b) s (literalAdvance (storeByte x b s)) := by
  refine ⟨⟨rfl, rfl, rfl, rfl, rfl, rfl, rfl, rfl⟩, ⟨rfl, rfl, rfl, rfl, rfl, rfl, rfl, rfl, ht⟩, fun _ => ⟨rfl, rfl⟩,
    fun _ => ⟨rfl, rfl⟩, fun h => absurd rfl (h b), fun _ => ⟨rfl, rfl, rfl, rfl⟩, fun a ha => ?_⟩
  refine Memory.read_write_ne (fun e => ha ⟨b, rfl⟩ ?_) b
  rw [hx, e]

theorem keepsTokenFrame_copyBegun (d l : Nat) {s : State} (ht : s.tainted = false) :
    KeepsTokenFrame (.ref d l) s (beginCopy d l (consumeDescriptor s)) :=
  ⟨⟨rfl, rfl, rfl, rfl, rfl, rfl, rfl, rfl⟩, ⟨rfl, rfl, rfl, rfl, rfl, rfl, rfl, rfl, ht⟩, fun _ => ⟨rfl, rfl⟩,
    fun h => absurd rfl (h d l), fun _ => rfl, fun _ => ⟨rfl, rfl, rfl, rfl⟩, fun _ _ => rfl⟩

/-! ## States that differ in what the decoder does not read (R130) -/

/-- The state with other values in OFFSET, HDR_LO, HDR_HI and memory. -/
def withHeader (o h h' : Word) (m : Memory) (s : State) : State :=
  { s with offset := o, hdrLo := h, hdrHi := h', mem := m }

/-- The memories agree but for the eight bytes at `base`. -/
def AgreeOffHeader (base : Nat) (m m' : Memory) : Prop := ∀ a, ¬ (base ≤ a ∧ a < base + 8) → m'.read a = m.read a

/-- The second result goes on where the first does, and differs only in what the decoder does not read. -/
def HeaderBlind (o h h' : Word) (base : Nat) (r r' : Result) : Prop :=
  ∀ t, r = .next t → ∃ m, r' = .next (withHeader o h h' m t) ∧ AgreeOffHeader base t.mem m

section
variable {o h h' : Word} {base : Nat} {m : Memory} {s : State}

theorem headerBlind_next (hm : AgreeOffHeader base s.mem m) :
    HeaderBlind o h h' base (.next s) (.next (withHeader o h h' m s)) := by
  rintro t ⟨⟩
  exact ⟨m, rfl, hm⟩

theorem HeaderBlind.ite {c : Prop} [Decidable c] {r₁ r₁' r₂ r₂' : Result} (h₁ : c → HeaderBlind o h h' base r₁ r₁')
    (h₂ : ¬ c → HeaderBlind o h h' base r₂ r₂') :
    HeaderBlind o h h' base (if c then r₁ else r₂) (if c then r₁' else r₂') := by
  split_ifs with hc
  · exact h₁ hc
  · exact h₂ hc

theorem HeaderBlind.andThen {r r' : Result} {f : State → Result} (hr : HeaderBlind o h h' base r r')
    (hf : ∀ t m, r = .next t → AgreeOffHeader base t.mem m →
      HeaderBlind o h h' base (f t) (f (withHeader o h h' m t))) :
    HeaderBlind o h h' base (andThen r f) (andThen r' f) := by
  intro u hu
  obtain ⟨t, rfl, ht⟩ := andThen_eq_next.mp hu
  obtain ⟨m, rfl, hm⟩ := hr t rfl
  exact hf t m rfl hm u ht

theorem HeaderBlind.withValue {α : Type} {v v' : Except Fault α} {f f' : α → Result} (hv : v' = v)
    (hf : ∀ a, v = .ok a → HeaderBlind o h h' base (f a) (f' a)) :
    HeaderBlind o h h' base (withValue v f) (withValue v' f') := by
  intro u hu
  obtain ⟨a, rfl, ha⟩ := withValue_eq_next.mp hu
  rw [hv]
  exact hf a rfl u ha

/-- A store to DST writes the same byte over both memories. -/
theorem headerBlind_dstWrite (hs : s.mem.wf = true) (hwf : m.wf = true) (hm : AgreeOffHeader base s.mem m) (j : Nat)
    (v : Byte) : HeaderBlind o h h' base (dstWrite j v s) (dstWrite j v (withHeader o h h' m s)) := by
  refine .withValue rfl fun x _ => ?_
  have hagree : AgreeOffHeader base (storeByte x v s).mem (m.write x v) := fun a ha => by
    rw [storeByte_mem, Memory.read_write hwf, Memory.read_write hs, hm a ha]
  exact headerBlind_next hagree

theorem headerBlind_tokenFault (ht : s.tainted = false) (r : CorruptReason) (hm : AgreeOffHeader base s.mem m) :
    HeaderBlind o h h' base (.next (raiseCorrupt r s)) (.next (raiseCorrupt r (withHeader o h h' m s))) := by
  have ht' : (withHeader o h h' m s).tainted = false := ht
  rw [raiseCorrupt_of_untainted ht, raiseCorrupt_of_untainted ht']
  exact headerBlind_next (s := tokenFault r s) hm

/-! ## The reads (R130) -/

/-- Behind the header SRC reads the same. -/
theorem srcRead_withHeader (hm : AgreeOffHeader s.srcBase.toNat s.mem m) {i : Nat} (hi : 8 ≤ i) :
    srcRead (withHeader o h h' m s) i = srcRead s i := by
  have hregion : (withHeader o h h' m s).srcRegion = s.srcRegion := rfl
  unfold srcRead
  rw [hregion]
  cases haddr : bufferAddr s.srcRegion i with
  | error e => rfl
  | ok a =>
    obtain ⟨-, -, ha⟩ := bufferAddr_eq_ok.mp haddr
    have hbase : s.srcRegion.base = s.srcBase.toNat := rfl
    exact congrArg Except.ok (hm a (by omega))

theorem srcReads_withHeader (hm : AgreeOffHeader s.srcBase.toNat s.mem m) {i : Nat} (hi : 8 ≤ i) (n : Nat) :
    srcReads (withHeader o h h' m s) i n = srcReads s i n := by
  induction n generalizing i with
  | zero => rfl
  | succ n ih => rw [srcReads, srcReads, srcRead_withHeader hm hi, ih (Nat.le_succ_of_le hi)]

theorem fetch_withHeader (hm : AgreeOffHeader s.srcBase.toNat s.mem m) (hpos : 8 ≤ s.srcPos.toNat)
    (c : DecodeContext) : fetch c (withHeader o h h' m s) = fetch c s := by
  have hreads := srcReads_withHeader (o := o) (h := h) (h' := h') hm hpos c.size
  unfold fetch
  rw [← hreads]
  rfl

/-- DST reads the same: the header is in SRC, which DST does not overlap. -/
theorem dstRead_withHeader (hm : AgreeOffHeader s.srcBase.toNat s.mem m) (hlen : 9 ≤ s.srcLen.toNat)
    (hov : s.srcRegion.overlaps s.dstRegion = false) (j : Nat) :
    dstRead (withHeader o h h' m s) j = dstRead s j := by
  have hregion : (withHeader o h h' m s).dstRegion = s.dstRegion := rfl
  unfold dstRead
  rw [hregion]
  cases haddr : bufferAddr s.dstRegion j with
  | error e => rfl
  | ok a =>
    obtain ⟨hj, -, ha⟩ := bufferAddr_eq_ok.mp haddr
    refine congrArg Except.ok (hm a fun hin => ?_)
    have hinside : a - s.srcBase.toNat < s.srcRegion.len := by
      show _ < s.srcLen.toNat
      omega
    refine Region.ne_of_not_overlaps hov hinside hj ?_
    show s.srcBase.toNat + (a - s.srcBase.toNat) = _
    omega

/-! ## The steps (R130) -/

/-- A token instruction does not depend on what the decoder does not read. -/
theorem headerBlind_exec {i : Instr} (hi : i.context ≠ .command) (hs : s.mem.wf = true) (hwf : m.wf = true)
    (ht : s.tainted = false) (hm : AgreeOffHeader base s.mem m) :
    HeaderBlind o h h' base (exec i s) (exec i (withHeader o h h' m s)) := by
  cases i with
  | flags f => exact headerBlind_next (s := { s with bit := 1, flag := f, srcPos := s.srcPos + 1 }) hm
  | lit b =>
    refine .ite (fun _ => headerBlind_tokenFault ht _ hm) fun _ => ?_
    exact (headerBlind_dstWrite hs hwf hm _ b).andThen fun t m _ hm' => headerBlind_next (s := literalAdvance t) hm'
  | ref d l =>
    refine .ite (fun _ => headerBlind_tokenFault ht _ hm) fun _ => ?_
    refine .ite (fun _ => headerBlind_tokenFault (s := consumeDescriptor s) ht _ hm) fun _ => ?_
    refine .ite (fun _ => headerBlind_tokenFault (s := consumeDescriptor s) ht _ hm) fun _ => ?_
    exact headerBlind_next (s := beginCopy d l (consumeDescriptor s)) hm
  | mask => exact absurd rfl hi
  | decompress => exact absurd rfl hi
  | compress => exact absurd rfl hi

theorem headerBlind_endToken (t : State) (hm : AgreeOffHeader base t.mem m) :
    HeaderBlind o h h' base (.next (endToken t)) (.next (endToken (withHeader o h h' m t))) := by
  by_cases hp : t.phase = .decRun
  · rw [endToken_of_decRun hp, endToken_of_decRun (t := withHeader o h h' m t) hp]
    exact headerBlind_next (s := doubleBit t) hm
  · rw [endToken_of_not_decRun hp, endToken_of_not_decRun (t := withHeader o h h' m t) hp]
    exact headerBlind_next hm

variable (hs : s.mem.wf = true) (hwf : m.wf = true) (hm : AgreeOffHeader s.srcBase.toNat s.mem m)
include hs hwf hm

theorem headerBlind_copyStep (hlen : 9 ≤ s.srcLen.toNat) (hov : s.srcRegion.overlaps s.dstRegion = false) :
    HeaderBlind o h h' s.srcBase.toNat (copyStep s) (copyStep (withHeader o h h' m s)) := by
  refine .ite (fun _ => ?_) fun _ => headerBlind_next (s := copyEnd s) hm
  refine .withValue (dstRead_withHeader hm hlen hov _) fun b _ => ?_
  exact (headerBlind_dstWrite hs hwf hm _ b).andThen fun t m' _ hm' => headerBlind_next (s := copyAdvance t) hm'

variable (ht : s.tainted = false)
include ht

theorem headerBlind_flagsStep (hpos : 8 ≤ s.srcPos.toNat) :
    HeaderBlind o h h' s.srcBase.toNat (flagsStep s) (flagsStep (withHeader o h h' m s)) := by
  refine .withValue (fetch_withHeader hm hpos _) fun r hr => ?_
  cases r with
  | error e => exact fun t ht => nomatch ht
  | ok i =>
    obtain ⟨-, hplace⟩ := fetch_eq_ok hr
    exact headerBlind_exec (by rw [hplace]; decide) hs hwf ht hm

theorem headerBlind_tokenStep (hpos : 8 ≤ s.srcPos.toNat) :
    HeaderBlind o h h' s.srcBase.toNat (tokenStep s) (tokenStep (withHeader o h h' m s)) := by
  refine .withValue (fetch_withHeader hm hpos _) fun r hr => ?_
  cases r with
  | error e => exact headerBlind_tokenFault (s := beginToken s) ht _ hm
  | ok i =>
    obtain ⟨-, hplace⟩ := fetch_eq_ok hr
    have hexec := headerBlind_exec (o := o) (h := h) (h' := h') (s := beginToken s)
      (by rw [hplace]; exact (tokenContext_ne s).1) hs hwf ht hm
    exact hexec.andThen fun t m' _ hm' => headerBlind_endToken t hm'

theorem headerBlind_decodeStep (hpos : 8 ≤ s.srcPos.toNat) :
    HeaderBlind o h h' s.srcBase.toNat (decodeStep s) (decodeStep (withHeader o h h' m s)) := by
  refine .ite (fun _ => headerBlind_flagsStep hs hwf hm ht hpos) fun _ => ?_
  refine .ite (fun _ => headerBlind_tokenStep hs hwf hm ht hpos) fun _ => ?_
  refine .ite (fun _ => .ite (fun _ => headerBlind_flagsStep hs hwf hm ht hpos)
    fun _ => headerBlind_tokenStep hs hwf hm ht hpos) fun _ => ?_
  have hend : ∀ u : State, u.tainted = false → decompressFinish u = endCommand .done u.srcPos u.dstPos u :=
    fun u hu => conclude_of_untainted hu _ _ _
  rw [hend s ht, hend (withHeader o h h' m s) ht]
  exact headerBlind_next (s := endCommand .done s.srcPos s.dstPos s) hm

end

/-! ## The statements -/

/-- Settles O28: FLAGS, a literal's store, a reference's start and a token's fault each keep the frame. -/
theorem tokenFrame : Obligations.TokenFrame := by
  intro i s t hi ht hexec
  show KeepsTokenFrame i s t
  cases i with
  | flags f =>
    cases hexec
    exact keepsTokenFrame_flags f ht
  | lit b =>
    rw [exec, execLit, raiseCorrupt_of_untainted ht] at hexec
    split_ifs at hexec
    · cases hexec
      exact keepsTokenFrame_tokenFault _ ht _ s.srcPos
    · obtain ⟨u, hu, hnext⟩ := andThen_eq_next.mp hexec
      obtain ⟨x, hx, rfl⟩ := dstWrite_eq_next.mp hu
      cases hnext
      exact keepsTokenFrame_literal b ht hx
  | ref d l =>
    rw [exec, execRef_of_untainted ht] at hexec
    split_ifs at hexec <;> cases hexec
    · exact keepsTokenFrame_tokenFault _ ht _ s.srcPos
    · exact keepsTokenFrame_tokenFault _ ht _ (s.srcPos + 2)
    · exact keepsTokenFrame_tokenFault _ ht _ (s.srcPos + 2)
    · exact keepsTokenFrame_copyBegun d l ht
  | mask => exact absurd rfl hi
  | decompress => exact absurd rfl hi
  | compress => exact absurd rfl hi

/-- Settles O30: the step fetches the flag byte (`fetch_of_size_one`) and runs it. -/
theorem stepRunsFlagByte : Obligations.StepRunsFlagByte := by
  intro s i hin hp hturn hlt hw hi
  have hdue : s.srcPos = 8 ∨ s.bit = 256 ∧ s.loopGuard = true :=
    hturn.imp_right fun ⟨hbit, hroom⟩ => ⟨hbit, loopGuard_iff.mpr ⟨hlt, hroom⟩⟩
  rw [step_of_decRun hin hp, decodeStep_of_flagByte hdue, flagsStep, fetch_of_size_one rfl hlt hw hi]
  rfl

/-- Settles O31: the step fetches the token at the place its selector bit gives (`tokenContext_eq`) and runs it. -/
theorem stepRunsToken : Obligations.StepRunsToken := by
  intro s i c hin hp hpos hbit hturn hc hlt hw hi
  rw [step_of_decRun hin hp, decodeStep_of_tokenTurn hpos hbit hturn, tokenStep, tokenContext_eq, ← hc,
    fetch_of_decode hlt hw hi]
  rfl

/-- Settles O32: the fetch is truncated, and the fault is raised after `tok_start <- src_pos`. -/
theorem truncatedTokenStep : Obligations.TruncatedTokenStep := by
  intro s c hin ht hp hpos hbit hturn hc hlt
  have ht' : (beginToken s).tainted = false := ht
  refine ⟨tokenFault .truncatedToken (beginToken s), ?_, rfl, rfl, rfl, rfl, rfl⟩
  rw [step_of_decRun hin hp, decodeStep_of_tokenTurn hpos hbit hturn, tokenStep, tokenContext_eq, ← hc,
    fetch_of_truncated hlt, withValue_ok, raiseCorrupt_of_untainted ht', tokenFault]

/-- Settles O33: with no token due and the guard failing, the step is `finish` (`decodeStep_of_over`). -/
theorem decompressEndsDone : Obligations.DecompressEndsDone := by
  intro s hin ht hp hpos hdue hover
  rw [step_of_decRun hin hp, decodeStep_of_over hpos hdue hover, decompressFinish, finish, conclude_of_untainted ht]
  rfl

/-- Settles O59: the decoder reads SRC from offset 8 on and DST, and both read the same over the two memories
(`headerBlind_decodeStep`, `headerBlind_copyStep`). -/
theorem decoderIgnoresHeader : Obligations.DecoderIgnoresHeader := by
  intro s t m o h h' hinv hin ht hp hwf hm hstep
  have hranges := hinv.ranges
  rw [step_of_no_inputs hin] at hstep
  show ∃ m', step (withHeader o h h' m s) = .next (withHeader o h h' m' t) ∧ AgreeOffHeader s.srcBase.toNat t.mem m'
  rw [step_of_no_inputs (s := withHeader o h h' m s) hin]
  obtain hp | hp := hp
  · simp only [WorkingRanges, hp] at hranges
    obtain ⟨-, hpos, -⟩ := hranges
    have hcore : coreStep s = decodeStep s := by rw [coreStep, hp]
    have hcore' : coreStep (withHeader o h h' m s) = decodeStep (withHeader o h h' m s) := by
      rw [coreStep, show (withHeader o h h' m s).phase = .decRun from hp]
    rw [hcore] at hstep
    rw [hcore']
    exact headerBlind_decodeStep hinv.memory hwf hm ht hpos t hstep
  · simp only [WorkingRanges, hp] at hranges
    obtain ⟨hdec, -⟩ := hranges
    have hchecks := hinv.checksHold (by rw [State.inBody, hp]; rfl)
    obtain ⟨-, -, hov, hlen⟩ := LegalDecompress.regions ⟨hdec, hchecks, ht⟩
    have hcore : coreStep s = copyStep s := by rw [coreStep, hp]
    have hcore' : coreStep (withHeader o h h' m s) = copyStep (withHeader o h h' m s) := by
      rw [coreStep, show (withHeader o h h' m s).phase = .decCopy from hp]
    rw [hcore] at hstep
    rw [hcore']
    exact headerBlind_copyStep hinv.memory hwf hm hlen hov t hstep

end Sys2Proof.Machine
end

/-! # The host's actions on a core (10_state.md, 60_exceptions.md, 70_reset_and_hazards.md) -/

section
namespace Sys2Proof.Machine

/-! ## The register block (R20 to R26) -/

theorem step_of_wordRead {s : State} {off : BitVec 6} {rest : List Input}
    (hin : s.inputs = .regRead off .word :: rest) (hoff : off.toNat % 4 = 0) :
    step s = .next (hostRegRead off (s.withInputs rest)) := by
  rw [step_of_input hin, hostStep, if_pos (alignedWord_word hoff)]

theorem hostRegWrite_of_ne_cmd {off : BitVec 6} (h : regAt off ≠ .cmd) (v : Word) (s : State) :
    hostRegWrite off v s = .next (writeReg (regAt off) v s) := by
  unfold hostRegWrite
  split
  · exact absurd ‹_› h
  · rfl

theorem step_of_plainWrite {s : State} {off : BitVec 6} {v : Word} {rest : List Input}
    (hin : s.inputs = .regWrite off .word v :: rest) (hoff : off.toNat % 4 = 0) (hreg : regAt off ≠ .cmd) :
    step s = .next (writeReg (regAt off) v (s.withInputs rest)) := by
  rw [step_of_wordWrite hin hoff, hostRegWrite_of_ne_cmd hreg]

/-- The read-only registers and the reserved offsets drop a write, BUSY or not (R20, R22, R26). -/
theorem writeReg_readOnly {r : HostReg} (h : r = .status ∨ r = .srcPos ∨ r = .dstPos ∨ r = .reserved) (v : Word)
    (s : State) : writeReg r v s = s := by
  unfold writeReg
  split_ifs
  · rfl
  · obtain rfl | rfl | rfl | rfl := h <;> rfl

theorem regAt_readOnly : ∀ off : BitVec 6, off.toNat % 4 = 0 → off.toNat = 0x04 ∨ 0x24 ≤ off.toNat →
    regAt off = .status ∨ regAt off = .srcPos ∨ regAt off = .dstPos ∨ regAt off = .reserved := by decide

/-- The aligned offsets: the reserved ones, and the eleven registers' (R20). -/
theorem offset_cases : ∀ off : BitVec 6, off.toNat % 4 = 0 →
    (regAt off = .reserved ∧ 0x28 < off.toNat) ∨ off = 0x00 ∨ off = 0x04 ∨ off = 0x08 ∨ off = 0x0C ∨ off = 0x10 ∨
      off = 0x14 ∨ off = 0x18 ∨ off = 0x1C ∨ off = 0x20 ∨ off = 0x24 ∨ off = 0x28 := by decide

/-- What a register's offset reads (R20, R21). -/
theorem readReg_regAt (s : State) {off : BitVec 6} (h : off.toNat % 4 = 0) :
    readReg (regAt off) s =
      if off.toNat = 0x04 then s.status.word
      else if off.toNat = 0x08 then s.srcBase
      else if off.toNat = 0x0C then s.srcLen
      else if off.toNat = 0x10 then s.dstBase
      else if off.toNat = 0x14 then s.dstLen
      else if off.toNat = 0x18 then s.offset
      else if off.toNat = 0x1C then s.hdrLo
      else if off.toNat = 0x20 then s.hdrHi
      else if off.toNat = 0x24 then s.srcPosReg
      else if off.toNat = 0x28 then s.dstPosReg
      else 0 := by
  obtain ⟨hreserved, hhigh⟩ | rfl | rfl | rfl | rfl | rfl | rfl | rfl | rfl | rfl | rfl | rfl := offset_cases off h
  · have hne : ∀ k ≤ 0x28, off.toNat ≠ k := fun k hk => (Nat.lt_of_le_of_lt hk hhigh).ne'
    simp [hreserved, readReg, hne]
  all_goals rfl

/-- Which reads have no specified value (R26, R27). -/
theorem unspecifiedNow_iff {s : State} {off : BitVec 6} (h : off.toNat % 4 = 0) :
    s.unspecifiedNow (regAt off) = true ↔ s.busy = true ∧ (off.toNat = 0x24 ∨ off.toNat = 0x28) := by
  have hpositions : ∀ off : BitVec 6, off.toNat % 4 = 0 →
      (((regAt off == .srcPos || regAt off == .dstPos) = true) ↔ off.toNat = 0x24 ∨ off.toNat = 0x28) := by decide
  rw [State.unspecifiedNow, Bool.and_eq_true, hpositions off h]

theorem hostRegRead_of_specified {s : State} {off : BitVec 6} (h : ¬ s.unspecifiedNow (regAt off) = true) :
    hostRegRead off s = record (.regRead off (readReg (regAt off) s)) s ∨
      hostRegRead off s = releaseClaim (record (.regRead off (readReg (regAt off) s)) s) := by
  rw [hostRegRead, if_neg h]
  split_ifs
  · exact .inr rfl
  · exact .inl rfl

theorem readReg_record (e : Event) (r : HostReg) (s : State) : readReg r (record e s) = readReg r s := by
  cases r <;> rfl

theorem readReg_releaseClaim (r : HostReg) (s : State) : readReg r (releaseClaim s) = readReg r s := by
  cases r <;> rfl

theorem readReg_withInputs (r : HostReg) (s : State) (rest : List Input) :
    readReg r (s.withInputs rest) = readReg r s := by
  cases r <;> rfl

theorem ended_iff {s : State} : s.ended = true ↔ s.status.state = .done ∨ s.status.state = .fault := by
  rw [State.ended, Bool.or_eq_true, beq_iff_eq, beq_iff_eq]

/-! ## The STATUS word (R22) -/

theorem commandState_number_lt (c : CommandState) : c.number < 4 := by cases c <;> decide

theorem causeCode_lt (c : Option Cause) : causeCode c < 4 := by
  unfold causeCode
  split <;> decide

theorem causeReason_lt (c : Option Cause) : causeReason c < 256 := by
  unfold causeReason
  split <;> decide

theorem or_shiftLeft_of_lt {k y : Nat} (h : y < 2 ^ k) (x : Nat) : y ||| x <<< k = y + 2 ^ k * x := by
  rw [Nat.or_comm, ← Nat.shiftLeft_add_eq_or_of_lt h, Nat.shiftLeft_eq, Nat.add_comm, Nat.mul_comm]

/-- The fields of the STATUS word stand beside each other. -/
theorem toNat_status_word (t : Status) :
    t.word.toNat = t.state.number + 16 * causeCode t.cause + 256 * causeReason t.cause + 65536 * t.lastOp.toNat := by
  have hstate := commandState_number_lt t.state
  have hcode := causeCode_lt t.cause
  have hreason := causeReason_lt t.cause
  have hop := t.lastOp.isLt
  simp only [Status.word, BitVec.toNat_or, BitVec.toNat_shiftLeft, BitVec.toNat_ofNat, BitVec.toNat_setWidth]
  generalize t.state.number = state at *
  generalize causeCode t.cause = code at *
  generalize causeReason t.cause = reason at *
  generalize t.lastOp.toNat = op at *
  rw [Nat.mod_eq_of_lt (show state < 2 ^ 32 by omega), Nat.mod_eq_of_lt (show code < 2 ^ 32 by omega),
    Nat.mod_eq_of_lt (show reason < 2 ^ 32 by omega), Nat.mod_eq_of_lt (show op < 2 ^ 32 by omega),
    Nat.mod_eq_of_lt (by omega), Nat.mod_eq_of_lt (by omega), Nat.mod_eq_of_lt (by omega),
    or_shiftLeft_of_lt (k := 4) (by omega), or_shiftLeft_of_lt (k := 8) (by omega),
    or_shiftLeft_of_lt (k := 16) (by omega)]
  omega

/-- A field of the STATUS word, as arithmetic. -/
theorem toNat_status_field (t : Status) (start len : Nat) :
    (t.word.extractLsb' start len).toNat =
      (t.state.number + 16 * causeCode t.cause + 256 * causeReason t.cause + 65536 * t.lastOp.toNat) / 2 ^ start %
        2 ^ len := by
  rw [BitVec.extractLsb'_toNat, toNat_status_word, Nat.shiftRight_eq_div_pow]

/-! ## Reset (R210, R211) -/

theorem read_drawWriteRegion {m : Memory} (hm : m.wf = true) (stream n : Nat) (c : Claim) (a : Nat) :
    (drawWriteRegion stream n (some c) m).read a =
      if c.writes.base ≤ a ∧ a < c.writes.base + c.writes.len ∧ a < 4294967296 then Config.drawByte stream n a
      else m.read a :=
  Memory.read_fill hm _ _ _ a

theorem claimFor_of_unknown {op : Byte} (hmask : op ≠ 0x01) (hdec : op ≠ 0x02) (henc : op ≠ 0x03) (s : State) :
    claimFor op s = ⟨[], [], ⟨0, 0⟩, ⟨0, 0⟩⟩ := by
  have hother : ¬ (op = opDecompress || op = opCompress) = true := by
    rw [Bool.or_eq_true, decide_eq_true_eq, decide_eq_true_eq]
    exact not_or.mpr ⟨hdec, henc⟩
  rw [claimFor, if_neg (show ¬ op = opMask from hmask), if_neg hother]

theorem readReg_applyReset (r : HostReg) (s : State) : readReg r (applyReset s) = readReg r State.reset := by
  cases r <;> rfl

theorem readReg_reset (r : HostReg) : readReg r State.reset = 0 := by
  cases r <;> rfl

/-! ## Starting a command (R28) -/

theorem failedCheck_of_unknown {s : State} (h : (!s.opKnown) = true) : failedCheck s = some .badCommand := by
  rw [failedCheck, argumentChecks, firstFailing, if_pos h]

theorem commandWrite_of_badCommand {w : Word} {e : DecodeError} (h : decode .command (wordBytes w) = .error e)
    (s : State) : commandWrite w s = .next (startCommand (w.setWidth 8) s) := by
  rw [commandWrite, h]

/-- A command whose code is unknown fails its first check (R95, R183). -/
theorem step_startCommand_of_unknown {s : State} (hin : s.inputs = []) (hbusy : s.busy = false) {op : Byte}
    (hmask : op ≠ 0x01) (hdec : op ≠ 0x02) (henc : op ≠ 0x03) :
    step (startCommand op s) =
      .next (endCommand (.fault (.invalidArgument .badCommand)) 0 0 (startCommand op s)) := by
  rw [step_startCommand hin hbusy, startCommand_of_not_busy hbusy,
    checkStep_of_failed (failedCheck_of_unknown (not_opKnown_iff.mpr ⟨hmask, hdec, henc⟩)),
    raiseInvalid_of_untainted rfl]

/-- What a CMD write leaves, BUSY or not. -/
theorem startCommand_keeps (op : Byte) (s : State) :
    startCommand op s = { s with
      status := (startCommand op s).status
      phase := (startCommand op s).phase
      claim := (startCommand op s).claim
      tainted := (startCommand op s).tainted } := by
  unfold startCommand
  split_ifs <;> rfl

/-! ## The statements -/

/-- Settles O7: every register of `State.reset` is 0, and `applyReset` changes only memory and the model's bookkeeping
from there. -/
theorem resetValues : Obligations.ResetValues := by
  refine ⟨⟨rfl, rfl, readReg_reset⟩, fun s rest hin => ⟨_, step_of_input hin, rfl, rfl, fun r => ?_, fun hbusy => ?_⟩⟩
  · rw [readReg_applyReset, readReg_reset]
  · have hbusy' : (s.withInputs rest).busy = false := hbusy
    exact if_neg (Bool.eq_false_iff.mp hbusy')

/-- Settles O8: the claim's write region is drawn (`read_drawWriteRegion`), and the claim is the command's own. -/
theorem resetAbandonsCommand : Obligations.ResetAbandonsCommand := by
  intro s rest hin hbusy hm hclaim
  refine ⟨_, s.draws, step_of_input hin, rfl, rfl, ?_⟩
  have hmem : (applyReset (s.withInputs rest)).mem =
      drawWriteRegion s.stream s.draws (some (claimFor s.status.lastOp s)) s.mem := by
    rw [← hclaim]
    exact if_pos hbusy
  rw [hmem]
  refine ⟨fun hop a => ?_, fun hop a => ?_, fun hmask hdec henc a => ?_⟩
  · rw [read_drawWriteRegion hm, writes_of_mask (isMask_iff.mpr hop)]
    rfl
  · rw [read_drawWriteRegion hm, writes_of_dst (hop.imp isDecompress_iff.mpr isCompress_iff.mpr)]
    rfl
  · rw [read_drawWriteRegion hm, claimFor_of_unknown hmask hdec henc]
    exact if_neg fun h => Nat.not_lt_zero a h.2.1

/-- Settles O9: each offset is its register's (`step_of_plainWrite`), and a core that is not BUSY takes the write. -/
theorem plainRegistersAreWritten : Obligations.PlainRegistersAreWritten := by
  intro s v rest hbusy
  have hbusy' : (s.withInputs rest).busy = false := hbusy
  refine ⟨fun h => ?_, fun h => ?_, fun h => ?_, fun h => ?_, fun h => ?_, fun h => ?_, fun h => ?_⟩
  all_goals
    rw [step_of_plainWrite h rfl (by decide), writeReg.eq_def, hbusy', if_neg Bool.false_ne_true]
    rfl

/-- Settles O10: each such offset is a register that drops the write (`regAt_readOnly`, `writeReg_readOnly`). -/
theorem readOnlyIgnoresWrites : Obligations.ReadOnlyIgnoresWrites := by
  intro s off v rest hin haligned hoff
  have hreg := regAt_readOnly off haligned hoff
  rw [step_of_plainWrite hin haligned, writeReg_readOnly hreg]
  · rfl
  · obtain h | h | h | h := hreg <;> rw [h] <;> decide

/-- Settles O12: a read with a specified value records what the register reads (`readReg_regAt`), and changes no
register. -/
theorem hostReadsRegisters : Obligations.HostReadsRegisters := by
  intro s off rest hin haligned hspecified
  have hunfree : ¬ (s.withInputs rest).unspecifiedNow (regAt off) = true := by
    rw [unspecifiedNow_iff haligned]
    exact hspecified
  have hvalue : readReg (regAt off) (s.withInputs rest) = readReg (regAt off) s := readReg_withInputs _ _ _
  have hstep := step_of_wordRead hin haligned
  have hreads := readReg_regAt s haligned
  obtain hread | hread := hostRegRead_of_specified hunfree <;> rw [hread, hvalue] at hstep
  · refine ⟨_, _, hstep, rfl, hreads, fun r => ?_, rfl, rfl, rfl⟩
    rw [readReg_record, readReg_withInputs]
  · refine ⟨_, _, hstep, rfl, hreads, fun r => ?_, rfl, rfl, rfl⟩
    rw [readReg_releaseClaim, readReg_record, readReg_withInputs]

/-- Settles O13: while BUSY the two positions read a draw (`unspecifiedNow_iff`). -/
theorem positionsAreFreeWhileBusy : Obligations.PositionsAreFreeWhileBusy := by
  intro s off rest hin hbusy hoff
  have haligned : off.toNat % 4 = 0 := by omega
  have hfree : (s.withInputs rest).unspecifiedNow (regAt off) = true := (unspecifiedNow_iff haligned).mpr ⟨hbusy, hoff⟩
  rw [step_of_wordRead hin haligned, hostRegRead, if_pos hfree]
  rfl

/-- Settles O14: only an aligned word gets past `hostStep`'s first test. -/
theorem otherAccessesAreRefused : Obligations.OtherAccessesAreRefused := by
  intro s off w v rest hbad hin
  have hunaligned : ¬ alignedWord off w = true := by
    rw [alignedWord, Bool.and_eq_true, beq_iff_eq, beq_iff_eq]
    exact fun h => hbad.elim (absurd h.1) (absurd h.2)
  obtain hin | hin := hin <;> rw [step_of_input hin, hostStep, if_neg hunaligned]

/-- Settles O15: each field of the word is arithmetic on the four numbers (`toNat_status_field`). -/
theorem statusWordFields : Obligations.StatusWordFields := by
  intro t
  have hstate := commandState_number_lt t.state
  have hcode := causeCode_lt t.cause
  have hreason := causeReason_lt t.cause
  have hop := t.lastOp.isLt
  have hfield := toNat_status_field t
  refine ⟨Eq.trans (b := t.state.number) ?_ ?_, BitVec.eq_of_toNat_eq ?_, Eq.trans (b := causeCode t.cause) ?_ ?_,
    BitVec.eq_of_toNat_eq ?_, ?_, BitVec.eq_of_toNat_eq ?_, BitVec.eq_of_toNat_eq ?_⟩
  case refine_2 => cases t.state <;> rfl
  case refine_5 => rcases t.cause with _ | ⟨_ | _⟩ <;> rfl
  all_goals rw [hfield]
  · omega
  · show _ = 0; omega
  · omega
  · show _ = 0; omega
  · omega
  · omega
  · show _ = 0; omega

/-- Settles O16: each of the thirteen words is computed. -/
theorem statusWordsOfOutcomes : Obligations.StatusWordsOfOutcomes := by
  unfold Obligations.StatusWordsOfOutcomes
  decide

/-- Settles O35: the four bytes are the first tests of `keyByte`. -/
theorem keyBytesGiven : Obligations.KeyBytesGiven := ⟨rfl, rfl, rfl, rfl⟩

/-- Settles O18: each of the three is `startCommand` with its code. -/
theorem commandsStart : Obligations.CommandsStart := fun _ hbusy =>
  ⟨congrArg Host.Outcome.next (startCommand_of_not_busy hbusy opMask),
    congrArg Host.Outcome.next (startCommand_of_not_busy hbusy opDecompress),
    congrArg Host.Outcome.next (startCommand_of_not_busy hbusy opCompress)⟩

/-- Settles O19: each of the three is `startCommand`, which changes STATUS, the phase, the claim and the mark at most
(`startCommand_keeps`). -/
theorem commandStartFrame : Obligations.CommandStartFrame := by
  intro i s t hi hexec
  obtain ⟨op, hstart⟩ : ∃ op, t = startCommand op s := by
    obtain rfl | rfl | rfl := hi <;> cases hexec <;> exact ⟨_, rfl⟩
  rw [hstart, startCommand_keeps]
  refine ⟨fun r hr => ?_, rfl, rfl, rfl, rfl, rfl, rfl, rfl, rfl, rfl, fun _ => rfl, rfl, rfl, rfl, rfl, rfl⟩
  cases r
  case status => exact absurd rfl hr
  all_goals rfl

/-- Settles O5: the low byte selects (`decode_wordBytes`); a code that selects no command starts one whose first check
fails (`failedCheck_of_unknown`). -/
theorem commandCodeSelects : Obligations.CommandCodeSelects := by
  refine ⟨decode_wordBytes, fun s w hin hbusy hmask hdec henc => ?_⟩
  have hop : ∀ k < 256, w.toNat % 256 ≠ k → w.setWidth 8 ≠ BitVec.ofNat 8 k := fun k hk hne =>
    mt (ofNat8_eq_iff w.toNat k hk).mp hne
  have hdecode := decode_wordBytes w
  rw [if_neg hmask, if_neg hdec, if_neg henc] at hdecode
  have hcmd : hostRegWrite 0 w (s.withInputs []) = commandWrite w (s.withInputs []) := rfl
  have hbad := step_startCommand_of_unknown (s := s.withInputs []) rfl hbusy (hop 1 (by decide) hmask)
    (hop 2 (by decide) hdec) (hop 3 (by decide) henc)
  refine ⟨_, _, by rw [step_of_wordWrite hin rfl, hcmd, commandWrite_of_badCommand hdecode], ?_, hbad, ?_, rfl, rfl, ?_⟩
  all_goals rw [startCommand_of_not_busy (s := s.withInputs []) hbusy]; rfl

/-- Settles O21: the failing check is raised, and an unmarked command's InvalidArgument is `endCommand`. -/
theorem invalidArgumentEffect : Obligations.InvalidArgumentEffect := by
  intro s r hp hin ht hck
  rw [step_of_check hp hin, checkStep_of_failed hck, raiseInvalid_of_untainted ht]
  rfl

/-- Settles O29: a CMD write runs what its word decodes to. -/
theorem stepRunsCommandWord : Obligations.StepRunsCommandWord := by
  intro s w rest i hin hdecode
  have hcmd : hostRegWrite 0 w (s.withInputs rest) = commandWrite w (s.withInputs rest) := rfl
  rw [step_of_wordWrite hin rfl, hcmd, commandWrite, hdecode]
  rfl

/-- Settles O40: the store lands, and a BUSY core's command is marked. -/
theorem hostStoreTaints : Obligations.HostStoreTaints := by
  intro s a v rest hin hbusy hguards hdevice
  have hordinary : ¬ (s.withInputs rest).deviceAt a.toNat = true := Bool.eq_false_iff.mp hdevice
  have hlent : (storeByte a.toNat v (s.withInputs rest)).guards a.toNat = true := hguards
  have hrunning : (storeByte a.toNat v (s.withInputs rest)).busy = true := hbusy
  rw [step_of_input hin, hostStep, hostMemWrite, if_neg hordinary, noteHostWrite, if_pos hlent, violate,
    if_pos hrunning]
  rfl

/-- Settles O41: a marked command's end is `spoil`, whose draw number is the count of draws. -/
theorem taintedEndIsFree : Obligations.TaintedEndIsFree := by
  intro s how p q c ht hclaim hm
  rw [conclude_of_tainted ht]
  refine ⟨s.draws, rfl, rfl, rfl, fun a => ?_, fun r hstatus hsrc hdst => ?_⟩
  · rw [← read_drawWriteRegion hm, ← hclaim]
    rfl
  · cases r
    case status => exact absurd rfl hstatus
    case srcPos => exact absurd rfl hsrc
    case dstPos => exact absurd rfl hdst
    all_goals rfl

/-- Settles O42: an ordinary byte's load has two forms, by whether it is hidden. -/
theorem hiddenLoadIsFree : Obligations.HiddenLoadIsFree := by
  intro s a rest hin hdevice
  have hordinary : ¬ (s.withInputs rest).deviceAt a.toNat = true := Bool.eq_false_iff.mp hdevice
  have hhides : (s.withInputs rest).hides a.toNat = s.hides a.toNat := rfl
  rw [step_of_input hin, hostStep, hostMemRead, if_neg hordinary, hhides]
  split_ifs <;> rfl

/-- Settles O43: a read of STATUS records its word, and releases the claim of a core that has ended. -/
theorem statusReadReleases : Obligations.StatusReadReleases := by
  intro s rest hin
  have hunfree : ¬ (s.withInputs rest).unspecifiedNow (regAt 0x04) = true := by
    rw [unspecifiedNow_iff rfl]
    exact fun h => absurd h.2 (by decide)
  have hended : (regAt 0x04 = .status && (s.withInputs rest).ended) = true ↔
      s.status.state = .done ∨ s.status.state = .fault := by
    rw [Bool.and_eq_true, ended_iff]
    exact and_iff_right (by decide)
  rw [step_of_wordRead hin rfl, hostRegRead, if_neg hunfree]
  by_cases h : s.status.state = .done ∨ s.status.state = .fault
  · rw [if_pos (hended.mpr h), if_pos h]
    exact ⟨_, rfl, rfl, rfl⟩
  · rw [if_neg (mt hended.mp h), if_neg h]
    exact ⟨_, rfl, rfl, rfl⟩

/-- Settles O60: `Memory.read_write`, `Memory.wf_write` and `Memory.ext`. -/
theorem memoryLaws : Obligations.MemoryLaws := fun _ hm =>
  ⟨fun a b v => Memory.read_write hm a b v, fun _ v ha => Memory.wf_write hm ha v,
    fun _ hm' heq => Memory.ext hm' hm heq⟩

end Sys2Proof.Machine
end

/-! # Several cores (60_exceptions.md, 70_reset_and_hazards.md) -/

section
namespace Sys2Proof.Machine

/-! ## One move of a core on a platform -/

theorem coreAt_eq (p : Platform) (k : Nat) : p.coreAt k = (p.cores[k]?).map (·.onPlatform p.mem k) := by
  rw [Platform.coreAt]
  cases p.cores[k]? <;> rfl

/-- A core that has just moved draws from its own stream. -/
theorem stream_of_coreAt {p : Platform} {k : Nat} {s t : State} (hs : p.coreAt k = some s) (hstep : step s = .next t) :
    t.stream = k := by
  rw [coreAt_eq, Option.map_eq_some_iff] at hs
  obtain ⟨u, -, rfl⟩ := hs
  exact step_stream hstep

theorem lt_of_coreAt {p : Platform} {k : Nat} {s : State} (hs : p.coreAt k = some s) : k < p.cores.length := by
  rw [coreAt_eq, Option.map_eq_some_iff] at hs
  obtain ⟨u, hu, -⟩ := hs
  exact (List.getElem?_eq_some_iff.mp hu).1

theorem anyOther_eq_false {q : State → Bool} {k : Nat} {l : List State}
    (h : ∀ (j : Nat) (u : State), l[j]? = some u → j ≠ k → q u = false) : anyOther q k 0 l = false := by
  refine Bool.eq_false_iff.mpr fun hany => ?_
  obtain ⟨j, u, hu, hj, hq⟩ := (anyOther_iff k l 0).mp hany
  rw [Nat.zero_add] at hj
  exact Bool.false_ne_true ((h j u hu hj).symm.trans hq)

/-- A load that no other core hides is the core's own step. -/
theorem move_eq_step {p : Platform} {k : Nat} {s : State}
    (h : ∀ a ys, s.inputs = .memRead a :: ys →
      ∀ (j : Nat) (u : State), p.cores[j]? = some u → j ≠ k → u.hides a.toNat = false) : p.move k s = step s := by
  unfold Platform.move
  split
  · rename_i a ys hin
    rw [anyOther_eq_false (h a ys hin), if_neg Bool.false_ne_true]
  · rfl

/-- The platform right after core `k`'s own move, before the other cores have noticed it. -/
def Platform.moved (p : Platform) (k : Nat) (rest : List Nat) (t : State) : Platform :=
  { cores := p.cores.set k t, mem := t.mem, turns := rest }

theorem platform_step_of_move {p : Platform} {k : Nat} {rest : List Nat} {s t : State} (hturns : p.turns = k :: rest)
    (hs : p.coreAt k = some s) (hmove : p.move k s = .next t) :
    p.step = .next (Platform.noteConflicts k t (Platform.noteWrite k s.inputs.head? (p.moved k rest t))) := by
  rw [Platform.step, hturns]
  simp only [hs, hmove]
  rfl

/-- A step whose store breaks no other core's claim leaves the other cores, and the memory, as the move left them. -/
theorem noteWrite_of_unguarded {p : Platform} {k : Nat} {i : Option Input}
    (h : ∀ a v, i = some (.memWrite a v) →
      ∀ (j : Nat) (u : State), p.cores[j]? = some u → j ≠ k → u.guards a.toNat = false) :
    (p.noteWrite k i).mem = p.mem ∧ (p.noteWrite k i).turns = p.turns ∧
      ∀ j, (p.noteWrite k i).cores[j]? = p.cores[j]? ∨
        j ≠ k ∧ (p.noteWrite k i).cores[j]? = (p.cores[j]?).map (·.onPlatform p.mem j) := by
  unfold Platform.noteWrite
  split
  · rename_i a v
    have hquiet : ∀ (j : Nat) (u : State), p.cores[j]? = some u → j ≠ k →
        noteHostWrite a.toNat (u.onPlatform p.mem j) = u.onPlatform p.mem j := fun j u hu hj => by
      rw [noteHostWrite, onPlatform_guards, h a v rfl j u hu hj, if_neg Bool.false_ne_true]
    obtain ⟨hmem, hcores⟩ := sweepOthers_of_mem (f := noteHostWrite a.toNat) k p.cores 0 p.mem fun j u hu hj => by
      rw [Nat.zero_add] at hj ⊢
      rw [hquiet j u hu hj, onPlatform_mem]
    refine ⟨hmem, rfl, fun j => ?_⟩
    have hcore := hcores j
    rw [Nat.zero_add] at hcore
    by_cases hj : j = k
    · left
      simpa only [if_pos hj, Option.map_id'] using hcore
    · right
      refine ⟨hj, hcore.trans ?_⟩
      cases hu : p.cores[j]? with
      | none => rfl
      | some u => rw [Option.map_some, Option.map_some, if_neg hj, hquiet j u hu hj]
  · exact ⟨rfl, rfl, fun j => .inl rfl⟩

theorem noteConflicts_of_none {p : Platform} {k : Nat} {t : State} (ht : t.onPlatform p.mem k = t)
    (h : ∀ (j : Nat) (u : State), p.cores[j]? = some u → j ≠ k → t.conflictsWith u = false) :
    p.noteConflicts k t = p := by
  rw [Platform.noteConflicts, ht, anyOther_eq_false h, if_neg Bool.false_ne_true]

/-- A conflict marks the core that moved and every core that it conflicts with (R221). -/
theorem noteConflicts_of_conflict {p : Platform} {k j : Nat} {t u : State} (ht : t.onPlatform p.mem k = t)
    (hk : k < p.cores.length) (hu : p.cores[j]? = some u) (hj : j ≠ k) (hconflict : t.conflictsWith u = true) :
    (p.noteConflicts k t).cores[k]? = some (taint t) ∧
      (p.noteConflicts k t).cores[j]? = some (taint (u.onPlatform p.mem j)) := by
  have hany : anyOther t.conflictsWith k 0 p.cores = true :=
    (anyOther_iff k p.cores 0).mpr ⟨j, u, hu, by rwa [Nat.zero_add], hconflict⟩
  rw [Platform.noteConflicts, ht, if_pos hany]
  obtain ⟨-, hcores⟩ := sweepOthers_of_mem (f := fun s => if t.conflictsWith s then taint s else s) k
    (p.cores.set k (taint t)) 0 p.mem fun i v _ _ => by split_ifs <;> rfl
  refine ⟨?_, ?_⟩
  · show (sweepOthers _ k 0 (p.cores.set k (taint t)) p.mem).1[k]? = _
    rw [hcores k, List.getElem?_set_self hk]
    simp
  · show (sweepOthers _ k 0 (p.cores.set k (taint t)) p.mem).1[j]? = _
    have hother : 0 + j ≠ k := by rwa [Nat.zero_add]
    rw [hcores j, List.getElem?_set_ne hj.symm, hu, Option.map_some, if_neg hother, conflictsWith_onPlatform,
      if_pos hconflict, Nat.zero_add]

/-! ## The statements -/

/-- Settles O44: the move is the core's own step, and neither the store nor a conflict reaches another core, so that
the others only see the new memory. -/
theorem coresDoNotInterfere : Obligations.CoresDoNotInterfere := by
  intro p q k rest s t hturns hs hstep hload hstore hconflict hnext
  have hk := lt_of_coreAt hs
  have hself : t.onPlatform t.mem k = t := onPlatform_self (stream_of_coreAt hs hstep)
  have hcores : ∀ j, j ≠ k → (p.moved k rest t).cores[j]? = p.cores[j]? := fun j hj => List.getElem?_set_ne hj.symm
  obtain ⟨hmem, hrest, hwritten⟩ := noteWrite_of_unguarded (p := p.moved k rest t) (k := k) (i := s.inputs.head?)
    fun a v hhead j u hu hj => by
      obtain ⟨ys, hin⟩ := List.head?_eq_some_iff.mp hhead
      exact hstore a v ys hin j u (by rwa [hcores j hj] at hu) hj
  rw [platform_step_of_move hturns hs ((move_eq_step hload).trans hstep)] at hnext
  generalize Platform.noteWrite k s.inputs.head? (p.moved k rest t) = w at hmem hrest hwritten hnext
  have hmem : w.mem = t.mem := hmem
  have hnone : w.noteConflicts k t = w := noteConflicts_of_none (hmem ▸ hself) fun j u hu hj => by
    obtain hsame | ⟨-, hseen⟩ := hwritten j
    · exact hconflict j u (by rw [← hcores j hj, ← hsame, hu]) hj
    · rw [hseen, hcores j hj, Option.map_eq_some_iff] at hu
      obtain ⟨v, hv, rfl⟩ := hu
      rw [conflictsWith_onPlatform]
      exact hconflict j v hv hj
  rw [hnone] at hnext
  cases hnext
  refine ⟨hmem, hrest, ?_, fun j hj => ?_⟩
  · have hown : q.cores[k]? = some t := by
      rw [(hwritten k).resolve_right fun h => h.1 rfl]
      exact List.getElem?_set_self hk
    rw [coreAt_eq, hown, hmem, Option.map_some, hself]
  · rw [coreAt_eq, hmem]
    obtain hsame | ⟨-, hseen⟩ := hwritten j
    · rw [hsame, hcores j hj]
      rfl
    · rw [hseen, hcores j hj, Option.map_map]
      rfl

/-- Settles O45: with no host action the move is the core's own step, and the conflict is found and marks both
(`noteConflicts_of_conflict`). -/
theorem conflictingCoresTaint : Obligations.ConflictingCoresTaint := by
  intro p k j rest s t u hturns hs hin hstep hu hj hconflict
  have hstream := stream_of_coreAt hs hstep
  have hmove : p.move k s = step s := move_eq_step fun a ys h => by rw [hin] at h; cases h
  obtain ⟨hcore, hother⟩ := noteConflicts_of_conflict (p := p.moved k rest t) (j := j) (u := u)
    (onPlatform_self hstream) (by rw [Platform.moved, List.length_set]; exact lt_of_coreAt hs)
    (by rw [Platform.moved, List.getElem?_set_ne hj.symm, hu]) hj hconflict
  refine ⟨_, taint t, taint (u.onPlatform t.mem j), platform_step_of_move hturns hs (hmove.trans hstep), ?_, ?_,
    rfl, rfl, hstream, rfl⟩
  · rw [hin]; exact hcore
  · rw [hin]; exact hother

end Sys2Proof.Machine
end
